-- ==== Sys2Proof/Word.lean ====
section
/-! DEFINITION. The word types of the block: a byte, and the bit pattern of a binary64 value. -/

namespace Sys2Proof

/-- A byte, `v[7:0]`, bit 0 the least significant (00_scope.md R7). -/
abbrev Byte := BitVec 8

/-- The bit pattern of an IEEE 754 binary64 value, the parameter `FLOAT` (00_scope.md R6). -/
abbrev F64 := BitVec 64

/-- One frame: a finite sequence of bytes delivered whole on a port, byte 0 first (30_encoding.md R70). -/
abbrev Frame := List Byte

end Sys2Proof
end

