-- ==== Sys2Proof/Syntax.lean ====
section
/-! DEFINITION. The syntax: the two ports, the token sets, and one constructor of `Instr` per row of
spec/opcode_table.json. -/

namespace Sys2Proof

/-- The two input ports (30_encoding.md R71). -/
inductive Port where
  /-- The command port: every opcode but TFIRE. -/
  | command
  /-- The timer-event port: TFIRE only. -/
  | timer
deriving DecidableEq, Repr, Inhabited

/-- A resolution mode (30_encoding.md R75, R81). `RMODE` is an `Option Mode`, whose `none` is the spec's own
value `NONE` (10_state.md R24). -/
inductive Mode where
  | lp
  | normal
  | hr
deriving DecidableEq, Repr

/-- A sample rate, in token order 0 to 10 (30_encoding.md R76, R82). -/
inductive Rate where
  | pd
  | hz1
  | hz10
  | hz25
  | hz50
  | hz100
  | hz200
  | hz400
  | hz1620
  | hz1344
  | hz5376
deriving DecidableEq, Repr

/-- A full-scale range, in token order 0 to 3 (30_encoding.md R77, R83). -/
inductive Range where
  | g2
  | g4
  | g8
  | g16
deriving DecidableEq, Repr

/-- A decode divisor: one of the four of 00_scope.md R6. -/
inductive Divisor where
  | d16384
  | d8192
  | d4096
  | d1024
deriving DecidableEq, Repr

/-- An output unit (30_encoding.md R78). -/
inductive OutUnit where
  | native
  | si
deriving DecidableEq, Repr

/-- The commands of 30_encoding.md R86, one constructor a row. An operand is the frame's raw byte: a token
outside its set is decoded normally and rejected by the command's own rule (R89). -/
inductive Instr where
  /-- 0x01 SETAXES `A` (40_encoder.md R101). -/
  | setAxes (a : Byte)
  /-- 0x02 SETRES `M` (R102). -/
  | setRes (m : Byte)
  /-- 0x03 SETRATE `R` (R104). -/
  | setRate (r : Byte)
  /-- 0x04 SETRANGE `G` (R106). -/
  | setRange (g : Byte)
  /-- 0x05 SETUNIT `U` (R108). -/
  | setUnit (u : Byte)
  /-- 0x06 SETDUTY `D` (42_pwm.md R166). -/
  | setDuty (d : Byte)
  /-- 0x07 CONFIGURE `A M R G U D` (43_driver.md R200). -/
  | configure (a m r g u d : Byte)
  /-- 0x08 READ (R204). -/
  | read
  /-- 0x09 IDENTIFY (R207). -/
  | identify
  /-- 0x0A DECODE `G U B0..B5` (41_decoder.md R145). -/
  | decode (g u b0 b1 b2 b3 b4 b5 : Byte)
  /-- 0x0B TFIRE `H`, on the timer-event port (42_pwm.md R171). -/
  | tfire (h : Byte)
deriving DecidableEq, Repr

end Sys2Proof
end

