-- ==== Sys2Proof/WellFormed.lean ====
section
/-! DEFINITION. Well-formedness of an instruction: every operand token lies in its valid set
(30_encoding.md R74 to R78). Duty, handle and raw bytes have no invalid value (R79). An ill-formed instruction
is still a legal frame; its command rejects it with `InvalidParameter` (R89). -/

namespace Sys2Proof

/-- R74: `A[7:3]` must be 0. -/
def axesOk (a : Byte) : Bool := a.toNat < 8

/-- R75: the modes are 0 to 2. -/
def modeOk (m : Byte) : Bool := m.toNat ≤ 2

/-- R76: the rates are 0 to 10. -/
def rateOk (r : Byte) : Bool := r.toNat ≤ 10

/-- R77: the ranges are 0 to 3. -/
def rangeOk (g : Byte) : Bool := g.toNat ≤ 3

/-- R78: the units are 0 and 1. -/
def unitOk (u : Byte) : Bool := u.toNat ≤ 1

/-- Every operand token of the instruction lies in its valid set (R74 to R79). -/
def WellFormed : Instr → Bool
  | .setAxes a => axesOk a
  | .setRes m => modeOk m
  | .setRate r => rateOk r
  | .setRange g => rangeOk g
  | .setUnit u => unitOk u
  | .setDuty _ => true
  | .configure a m r g u _ => axesOk a && modeOk m && rateOk r && rangeOk g && unitOk u
  | .read => true
  | .identify => true
  | .decode g u _ _ _ _ _ _ => rangeOk g && unitOk u
  | .tfire _ => true

end Sys2Proof
end

