-- ==== Sys2Proof/Decode.lean ====
section
/-! DEFINITION. Frames to instructions and back (30_encoding.md R70 to R73, R86 to R90). -/

namespace Sys2Proof

/-- The frame length byte 0 fixes (R87); an opcode that selects no row is given length 1. -/
def frameLength (op : Byte) : Nat :=
  match op.toNat with
  | 0x01 | 0x02 | 0x03 | 0x04 | 0x05 | 0x06 | 0x0B => 2
  | 0x07 => 7
  | 0x0A => 9
  | _ => 1

/-- The port that carries an instruction (R71): the timer-event port carries TFIRE and nothing else. -/
def Instr.port : Instr → Port
  | .tfire _ => .timer
  | _ => .command

/-- The operands of format F0 (R72). -/
def operandsF0 (i : Instr) : List Byte → Option Instr
  | [] => some i
  | _ => none

/-- The operands of format F1 (R72). -/
def operandsF1 (k : Byte → Instr) : List Byte → Option Instr
  | [x] => some (k x)
  | _ => none

/-- The operands of format F6 (R72): `A M R G U D`. -/
def operandsF6 : List Byte → Option Instr
  | [a, m, r, g, u, d] => some (.configure a m r g u d)
  | _ => none

/-- The operands of format F8 (R72): `G U B0 B1 B2 B3 B4 B5`. -/
def operandsF8 : List Byte → Option Instr
  | [g, u, b0, b1, b2, b3, b4, b5] => some (.decode g u b0 b1 b2 b3 b4 b5)
  | _ => none

/-- The instruction a frame stands for on its own port; `none` for a reserved opcode or a wrong length
(R86, R88(a), R88(b)). No operand is looked at. -/
def decode : Frame → Option Instr
  | [] => none
  | op :: args =>
    if op = 0x01 then operandsF1 .setAxes args
    else if op = 0x02 then operandsF1 .setRes args
    else if op = 0x03 then operandsF1 .setRate args
    else if op = 0x04 then operandsF1 .setRange args
    else if op = 0x05 then operandsF1 .setUnit args
    else if op = 0x06 then operandsF1 .setDuty args
    else if op = 0x07 then operandsF6 args
    else if op = 0x08 then operandsF0 .read args
    else if op = 0x09 then operandsF0 .identify args
    else if op = 0x0A then operandsF8 args
    else if op = 0x0B then operandsF1 .tfire args
    else none

/-- The instruction a frame stands for when it arrives on port `p`: R88(a), (b) and (c). -/
def decodeOn (p : Port) (f : Frame) : Option Instr :=
  match decode f with
  | some i => if i.port = p then some i else none
  | none => none

/-- The opcode byte of an instruction (R86). -/
def opcodeOf : Instr → Byte
  | .setAxes _ => 0x01
  | .setRes _ => 0x02
  | .setRate _ => 0x03
  | .setRange _ => 0x04
  | .setUnit _ => 0x05
  | .setDuty _ => 0x06
  | .configure .. => 0x07
  | .read => 0x08
  | .identify => 0x09
  | .decode .. => 0x0A
  | .tfire _ => 0x0B

/-- The operand bytes of an instruction, in frame order (R72, R86). -/
def operandsOf : Instr → List Byte
  | .setAxes a => [a]
  | .setRes m => [m]
  | .setRate r => [r]
  | .setRange g => [g]
  | .setUnit u => [u]
  | .setDuty d => [d]
  | .configure a m r g u d => [a, m, r, g, u, d]
  | .read => []
  | .identify => []
  | .decode g u b0 b1 b2 b3 b4 b5 => [g, u, b0, b1, b2, b3, b4, b5]
  | .tfire h => [h]

/-- The frame of an instruction: opcode, then operands (R70). -/
def encode (i : Instr) : Frame := opcodeOf i :: operandsOf i

/-- The first `n` bytes of the number `w`, least significant first: byte `k` is `w[8k+7 : 8k]`. -/
def bytesOf : Nat → Nat → List Byte
  | 0, _ => []
  | n + 1, w => BitVec.ofNat 8 w :: bytesOf n (w / 256)

/-- The frame whose bits are `w`, of `nbits` bits as spec/opcode_table.json counts them: `w`'s bytes above `nbits`
are 0, and operand bytes the table gives no bits are bytes of zeros up to the frame length (R87). DESIGN CHOICE
(log 21, safe). -/
def tableFrame (nbits w : Nat) : Frame :=
  let w := w % 2 ^ nbits
  bytesOf (max (frameLength (BitVec.ofNat 8 w)) ((nbits + 7) / 8)) w

/-- The instruction the decoder reads from an instruction whose bits are `w`, numbered as
spec/opcode_table.json numbers them. -/
def decodeTableWord (nbits w : Nat) : Option Instr := decode (tableFrame nbits w)

end Sys2Proof
end

