-- ==== Sys2Proof/Config.lean ====
section
/-! DEFINITION. The OPEN parameters of 00_scope.md R6, the shape of a bus answer, and the free values: constants
with no body, of which nothing can be proved. -/

namespace Sys2Proof

/-- `PWM_FAIL_POLICY` (42_pwm.md R168). -/
inductive FailPolicy where
  /-- After a failed write the controller arms its next timer as if the write had succeeded. -/
  | continueArming
  /-- After a failed write the controller does not arm. -/
  | halt
deriving DecidableEq, Repr, Inhabited

/-- The OPEN parameters of 00_scope.md R6, fixed by the platform before reset (70_reset_and_hazards.md R263).
DESIGN CHOICE (log 5, safe): the spec gives no width for `DEV_ADDR` and no unit for `TIME_UNIT`; both are plain
numbers the block passes on. -/
structure Params where
  /-- `DEV_ADDR` -/
  devAddr    : Nat
  /-- `CTRL_BASE` -/
  ctrlBase   : Byte
  /-- `DATA_ADDR` -/
  dataAddr   : Byte
  /-- `ID_ADDR` -/
  idAddr     : Byte
  /-- `TIME_UNIT` -/
  timeUnit   : Nat
  /-- `HAS_PWM` -/
  hasPwm     : Bool
  /-- `PWM_FAIL_POLICY` -/
  failPolicy : FailPolicy
deriving DecidableEq, Repr, Inhabited

/-- What the transport does with one request (20_memory.md R56, R57). -/
inductive BusAnswer where
  /-- `Ok`; `bytes` is what a read returned, of any length. A write's `Ok` carries none (log 20). -/
  | ok (bytes : List Byte)
  /-- `Fail` -/
  | fail
  /-- The transport never answers (R56, R278). -/
  | silent
deriving DecidableEq, Repr, Inhabited

/-- The parameters of the machine right after reset. DESIGN CHOICE (log 5, safe): open, so no claim about
`State.reset` can lean on a value of one. -/
opaque Config.platform : Params

/-- The transport's answer at the `n`-th consultation of the oracle. DESIGN CHOICE (log 2, safe): "A model takes
the answer from an oracle under no law" (20_memory.md R57). -/
opaque Config.busAnswer : Nat → BusAnswer

/-- The port served first at the `n`-th consultation, when an input waits on both. DESIGN CHOICE (log 3, safe):
the order is not specified (60_exceptions.md R234). -/
opaque Config.arbitrate : Nat → Port

end Sys2Proof
end

