-- ==== Sys2Proof/Machine/State.lean ====
section
/-! DEFINITION. The machine's state as plain data, what it outputs, why a step could stop, and reset. -/

namespace Sys2Proof.Machine

/-- The image space (20_memory.md R50(a)): (index, byte) pairs in one canonical form (`Memory.wf` in Ops.lean). An
unlisted index reads 0x00, the reset contents 10_state.md R20 gives. -/
abbrev Memory := List Host.Cell

/-- `PWM_PHASE` (10_state.md R27). -/
inductive Phase where
  /-- "output low, no timer armed" -/
  | off
  /-- "output high, timer armed for (MAX-duty) time units" -/
  | onPhase
  /-- "output low, timer armed for duty time units" -/
  | offPhase
deriving DecidableEq, Repr

/-- The PWM controller's registers (10_state.md R26 to R30). Where `HAS_PWM` is false they do not exist; the model
then never reads or writes them (log 10). -/
structure Pwm where
  /-- `PWM_DUTY` (R26) -/
  duty   : Nat
  /-- `PWM_PHASE` (R27) -/
  phase  : Phase
  /-- `PWM_STOP` (R28) -/
  stop   : Bool
  /-- `PWM_ARMED` (R29) -/
  armed  : Bool
  /-- `PWM_HANDLE` (R29) -/
  handle : Byte
  /-- `PWM_NEXT` (R30) -/
  next   : Byte
deriving DecidableEq, Repr

/-- The record of `CFG` (10_state.md R25). -/
structure ReadCfg where
  div  : Divisor
  unit : OutUnit
deriving DecidableEq, Repr

/-- The status codes (60_exceptions.md R230). -/
inductive Status where
  | ok
  | invalidParameter
  | incompatibleConfiguration
  | transportFailure
  | invalidInput
  | notConfigured
  | illegalCommand
  | ignored
deriving DecidableEq, Repr

/-- The data of a response (60_exceptions.md R231). -/
inductive RespData where
  | none
  /-- Returned by SETRANGE: a 16-bit unsigned value. -/
  | divisor (d : BitVec 16)
  /-- Returned by READ and DECODE. -/
  | samples (x y z : F64)
  /-- Returned by IDENTIFY. -/
  | id (b : Byte)
deriving DecidableEq, Repr

/-- The transport's answer to a write: `Ok`, `Fail` (20_memory.md R56), or no answer ever (R278). -/
inductive WriteAnswer where
  | ok
  | fail
  | silent
deriving DecidableEq, Repr

/-- What the block shows the outside world, in order (20_memory.md R61). -/
inductive Event where
  /-- An input is taken from a port (00_scope.md R9). -/
  | take (p : Port) (f : Frame)
  /-- `BusWrite(reg, bytes)` to `dev`, and its answer (20_memory.md R56). -/
  | busWrite (dev : Nat) (reg : Byte) (bytes : List Byte) (answer : WriteAnswer)
  /-- `BusRead(reg, n)` to `dev`, and its answer (R56). -/
  | busRead (dev : Nat) (reg : Byte) (n : Nat) (answer : BusAnswer)
  /-- `TimerArm(p, h)`: one callback after `p × timeUnit`, carrying `h` (42_pwm.md R163). -/
  | timerArm (p timeUnit : Nat) (h : Byte)
  /-- `TimerCancel(h)` (R163). -/
  | timerCancel (h : Byte)
  /-- A response `(status, data)` on a port (60_exceptions.md R231). -/
  | respond (p : Port) (status : Status) (data : RespData)
deriving DecidableEq, Repr

/-- The machine: the block's registers (10_state.md R40), what waits at its ports, its parameters, and the model's
own record of draws and outputs (INVENTORY.md, "State"). -/
structure State where
  /-- `IMG` (R20) -/
  img       : Memory
  /-- `RMODE` (R24); `none` is the spec's own value `NONE`. -/
  rmode     : Option Mode
  /-- `CFG` (R25); `none` is the spec's own value `none`. -/
  cfg       : Option ReadCfg
  /-- `PWM_*` (R26 to R30) -/
  pwm       : Pwm
  /-- The OPEN parameters (00_scope.md R6); no step changes them. -/
  params    : Params
  /-- The block waits for an answer that never comes (20_memory.md R56, 70_reset_and_hazards.md R278). -/
  hung      : Bool
  /-- Frames waiting on the command port, oldest first (30_encoding.md R71). -/
  cmdPort   : List Frame
  /-- Events waiting on the timer-event port, oldest first (60_exceptions.md R237). -/
  timerPort : List Frame
  /-- The ports served at the coming ties, before the oracle is asked (log 3). -/
  order     : List Port
  /-- The transport's coming answers, before the oracle is asked (log 2). -/
  answers   : List BusAnswer
  /-- How often an oracle has been asked (log 2). -/
  draws     : Nat
  /-- Every output so far, oldest first (log 6). -/
  trace     : List Event
deriving DecidableEq, Repr

/-- Why a step could stop with a fault. The spec names no such thing: every input ends with a response
(60_exceptions.md R235), and a transport that never answers hangs the block, which is a state (R278). So there is
no constructor, nothing raises one, and this is safe. -/
inductive Fault where
deriving DecidableEq, Repr

/-- Why a step could be refused. -/
inductive Refusal where
  /-- Raised by an arm of `exec` whose instruction has no meaning yet; no arm is in that case. Safe. -/
  | notModelled (mnemonic : String)
deriving DecidableEq, Repr

/-- The PWM registers after reset (10_state.md R40). -/
def Pwm.reset : Pwm :=
  { duty := 0, phase := .off, stop := true, armed := false, handle := 0x00, next := 0x00 }

/-- The machine right after reset on a platform with parameters `p`: R40 for the block's registers. The fields that
are not the block's registers start empty. DESIGN CHOICE (log 8, safe). -/
def State.resetWith (p : Params) : State :=
  { img := [], rmode := none, cfg := none, pwm := Pwm.reset, params := p, hung := false,
    cmdPort := [], timerPort := [], order := [], answers := [], draws := 0, trace := [] }

/-- The machine right after reset (10_state.md R40, 70_reset_and_hazards.md R260). Its parameters are the open
constant `Config.platform` (log 5). -/
def State.reset : State := State.resetWith Config.platform

end Sys2Proof.Machine
end

