-- ==== Sys2Proof/Machine/Operands.lean ====
section
/-! DEFINITION. Operand forms: the token tables (30_encoding.md R74 to R83), the constants of 00_scope.md R6 and the
assembly of numbers from operand bytes. Each table stands here once, so that it can be replaced (D4, D5). -/

namespace Sys2Proof.Machine

/-- `IMG_SIZE` (R6). -/
def imgSize : Nat := 6

/-- `PWM_MAX` (R6). -/
def pwmMax : Nat := 10

/-- `ID_EXPECTED` (R6, 43_driver.md R208): what a caller compares IDENTIFY's byte with. The block never does. -/
def idExpected : Byte := 51

/-- `G_SI`: the binary64 value nearest 9.81 (R6). -/
def gSi : F64 := 0x40239EB851EB851F

/-- The axes operand (R74): `A[2:0]` when `A[7:3] = 0`. -/
def axesOf (a : Byte) : Option Byte := if a.toNat < 8 then some a else none

/-- The mode operand (R75). -/
def modeOf (m : Byte) : Option Mode :=
  match m.toNat with
  | 0 => some .lp
  | 1 => some .normal
  | 2 => some .hr
  | _ => none

/-- The rate operand (R76, R82). -/
def rateOf (r : Byte) : Option Rate :=
  match r.toNat with
  | 0 => some .pd
  | 1 => some .hz1
  | 2 => some .hz10
  | 3 => some .hz25
  | 4 => some .hz50
  | 5 => some .hz100
  | 6 => some .hz200
  | 7 => some .hz400
  | 8 => some .hz1620
  | 9 => some .hz1344
  | 10 => some .hz5376
  | _ => none

/-- The range operand (R77). -/
def rangeOf (g : Byte) : Option Range :=
  match g.toNat with
  | 0 => some .g2
  | 1 => some .g4
  | 2 => some .g8
  | 3 => some .g16
  | _ => none

/-- The unit operand, `unit(U)` (R78, 40_encoder.md R107). -/
def unitOf (u : Byte) : Option OutUnit :=
  match u.toNat with
  | 0 => some .native
  | 1 => some .si
  | _ => none

/-- The requested duty, `sext_8(D)` (R79). -/
def dutyRequest (d : Byte) : Int := d.toInt

/-- `ODR_CODE` (R82). PRESUMED by the spec from the device data sheet (log 19, unsafe). -/
def odrCode : Rate → Byte
  | .pd => 0b0000
  | .hz1 => 0b0001
  | .hz10 => 0b0010
  | .hz25 => 0b0011
  | .hz50 => 0b0100
  | .hz100 => 0b0101
  | .hz200 => 0b0110
  | .hz400 => 0b0111
  | .hz1620 => 0b1000
  | .hz1344 => 0b1001
  | .hz5376 => 0b1001

/-- The rate tokens in token order (R82). -/
def allRates : List Rate :=
  [.pd, .hz1, .hz10, .hz25, .hz50, .hz100, .hz200, .hz400, .hz1620, .hz1344, .hz5376]

/-- `FS_CODE` (R83). PRESUMED by the spec from the device data sheet (log 19, unsafe). -/
def fsCode : Range → Byte
  | .g2 => 0b00
  | .g4 => 0b01
  | .g8 => 0b10
  | .g16 => 0b11

/-- The ranges in token order (R83). -/
def allRanges : List Range := [.g2, .g4, .g8, .g16]

/-- `div(G)` (40_encoder.md R105). -/
def divOf : Range → Divisor
  | .g2 => .d16384
  | .g4 => .d8192
  | .g8 => .d4096
  | .g16 => .d1024

/-- The integer a divisor is (00_scope.md R6). -/
def divValue : Divisor → Nat
  | .d16384 => 16384
  | .d8192 => 8192
  | .d4096 => 4096
  | .d1024 => 1024

/-- The exponent of a divisor, a power of two (41_decoder.md R141). -/
def divExponent : Divisor → Nat
  | .d16384 => 14
  | .d8192 => 13
  | .d4096 => 12
  | .d1024 => 10

/-- A little-endian 16-bit word: the byte with the lower index is the less significant (20_memory.md R52). -/
def leWord (lo hi : Byte) : BitVec 16 := BitVec.ofNat 16 (hi.toNat * 256 + lo.toNat)

end Sys2Proof.Machine
end

