-- ==== Sys2Proof/Machine/Flags.lean ====
section
/-! DEFINITION. Conditions. The block has no condition codes (10_state.md R35); these are the conditions its rules
test and the Boolean registers' computed values: rate compatibility, the clamp with its stop flag, and the status
codes. -/

namespace Sys2Proof.Machine

/-- The rate compatibility predicate (40_encoder.md R103): under `NONE` every mode-restricted rate is
incompatible. -/
def compat (r : Rate) (m : Option Mode) : Bool :=
  match r with
  | .hz1620 | .hz5376 => m == some .lp
  | .hz1344 => m == some .normal || m == some .hr
  | _ => true

/-- `clamp(req)` (42_pwm.md R162): the duty and the stop flag. Both bounds stop. -/
def clamp (req : Int) : Nat × Bool :=
  if req ≤ 0 then (0, true)
  else if (pwmMax : Int) ≤ req then (pwmMax, true)
  else (req.toNat, false)

/-- The numeric status codes (60_exceptions.md R230). -/
def Status.code : Status → Nat
  | .ok => 0
  | .invalidParameter => 1
  | .incompatibleConfiguration => 2
  | .transportFailure => 3
  | .invalidInput => 4
  | .notConfigured => 5
  | .illegalCommand => 6
  | .ignored => 7

end Sys2Proof.Machine
end

