-- ==== Sys2Proof/Machine/Ops.lean ====
section
/-! DEFINITION. The shared operations: the image space, fields, responses, the bus with its draws, the timer
requests, the choice of the next input, and reset of a running block. -/

namespace Sys2Proof.Machine

/-! ### The image space (20_memory.md R50(a)) -/

/-- The byte at index `a`; an unlisted index reads 0x00. -/
def Memory.read : Memory → Nat → Byte
  | [], _ => 0x00
  | (k, v) :: rest, a => if k = a then v else Memory.read rest a

/-- `m` without any entry at index `a`. -/
def Memory.erase : Memory → Nat → Memory
  | [], _ => []
  | (k, v) :: rest, a => if k = a then Memory.erase rest a else (k, v) :: Memory.erase rest a

/-- `m` with the entry `(a, v)` put before the first entry of a greater index. -/
def Memory.insert : Memory → Nat → Byte → Memory
  | [], a, v => [(a, v)]
  | (k, w) :: rest, a, v => if a < k then (a, v) :: (k, w) :: rest else (k, w) :: Memory.insert rest a v

/-- `IMG[a] <- v` (00_scope.md R8). Writing 0x00 removes the entry, so equal images are equal lists. -/
def Memory.write (m : Memory) (a : Nat) (v : Byte) : Memory :=
  if v = 0x00 then Memory.erase m a else Memory.insert (Memory.erase m a) a v

/-- Every entry lies above index `lo`, indexes rise strictly, stay below `IMG_SIZE`, and no entry is 0x00. -/
def Memory.wfFrom : Nat → Memory → Bool
  | _, [] => true
  | lo, (k, v) :: rest => lo ≤ k && k < imgSize && v != 0x00 && Memory.wfFrom (k + 1) rest

/-- The canonical form of the image space: six indexes, 0 to 5 (10_state.md R20). -/
def Memory.wf (m : Memory) : Bool := Memory.wfFrom 0 m

/-- The bits `hi` down to `lo` of a byte, as a mask. -/
def fieldMask (hi lo : Nat) : Byte := BitVec.ofNat 8 ((2 ^ (hi + 1 - lo) - 1) * 2 ^ lo)

/-- `b[hi:lo]` (00_scope.md R7). -/
def byteField (b : Byte) (hi lo : Nat) : Byte := (b &&& fieldMask hi lo) >>> lo

/-- `b[hi:lo] <- v`: only the named bits are written, every other bit keeps its value (R8, 10_state.md R22). -/
def setByteField (b : Byte) (hi lo : Nat) (v : Byte) : Byte :=
  (b &&& ~~~(fieldMask hi lo)) ||| ((v <<< lo) &&& fieldMask hi lo)

/-- `W[i][hi:lo]` -/
def Memory.field (m : Memory) (i hi lo : Nat) : Byte := byteField (m.read i) hi lo

/-- `W[i][hi:lo] <- v` -/
def Memory.setField (m : Memory) (i hi lo : Nat) (v : Byte) : Memory :=
  m.write i (setByteField (m.read i) hi lo v)

/-- The six image bytes in index order, the payload of CONFIGURE's write (20_memory.md R53). -/
def Memory.payload (m : Memory) : List Byte :=
  [m.read 0, m.read 1, m.read 2, m.read 3, m.read 4, m.read 5]

/-! ### Outputs -/

/-- Append one output to the trace. -/
def State.emit (s : State) (e : Event) : State := { s with trace := s.trace ++ [e] }

/-- `respond(status, data)`: the input ends with its response (00_scope.md R8, 60_exceptions.md R231). -/
def State.respond (s : State) (p : Port) (st : Status) (d : RespData) : State := s.emit (.respond p st d)

/-- `raise <Status>`: the input ends at once; every non-`OK` response carries no data (R8, R231). The block has no
trap: nothing is saved and nothing else changes (R235). -/
def State.raise (s : State) (p : Port) (st : Status) : State := s.respond p st .none

/-! ### How an input's body ends -/

/-- The end of a body that issues requests: it ran through, a request failed, or a request got no answer. -/
inductive Ended where
  | done (s : State)
  | failed (s : State)
  | hung (s : State)
deriving DecidableEq, Repr

/-- Go on only when the body ran through (43_driver.md R201: "no later step runs"). -/
def Ended.andThen : Ended → (State → Ended) → Ended
  | .done s, k => k s
  | .failed s, _ => .failed s
  | .hung s, _ => .hung s

/-- The response a body ends with: `OK`, or `TransportFailure` with every effect made so far kept
(60_exceptions.md R232); a hung input has no response (R278). -/
def Ended.finish (p : Port) : Ended → State
  | .done s => s.respond p .ok .none
  | .failed s => s.raise p .transportFailure
  | .hung s => s

/-! ### The bus (20_memory.md R56 to R58) -/

/-- The transport's next answer: a draw (R57). -/
def State.nextAnswer (s : State) : BusAnswer :=
  match s.answers with
  | a :: _ => a
  | [] => Config.busAnswer s.draws

/-- The state after an answer was drawn. -/
def State.drawn (s : State) : State :=
  match s.answers with
  | _ :: rest => { s with answers := rest }
  | [] => { s with draws := s.draws + 1 }

/-- The answer as a write sees it: an `Ok` carries no bytes (R56, log 20). -/
def writeAnswer : BusAnswer → WriteAnswer
  | .ok _ => .ok
  | .fail => .fail
  | .silent => .silent

/-- `BusWrite(reg, bytes)` (R56): one request to `DEV_ADDR`, never retried, never split. -/
def State.busWrite (s : State) (reg : Byte) (bytes : List Byte) : Ended :=
  let t := s.drawn.emit (.busWrite s.params.devAddr reg bytes (writeAnswer s.nextAnswer))
  match writeAnswer s.nextAnswer with
  | .ok => .done t
  | .fail => .failed t
  | .silent => .hung { t with hung := true }

/-- `BusRead(reg, n)` (R56), followed by what the command does with the bytes of an `Ok` answer. `Fail` raises
`TransportFailure` on the command port (43_driver.md R204, R207); no answer hangs. -/
def State.busRead (s : State) (reg : Byte) (n : Nat) (k : List Byte → State → State) : State :=
  let t := s.drawn.emit (.busRead s.params.devAddr reg n s.nextAnswer)
  match s.nextAnswer with
  | .ok bytes => k bytes t
  | .fail => t.raise .command .transportFailure
  | .silent => { t with hung := true }

/-- `IND_ADDR = CTRL_BASE + 5`, 8-bit wrap (00_scope.md R6). -/
def indAddr (p : Params) : Byte := p.ctrlBase + 5

/-! ### The PWM procedures (42_pwm.md R164, R165, R167) -/

/-- `armTimer(p)` (R164). -/
def State.armTimer (s : State) (p : Nat) : State :=
  { s with pwm := { s.pwm with handle := s.pwm.next, next := s.pwm.next + 1, armed := true } }.emit
    (.timerArm p s.params.timeUnit s.pwm.next)

/-- `cancelTimer()` (R165). -/
def State.cancelTimer (s : State) : State :=
  if s.pwm.armed then { s.emit (.timerCancel s.pwm.handle) with pwm := { s.pwm with armed := false } } else s

/-- `pwmWrite(v)` (R167): the image byte first, and not rolled back. -/
def State.pwmWrite (s : State) (v : Byte) : Ended :=
  { s with img := s.img.write 5 v }.busWrite (indAddr s.params) [v]

/-! ### The next input (00_scope.md R9, 60_exceptions.md R234) -/

/-- The port served when an input waits on both: a free choice. -/
def State.tiePort (s : State) : Port :=
  match s.order with
  | p :: _ => p
  | [] => Config.arbitrate s.draws

/-- The state after a tie was settled. -/
def State.tieSettled (s : State) : State :=
  match s.order with
  | _ :: rest => { s with order := rest }
  | [] => { s with draws := s.draws + 1 }

/-- The input the block takes next, and the state with that input off its queue; `none` when neither port has
one. -/
def State.takeInput (s : State) : Option (Port × Frame × State) :=
  match s.cmdPort, s.timerPort with
  | [], [] => none
  | f :: rest, [] => some (.command, f, { s with cmdPort := rest })
  | [], f :: rest => some (.timer, f, { s with timerPort := rest })
  | c :: cs, t :: ts =>
    match s.tiePort with
    | .command => some (.command, c, { s.tieSettled with cmdPort := cs })
    | .timer => some (.timer, t, { s.tieSettled with timerPort := ts })

/-- An illegal frame is answered `IllegalCommand`, with no other effect (30_encoding.md R88). DESIGN CHOICE (log 23,
unsafe): the answer stands on the port the frame arrived on, a TFIRE on the command port included; no rule names the
port. -/
def State.illegal (s : State) (p : Port) : State := s.raise p .illegalCommand

/-! ### Reset of a running block (70_reset_and_hazards.md R260 to R262) -/

/-- The block is reset: every register at its R40 value, no request issued. What waits at the ports, the coming
answers and the outputs so far are the outside world's and stay. DESIGN CHOICE (log 13, safe). -/
def State.resetBlock (s : State) : State :=
  { s with img := [], rmode := none, cfg := none, pwm := Pwm.reset, hung := false }

end Sys2Proof.Machine
end

