-- ==== Sys2Proof/Machine/Encoder.lean ====
section
/-! DEFINITION. The configuration encoder: the pure encoding functions over an image value, the five encoder commands
that apply them to `IMG`, and the inverse field decoders (40_encoder.md). -/

namespace Sys2Proof.Machine

/-! ### Encoding functions -/

/-- `encAxes(W, A)` (R101) -/
def encAxes (w : Memory) (a : Byte) : Except Status Memory :=
  match axesOf a with
  | none => .error .invalidParameter
  | some axes => .ok (w.setField 0 2 0 axes)

/-- The `LPEN` bit of a mode (30_encoding.md R81). -/
def lpenBit (m : Mode) : Byte := if m = .lp then 1 else 0

/-- The `HR` bit of a mode (R81). -/
def hrBit (m : Mode) : Byte := if m = .hr then 1 else 0

/-- `encRes(W, M)` (R102) -/
def encRes (w : Memory) (m : Byte) : Except Status (Memory × Mode) :=
  match modeOf m with
  | none => .error .invalidParameter
  | some mode => .ok ((w.setField 0 3 3 (lpenBit mode)).setField 3 3 3 (hrBit mode), mode)

/-- `encRate(W, R, m)` (R104): validity first, then compatibility. -/
def encRate (w : Memory) (r : Byte) (m : Option Mode) : Except Status Memory :=
  match rateOf r with
  | none => .error .invalidParameter
  | some rate => if compat rate m then .ok (w.setField 0 7 4 (odrCode rate)) else .error .incompatibleConfiguration

/-- `encRange(W, G)` (R106) -/
def encRange (w : Memory) (g : Byte) : Except Status (Memory × Divisor) :=
  match rangeOf g with
  | none => .error .invalidParameter
  | some range => .ok (w.setField 3 5 4 (fsCode range), divOf range)

/-- `checkUnit(U)` (R108) -/
def checkUnit (u : Byte) : Except Status OutUnit :=
  match unitOf u with
  | none => .error .invalidParameter
  | some un => .ok un

/-! ### Encoder commands (R100): `IMG` and the registers named, no request; on an error no state -/

/-- SETAXES (R101) -/
def execSetAxes (a : Byte) (s : State) : Host.Outcome State Fault Refusal :=
  .next (match encAxes s.img a with
    | .error e => s.raise .command e
    | .ok w => { s with img := w }.respond .command .ok .none)

/-- SETRES (R102) -/
def execSetRes (m : Byte) (s : State) : Host.Outcome State Fault Refusal :=
  .next (match encRes s.img m with
    | .error e => s.raise .command e
    | .ok (w, mode) => { s with img := w, rmode := some mode }.respond .command .ok .none)

/-- SETRATE (R104): checked against `RMODE` as it stands. -/
def execSetRate (r : Byte) (s : State) : Host.Outcome State Fault Refusal :=
  .next (match encRate s.img r s.rmode with
    | .error e => s.raise .command e
    | .ok w => { s with img := w }.respond .command .ok .none)

/-- SETRANGE (R106): answers the divisor, a 16-bit unsigned value, and does not write `CFG`. -/
def execSetRange (g : Byte) (s : State) : Host.Outcome State Fault Refusal :=
  .next (match encRange s.img g with
    | .error e => s.raise .command e
    | .ok (w, d) => { s with img := w }.respond .command .ok (.divisor (BitVec.ofNat 16 (divValue d))))

/-- SETUNIT (R108): pure validation. -/
def execSetUnit (u : Byte) (s : State) : Host.Outcome State Fault Refusal :=
  .next (match checkUnit u with
    | .error e => s.raise .command e
    | .ok _ => s.respond .command .ok .none)

/-! ### Field decoders (R110 to R113); `none` is the spec's `invalid` -/

/-- `decAxes(W)` (R110) -/
def decAxes (w : Memory) : Byte := w.field 0 2 0

/-- `decRate(W, m)` (R111): the rate whose code the image holds and which is legal under `m`. -/
def decRate (w : Memory) (m : Option Mode) : Option Rate :=
  allRates.find? (fun r => odrCode r == w.field 0 7 4 && compat r m)

/-- `decRes(W)` (R112) -/
def decRes (w : Memory) : Option Mode :=
  match (w.field 0 3 3).toNat, (w.field 3 3 3).toNat with
  | 1, 0 => some .lp
  | 0, 0 => some .normal
  | 0, 1 => some .hr
  | _, _ => none

/-- `decRange(W)` (R113): all four codes are valid. -/
def decRange (w : Memory) : Option Range := allRanges.find? (fun g => fsCode g == w.field 3 5 4)

end Sys2Proof.Machine
end

