-- ==== Sys2Proof/Machine/Float.lean ====
section
/-! DEFINITION. Binary64 arithmetic, as far as the sample decoder uses it (41_decoder.md R140): exact numbers of the
form `±mant × 2^exp`, rounding to nearest with ties to even, and multiplication. -/

namespace Sys2Proof.Machine

/-- The exact number `(-1)^neg × mant × 2^exp`. -/
structure Scaled where
  neg  : Bool
  mant : Nat
  exp  : Int
deriving DecidableEq, Repr

/-- `m / 2^k` rounded to an integer, to nearest with ties to even. -/
def rneShift (m k : Nat) : Nat :=
  let q := m / 2 ^ k
  let r := m % 2 ^ k
  if 2 * r < 2 ^ k then q
  else if 2 ^ k < 2 * r then q + 1
  else q + q % 2

/-- The exponent of the last place of the binary64 format for a number of `mant × 2^exp`, `mant ≠ 0`: 52 places
below its leading bit, and not below the subnormal limit -1074. -/
def lastPlace (mant : Nat) (exp : Int) : Int := max ((mant.log2 : Int) + exp - 52) (-1074)

/-- The binary64 magnitude (sign bit clear) nearest `mant × 2^exp`, ties to even; infinity from the overflow bound
on. The sum carries a rounded-up significand into the exponent field. -/
def roundMagnitude (mant : Nat) (exp : Int) : Nat :=
  if mant = 0 then 0
  else
    let q := lastPlace mant exp
    let sig := if exp ≤ q then rneShift mant (q - exp).toNat else mant * 2 ^ (exp - q).toNat
    min ((q + 1074).toNat * 2 ^ 52 + sig) (2047 * 2 ^ 52)

/-- Rounding to binary64, to nearest with ties to even. Zero keeps its sign. -/
def roundF64 (x : Scaled) : F64 :=
  BitVec.ofNat 64 ((if x.neg then 2 ^ 63 else 0) + roundMagnitude x.mant x.exp)

/-- The exact value of a finite binary64 pattern. Its caller applies it to finite patterns only (log 9). -/
def unpackF64 (b : F64) : Scaled :=
  let e : Nat := b.toNat / 2 ^ 52 % 2048
  let f : Nat := b.toNat % 2 ^ 52
  { neg := b.msb, mant := if e = 0 then f else 2 ^ 52 + f, exp := if e = 0 then -1074 else (e : Int) - 1075 }

/-- The exact product. -/
def Scaled.mul (x y : Scaled) : Scaled :=
  { neg := x.neg != y.neg, mant := x.mant * y.mant, exp := x.exp + y.exp }

/-- `toF64` (R140): an exactly representable rational as binary64. -/
def toF64 (x : Scaled) : F64 := roundF64 x

/-- `mulRNE64` (R140): binary64 multiplication of finite operands, one rounding. -/
def mulRNE64 (a b : F64) : F64 := roundF64 ((unpackF64 a).mul (unpackF64 b))

/-- The exact quotient `s / d` of a sample word by a divisor (R140, R141). -/
def quotient (w : BitVec 16) (d : Divisor) : Scaled :=
  { neg := w.msb, mant := w.toInt.natAbs, exp := -(divExponent d : Int) }

end Sys2Proof.Machine
end

