-- ==== Sys2Proof/Machine/Decoder.lean ====
section
/-! DEFINITION. The sample decoder and the DECODE command (41_decoder.md). -/

namespace Sys2Proof.Machine

/-- One lane of `decode` (R140, R143): it reads its own two bytes only. -/
def decodeLane (lo hi : Byte) (d : Divisor) (u : OutUnit) : F64 :=
  match u with
  | .native => toF64 (quotient (leWord lo hi) d)
  | .si => mulRNE64 (toF64 (quotient (leWord lo hi) d)) gSi

/-- `decode(b, d, u)` (R140); a list whose length is not 6 is `InvalidInput` (R146). -/
def decodeSamples (b : List Byte) (d : Divisor) (u : OutUnit) : Except Status (F64 × F64 × F64) :=
  match b with
  | [b0, b1, b2, b3, b4, b5] => .ok (decodeLane b0 b1 d u, decodeLane b2 b3 d u, decodeLane b4 b5 d u)
  | _ => .error .invalidInput

/-- The response that carries the result of `decode`, on the command port (R145, 43_driver.md R204). -/
def State.respondSamples (s : State) (r : Except Status (F64 × F64 × F64)) : State :=
  match r with
  | .ok (x, y, z) => s.respond .command .ok (.samples x y z)
  | .error e => s.raise .command e

/-- DECODE (R145): the range is checked first, then the unit; no state is read or written. -/
def execDecode (g u b0 b1 b2 b3 b4 b5 : Byte) (s : State) : Host.Outcome State Fault Refusal :=
  .next (match rangeOf g with
    | none => s.raise .command .invalidParameter
    | some range =>
      match checkUnit u with
      | .error e => s.raise .command e
      | .ok un => s.respondSamples (decodeSamples [b0, b1, b2, b3, b4, b5] (divOf range) un))

end Sys2Proof.Machine
end

