-- ==== Sys2Proof/Machine/SoftPwm.lean ====
section
/-! DEFINITION. The soft-PWM controller: SETDUTY and TFIRE (42_pwm.md). -/

namespace Sys2Proof.Machine

/-- Arm the next timer after an output write (R166 start path, R168, R171): always after `Ok`, after `Fail` only
under `PWM_FAIL_POLICY = Continue`. -/
def Ended.armAfter (e : Ended) (p : Nat) : Ended :=
  match e with
  | .done s => .done (s.armTimer p)
  | .failed s =>
    match s.params.failPolicy with
    | .continueArming => .failed (s.armTimer p)
    | .halt => .failed s
  | .hung s => .hung s

/-- SETDUTY's first three steps (R166): cancel, then the duty, then the stop flag. -/
def State.loadDuty (s : State) (d : Byte) : State :=
  let t := s.cancelTimer
  { t with pwm := { t.pwm with duty := (clamp (dutyRequest d)).1, stop := (clamp (dutyRequest d)).2 } }

/-- `PWM_PHASE <- p` -/
def State.setPhase (s : State) (p : Phase) : State := { s with pwm := { s.pwm with phase := p } }

/-- The period of a phase (R161): `PWM_MAX - PWM_DUTY` in ON_PHASE, `PWM_DUTY` otherwise. -/
def Pwm.period (w : Pwm) : Nat :=
  match w.phase with
  | .onPhase => pwmMax - w.duty
  | _ => w.duty

/-- The body of SETDUTY (R166), which CONFIGURE runs as its duty step (43_driver.md R200): stop, start, or re-arm the
current phase without rewriting the output. -/
def State.setDutyBody (s : State) (d : Byte) : Ended :=
  let t := s.loadDuty d
  if t.pwm.stop then (t.setPhase .off).pwmWrite 0x00
  else
    match t.pwm.phase with
    | .off => ((t.setPhase .offPhase).pwmWrite 0x00).armAfter t.pwm.duty
    | _ => .done (t.armTimer t.pwm.period)

/-- SETDUTY (R166); illegal where the controller does not exist (30_encoding.md R88(d), R91). -/
def execSetDuty (d : Byte) (s : State) : Host.Outcome State Fault Refusal :=
  .next (if s.params.hasPwm then (s.setDutyBody d).finish .command else s.illegal .command)

/-- The phase transition of an accepted fire (R171), before the re-arm: the phase changes, then the output is
written. -/
def State.togglePhase (s : State) : Ended :=
  match s.pwm.phase with
  | .onPhase => (s.setPhase .offPhase).pwmWrite 0x00
  | _ => (s.setPhase .onPhase).pwmWrite 0xFF

/-- The period armed by an accepted fire (R171): `PWM_DUTY` out of ON_PHASE, `PWM_MAX - PWM_DUTY` otherwise. -/
def Pwm.nextPeriod (w : Pwm) : Nat :=
  match w.phase with
  | .onPhase => w.duty
  | _ => pwmMax - w.duty

/-- The body of an accepted TFIRE (R171); with the stop flag set it does not arm (R172). -/
def State.fireBody (s : State) : Ended :=
  let t := { s with pwm := { s.pwm with armed := false } }
  if t.pwm.stop then t.togglePhase else t.togglePhase.armAfter t.pwm.nextPeriod

/-- TFIRE (R171): a handle that is not the armed one is `Ignored`. Illegal where the controller does not exist
(30_encoding.md R88(d)). -/
def execTfire (h : Byte) (s : State) : Host.Outcome State Fault Refusal :=
  .next (if s.params.hasPwm then
      if s.pwm.armed && h == s.pwm.handle then s.fireBody.finish .timer
      else s.respond .timer .ignored .none
    else s.illegal .timer)

end Sys2Proof.Machine
end

