-- ==== Sys2Proof/Machine/Driver.lean ====
section
/-! DEFINITION. The driver commands CONFIGURE, READ and IDENTIFY (43_driver.md). -/

namespace Sys2Proof.Machine

/-- What CONFIGURE's validation yields: the working copy encoded, the mode, the divisor and the unit. -/
structure Validated where
  img  : Memory
  mode : Mode
  cfg  : ReadCfg
deriving DecidableEq, Repr

/-- CONFIGURE's validation on a working copy (R200), in the fixed order axes, resolution, rate, range, unit (R201).
The rate is checked against the mode resolved here, never against `RMODE`. -/
def validate (w : Memory) (a m r g u : Byte) : Except Status Validated :=
  match encAxes w a with
  | .error e => .error e
  | .ok w1 =>
    match encRes w1 m with
    | .error e => .error e
    | .ok (w2, mode) =>
      match encRate w2 r (some mode) with
      | .error e => .error e
      | .ok w3 =>
        match encRange w3 g with
        | .error e => .error e
        | .ok (w4, d) =>
          match checkUnit u with
          | .error e => .error e
          | .ok un => .ok { img := w4, mode := mode, cfg := { div := d, unit := un } }

/-- CONFIGURE's duty step (R200): the body of SETDUTY, or nothing where the controller does not exist. -/
def State.dutyStep (s : State) (d : Byte) : Ended :=
  if s.params.hasPwm then s.setDutyBody d else .done s

/-- CONFIGURE's write of the whole image, one request of six bytes (R200, R202). -/
def State.writeControlBlock (s : State) : Ended := s.busWrite s.params.ctrlBase s.img.payload

/-- CONFIGURE after validation (R200): commit the image and `RMODE`, duty step, block write, and `CFG` only when all
of it succeeded. -/
def State.applyConfig (s : State) (v : Validated) (d : Byte) : Ended :=
  (({ s with img := v.img, rmode := some v.mode }.dutyStep d).andThen State.writeControlBlock).andThen
    (fun t => .done { t with cfg := some v.cfg })

/-- CONFIGURE (R200) -/
def execConfigure (a m r g u d : Byte) (s : State) : Host.Outcome State Fault Refusal :=
  .next (match validate s.img a m r g u with
    | .error e => s.raise .command e
    | .ok v => (s.applyConfig v d).finish .command)

/-- READ (R204): `NotConfigured` before any request; the answer is decoded with `CFG`, and a wrong length is
`InvalidInput` (R206). -/
def execRead (s : State) : Host.Outcome State Fault Refusal :=
  .next (match s.cfg with
    | none => s.raise .command .notConfigured
    | some c => s.busRead s.params.dataAddr 6 (fun bytes t => t.respondSamples (decodeSamples bytes c.div c.unit)))

/-- The response of IDENTIFY to an `Ok` answer (R206, R207): the byte, compared with nothing (R208). -/
def State.respondId (s : State) (bytes : List Byte) : State :=
  match bytes with
  | [b] => s.respond .command .ok (.id b)
  | _ => s.raise .command .invalidInput

/-- IDENTIFY (R207) -/
def execIdentify (s : State) : Host.Outcome State Fault Refusal :=
  .next (s.busRead s.params.idAddr 1 (fun bytes t => t.respondId bytes))

end Sys2Proof.Machine
end

