-- ==== Sys2Proof/Machine/Dispatch.lean ====
section
/-! DEFINITION. One arm per constructor of Instr, each one call of that instruction's meaning. -/

namespace Sys2Proof.Machine

def exec (i : Instr) (s : State) : Host.Outcome State Fault Refusal :=
  match i with
  | .setAxes a => Sys2Proof.Machine.execSetAxes a s
  | .setRes m => Sys2Proof.Machine.execSetRes m s
  | .setRate r => Sys2Proof.Machine.execSetRate r s
  | .setRange g => Sys2Proof.Machine.execSetRange g s
  | .setUnit u => Sys2Proof.Machine.execSetUnit u s
  | .setDuty d => Sys2Proof.Machine.execSetDuty d s
  | .configure a m r g u d => Sys2Proof.Machine.execConfigure a m r g u d s
  | .read => Sys2Proof.Machine.execRead s
  | .identify => Sys2Proof.Machine.execIdentify s
  | .decode g u b0 b1 b2 b3 b4 b5 => Sys2Proof.Machine.execDecode g u b0 b1 b2 b3 b4 b5 s
  | .tfire h => Sys2Proof.Machine.execTfire h s

end Sys2Proof.Machine
end

