-- ==== Sys2Proof/Machine/Run.lean ====
section
/-! DEFINITION. Running one input, and placing one. -/

namespace Sys2Proof.Machine

/-- Run the frame taken from port `p` to completion (00_scope.md R9): its instruction, or `IllegalCommand`
(30_encoding.md R88). -/
def runFrame (p : Port) (f : Frame) (s : State) : Host.Outcome State Fault Refusal :=
  match decodeOn p f with
  | some i => exec i s
  | none => .next (s.illegal p)

/-- One step of the block: it takes one input and runs it to completion (R9). With nothing waiting it waits
(70_reset_and_hazards.md R261), and a hung block takes no input (R278). -/
def stepOnce (s : State) : Host.Outcome State Fault Refusal :=
  if s.hung then .next s
  else
    match s.takeInput with
    | none => .next s
    | some (p, f, t) => runFrame p f (t.emit (.take p f))

/-- The port a frame is meant for, by its opcode (30_encoding.md R71). -/
def framePort (f : Frame) : Port :=
  match decode f with
  | some i => i.port
  | none => .command

/-- Place a frame first on port `p`, so that the next step takes it: where an input waits on the other port too, the
tie goes to `p`. DESIGN CHOICE (log 22, unsafe of a hung block): a hang is ended without a reset, so that the frame is
taken, although R278 hangs the block for ever. A helper of the host's: no step and no reachable state uses it. -/
def State.placeFrame (s : State) (p : Port) (f : Frame) : State :=
  match p with
  | .command =>
    { s with hung := false, cmdPort := f :: s.cmdPort,
             order := if s.timerPort = [] then s.order else .command :: s.order }
  | .timer =>
    { s with hung := false, timerPort := f :: s.timerPort,
             order := if s.cmdPort = [] then s.order else .timer :: s.order }

end Sys2Proof.Machine
end

