-- ==== Sys2Proof/Machine/Step.lean ====
section
/-! DEFINITION. The step, and the placing of one instruction where the step takes its next. -/

namespace Sys2Proof.Machine

/-- One step (00_scope.md R9). -/
def step (s : State) : Host.Outcome State Fault Refusal := stepOnce s

/-- `s` with the instruction of bits `w` placed first on the port that carries it (log 1), and a hang ended (DESIGN
CHOICE, log 22). -/
def State.withFetchWord (s : State) (nbits w : Nat) : State :=
  s.placeFrame (framePort (tableFrame nbits w)) (tableFrame nbits w)

end Sys2Proof.Machine
end

