-- ==== Sys2Proof/Machine/Assembler.lean ====
section
/-! DEFINITION. The assembly syntax and the pseudo-instructions (30_encoding.md R92, R93). Details the rule leaves
open (spaces, repeated axis letters, number ranges) are DESIGN CHOICE (log 16, safe). -/

namespace Sys2Proof.Machine

/-- The value of a digit in base 10 or 16. -/
def digitOf (base : Nat) (c : Char) : Option Nat :=
  let n := c.toNat
  let v := if 48 ≤ n && n ≤ 57 then n - 48 else if 65 ≤ n && n ≤ 70 then n - 55 else
    if 97 ≤ n && n ≤ 102 then n - 87 else 16
  if v < base then some v else none

/-- A string of digits as a number, `acc` being the value so far. -/
def digitsFrom (base : Nat) : Nat → List Char → Option Nat
  | acc, [] => some acc
  | acc, c :: cs =>
    match digitOf base c with
    | some v => digitsFrom base (acc * base + v) cs
    | none => none

/-- A decimal or `0x` hexadecimal number (R92). -/
def parseNat (cs : List Char) : Option Nat :=
  match cs with
  | [] => none
  | '0' :: 'x' :: [] => none
  | '0' :: 'x' :: hs => digitsFrom 16 0 hs
  | _ => digitsFrom 10 0 cs

/-- A number from 0 to 255 as a byte: a handle, a raw byte, or the `n` of `#n` (R92). -/
def parseByte (cs : List Char) : Option Byte :=
  match parseNat cs with
  | some n => if n < 256 then some (BitVec.ofNat 8 n) else none
  | none => none

/-- A duty: a number from -128 to 127 (R92, R79). -/
def parseDuty (cs : List Char) : Option Byte :=
  match cs with
  | '-' :: ds =>
    match parseNat ds with
    | some n => if n ≤ 128 then some (BitVec.ofInt 8 (-(n : Int))) else none
    | none => none
  | _ =>
    match parseNat cs with
    | some n => if n ≤ 127 then some (BitVec.ofNat 8 n) else none
    | none => none

/-- The letters `X`, `Y` and `Z`, in any order, as a mask (R92, R74). -/
def parseAxisLetters : List Char → Option Byte
  | [] => some 0
  | c :: cs =>
    match parseAxisLetters cs with
    | none => none
    | some m =>
      match c with
      | 'X' => some (m ||| 1)
      | 'Y' => some (m ||| 2)
      | 'Z' => some (m ||| 4)
      | _ => none

/-- A name of a table, or `#n` for the raw byte (R92). -/
def parseToken (names : List (String × Byte)) (cs : List Char) : Option Byte :=
  match cs with
  | '#' :: ds => parseByte ds
  | _ => names.findSome? (fun p => if p.1.toList = cs then some p.2 else none)

/-- The axes operand: letters, `-` for the empty set, or `#n` (R92). -/
def parseAxes (cs : List Char) : Option Byte :=
  match cs with
  | [] => none
  | ['-'] => some 0
  | '#' :: ds => parseByte ds
  | _ => parseAxisLetters cs

/-- The mode names (R92, R75). -/
def modeNames : List (String × Byte) := [("LP", 0), ("NORMAL", 1), ("HR", 2)]

/-- The rate names (R92, R82). -/
def rateNames : List (String × Byte) :=
  [("PD", 0), ("1HZ", 1), ("10HZ", 2), ("25HZ", 3), ("50HZ", 4), ("100HZ", 5), ("200HZ", 6), ("400HZ", 7),
   ("1620HZ", 8), ("1344HZ", 9), ("5376HZ", 10)]

/-- The range names (R92, R77). -/
def rangeNames : List (String × Byte) := [("2G", 0), ("4G", 1), ("8G", 2), ("16G", 3)]

/-- The unit names (R92, R78). -/
def unitNames : List (String × Byte) := [("G", 0), ("SI", 1)]

/-- `cs` without its leading spaces. -/
def dropSpaces : List Char → List Char
  | ' ' :: cs => dropSpaces cs
  | cs => cs

/-- `cs` without leading and trailing spaces. -/
def trim (cs : List Char) : List Char := (dropSpaces (dropSpaces cs).reverse).reverse

/-- The pieces of a line between commas, each trimmed, `cur` being the reversed piece so far. -/
def splitCommas : List Char → List Char → List (List Char)
  | cur, [] => [trim cur.reverse]
  | cur, ',' :: cs => trim cur.reverse :: splitCommas [] cs
  | cur, c :: cs => splitCommas (c :: cur) cs

/-- The word before the first space, and what follows it. -/
def splitWord : List Char → List Char × List Char
  | [] => ([], [])
  | ' ' :: cs => ([], cs)
  | c :: cs => (c :: (splitWord cs).1, (splitWord cs).2)

/-- The operands of a line: none, or the pieces between commas. -/
def operandPieces (cs : List Char) : List (List Char) :=
  if trim cs = [] then [] else splitCommas [] cs

/-- The command a mnemonic and its operand pieces stand for (R92), the pseudo-instructions of R93 included. -/
def assembleParts (mnemonic : String) (ops : List (List Char)) : Option Instr :=
  match mnemonic, ops with
  | "SETAXES", [a] => (parseAxes a).map .setAxes
  | "SETRES", [m] => (parseToken modeNames m).map .setRes
  | "SETRATE", [r] => (parseToken rateNames r).map .setRate
  | "SETRANGE", [g] => (parseToken rangeNames g).map .setRange
  | "SETUNIT", [u] => (parseToken unitNames u).map .setUnit
  | "SETDUTY", [d] => (parseDuty d).map .setDuty
  | "CONFIGURE", [a, m, r, g, u, d] =>
    (parseAxes a).bind fun a' => (parseToken modeNames m).bind fun m' => (parseToken rateNames r).bind fun r' =>
      (parseToken rangeNames g).bind fun g' => (parseToken unitNames u).bind fun u' =>
        (parseDuty d).map fun d' => .configure a' m' r' g' u' d'
  | "READ", [] => some .read
  | "IDENTIFY", [] => some .identify
  | "DECODE", [g, u, b0, b1, b2, b3, b4, b5] =>
    (parseToken rangeNames g).bind fun g' => (parseToken unitNames u).bind fun u' =>
      (parseByte b0).bind fun c0 => (parseByte b1).bind fun c1 => (parseByte b2).bind fun c2 =>
        (parseByte b3).bind fun c3 => (parseByte b4).bind fun c4 =>
          (parseByte b5).map fun c5 => .decode g' u' c0 c1 c2 c3 c4 c5
  | "TFIRE", [h] => (parseByte h).map .tfire
  | "BLOFF", [] => some (.setDuty 0)
  | "AXESALL", [] => some (.setAxes 7)
  | "AXESNONE", [] => some (.setAxes 0)
  | _, _ => none

/-- The command a line of assembly stands for; `none` for a line that is not of the syntax (R92). -/
def assemble (line : String) : Option Instr :=
  let parts := splitWord (dropSpaces line.toList)
  assembleParts (String.ofList parts.1) (operandPieces parts.2)

end Sys2Proof.Machine
end

