-- ==== Sys2Proof/Safety.lean ====
section
/-! DEFINITION. The terms claims are stated in: what a step leaves alone, what the outside world can tell from the
outputs (10_state.md R36), the invariants of the block (R31, R21 to R24, R32, R81) and which states are reachable. -/

namespace Sys2Proof.Machine

/-! ### What stays -/

/-- Every register of R40 is unchanged. -/
def KeepsRegisters (s t : State) : Prop :=
  t.img = s.img ∧ t.rmode = s.rmode ∧ t.cfg = s.cfg ∧ t.pwm = s.pwm

/-- Nothing waiting outside and no parameter is changed, no answer is drawn, and the block is hung or not as
before. -/
def KeepsOutside (s t : State) : Prop :=
  t.params = s.params ∧ t.hung = s.hung ∧ t.cmdPort = s.cmdPort ∧ t.timerPort = s.timerPort ∧ t.order = s.order ∧
    t.answers = s.answers ∧ t.draws = s.draws

/-- What only the taking of an input changes: ports, parameters and ties stay; answers may be drawn. -/
def KeepsPorts (s t : State) : Prop :=
  t.params = s.params ∧ t.cmdPort = s.cmdPort ∧ t.timerPort = s.timerPort ∧ t.order = s.order

/-- The whole of the image but byte `i` is unchanged. -/
def KeepsImageBut (i : Nat) (s t : State) : Prop := ∀ j, j ≠ i → t.img.read j = s.img.read j

/-- Exactly one answer was drawn from the transport between `s` and `t`. -/
def DrawsOne (s t : State) : Prop := t.answers = s.drawn.answers ∧ t.draws = s.drawn.draws

/-- No answer was drawn between `s` and `t`. -/
def DrawsNone (s t : State) : Prop := t.answers = s.answers ∧ t.draws = s.draws

/-- The outputs of `t` are those of `s` followed by `es`. -/
def Outputs (s t : State) (es : List Event) : Prop := t.trace = s.trace ++ es

/-- The answer the next bus write gets. -/
def nextWrite (s : State) : WriteAnswer := writeAnswer s.nextAnswer

/-- The request `cancelTimer` issues (42_pwm.md R165). -/
def cancelEvents (s : State) : List Event := if s.pwm.armed then [.timerCancel s.pwm.handle] else []

/-- Run instructions one after the other. -/
def execAll : List Instr → State → Host.Outcome State Fault Refusal
  | [], s => .next s
  | i :: is, s =>
    match exec i s with
    | .next t => execAll is t
    | .fault r => .fault r
    | .refused r => .refused r

/-- The frames 30_encoding.md R88 calls illegal: (a) a reserved opcode, (b) a wrong length or the empty frame, (c) the
wrong port, (d) a PWM opcode without the controller. -/
def IllegalFrame (p : Port) (f : Frame) (hasPwm : Bool) : Prop :=
  match f with
  | [] => True
  | op :: args =>
    op = 0x00 ∨ 0x0C ≤ op.toNat ∨ args.length + 1 ≠ frameLength op ∨ (op = 0x0B ∧ p = .command) ∨
      (op ≠ 0x0B ∧ p = .timer) ∨ (hasPwm = false ∧ (op = 0x06 ∨ op = 0x0B))

/-- The four encoder commands that write the image (40_encoder.md R109). -/
def isImageEncoder : Instr → Bool
  | .setAxes _ => true
  | .setRes _ => true
  | .setRate _ => true
  | .setRange _ => true
  | _ => false

/-- SETRES or SETRATE: as a pair they do not commute (R109). -/
def isModeOrRate : Instr → Bool
  | .setRes _ => true
  | .setRate _ => true
  | _ => false

/-- Rate token `r` is legal under `m` (40_encoder.md R103). -/
abbrev RateLegal (r : Byte) (m : Option Mode) : Prop :=
  if r = 8 ∨ r = 10 then m = some .lp
  else if r = 9 then m = some .normal ∨ m = some .hr
  else True

/-- The mode a mode token names (30_encoding.md R75). -/
def tokenMode (m : Byte) : Mode := if m = 0 then .lp else if m = 1 then .normal else .hr

/-- The rate code a rate token names (R82): tokens 9 and 10 share 1001. -/
def tokenCode (r : Byte) : Byte := if r = 10 then 9 else r

/-- The divisor a range token names (R83). -/
def tokenDivisor (g : Byte) : Divisor := if g = 0 then .d16384 else if g = 1 then .d8192 else if g = 2 then .d4096 else .d1024

/-- The unit a unit token names (R78). -/
def tokenUnit (u : Byte) : OutUnit := if u = 0 then .native else .si

/-- Every token of a CONFIGURE is valid and the rate is legal under its mode. -/
def ConfigureValid (a m r g u : Byte) : Prop :=
  a.toNat < 8 ∧ m.toNat ≤ 2 ∧ r.toNat ≤ 10 ∧ RateLegal r (some (tokenMode m)) ∧ g.toNat ≤ 3 ∧ u.toNat ≤ 1

/-- SETDUTY's body writes the output: it stops, or it starts from OFF (42_pwm.md R166). -/
def dutyWrites (d : Byte) (s : State) : Prop := d.toInt ≤ 0 ∨ 10 ≤ d.toInt ∨ s.pwm.phase = .off

/-- Each write a valid CONFIGURE issues is answered `Ok` (43_driver.md R200): one write, or two where the duty step
writes too. -/
def ConfigureWritesOk (d : Byte) (s : State) : Prop :=
  nextWrite s = .ok ∧ (s.params.hasPwm = true → dutyWrites d s → nextWrite s.drawn = .ok)

/-- `e` is the status of the first of CONFIGURE's checks that fails, in the order of 43_driver.md R201. -/
def ConfigureError (a m r g u : Byte) (e : Status) : Prop :=
  if 8 ≤ a.toNat then e = .invalidParameter
  else if 2 < m.toNat then e = .invalidParameter
  else if 10 < r.toNat then e = .invalidParameter
  else if ¬ RateLegal r (some (tokenMode m)) then e = .incompatibleConfiguration
  else if 3 < g.toNat then e = .invalidParameter
  else if 1 < u.toNat then e = .invalidParameter
  else False

/-- The state CONFIGURE's duty step starts from (43_driver.md R200): `w` and the mode committed. -/
def State.committed (s : State) (w : Memory) (m : Mode) : State := { s with img := w, rmode := some m }

/-- `w` is the image `v` with CONFIGURE's operands encoded (43_driver.md R202): byte 0 whole, `FS` and `HR` of byte 3,
nothing else. -/
def EncodesConfig (v w : Memory) (a m r g : Byte) : Prop :=
  w.field 0 2 0 = a ∧ w.field 0 3 3 = (if m = 0 then 1 else 0) ∧ w.field 0 7 4 = tokenCode r ∧
    w.field 3 5 4 = g ∧ w.field 3 3 3 = (if m = 2 then 1 else 0) ∧
    w.field 3 2 0 = v.field 3 2 0 ∧ w.field 3 7 6 = v.field 3 7 6 ∧
    ∀ j, j ≠ 0 → j ≠ 3 → j ≠ 5 → w.read j = v.read j

/-! ### Which command writes what (10_state.md R34) -/

/-- The commands with a `w` in the row `RMODE`. -/
def mayWriteMode : Instr → Bool
  | .setRes _ => true
  | .configure .. => true
  | _ => false

/-- The commands with a `w` in the rows `IMG[5]` and `PWM_*`. -/
def mayWritePwm : Instr → Bool
  | .setDuty _ => true
  | .configure .. => true
  | .tfire _ => true
  | _ => false

/-- The commands with a `w` in the row `CFG`. -/
def mayWriteCfg : Instr → Bool
  | .configure .. => true
  | _ => false

/-- The commands with a `w` in the row of field `[hi:lo]` of byte `i`, for the five rows of the encoder fields. -/
def mayWriteField (i hi lo : Nat) : Instr → Bool
  | .setAxes _ => (i, hi, lo) == (0, 2, 0)
  | .setRes _ => (i, hi, lo) == (0, 3, 3) || (i, hi, lo) == (3, 3, 3)
  | .setRate _ => (i, hi, lo) == (0, 7, 4)
  | .setRange _ => (i, hi, lo) == (3, 5, 4)
  | .configure .. => true
  | _ => false

/-- The encoder fields of the image (30_encoding.md R80): byte, high bit, low bit. -/
def encoderFields : List (Nat × Nat × Nat) := [(0, 2, 0), (0, 3, 3), (0, 7, 4), (3, 3, 3), (3, 5, 4)]

/-! ### What the outside world can tell (10_state.md R36) -/

/-- What one output tells of the last write: R36(a). -/
def lastWriteStep (b : Bool) : Event → Bool
  | .busWrite _ _ _ .ok => true
  | .busWrite .. => false
  | _ => b

/-- R36(a): the last bus write, if any, was answered `Ok`; otherwise the image is out of sync with the device. -/
def lastWriteOk (es : List Event) : Bool := es.foldl lastWriteStep true

/-- What one output does to the requests outstanding at the collaborator (42_pwm.md R163): an arm adds its handle, a
cancel and the delivery of `TFIRE h` remove it. -/
def outstandingStep (hs : List Byte) : Event → List Byte
  | .timerArm _ _ h => hs ++ [h]
  | .timerCancel h => hs.filter (· != h)
  | .take .timer [op, h] => if op = 0x0B then hs.filter (· != h) else hs
  | _ => hs

/-- R36(b): the handles of the timer requests outstanding at the collaborator. -/
def outstanding (es : List Event) : List Byte := es.foldl outstandingStep []

/-- What one output tells of the indicator level: a successful one-byte write, or byte 5 of a successful block
write. -/
def indicatorStep (l : Option Byte) : Event → Option Byte
  | .busWrite _ _ [v] .ok => some v
  | .busWrite _ _ [_, _, _, _, _, v] .ok => some v
  | _ => l

/-- R36(c): the last byte successfully written to `IND_ADDR` or to `CTRL_BASE + 5`. -/
def indicatorLevel (es : List Event) : Option Byte := es.foldl indicatorStep none

/-- An indicator write of the PWM path (one byte, 20_memory.md R51) that was answered `Fail`. DESIGN CHOICE (log 24,
safe): one that failed before a later reset of the running block counts too, since the record of outputs survives it. -/
def pwmWriteFailed (es : List Event) : Bool :=
  es.any (fun e => match e with
    | .busWrite _ _ [_] .fail => true
    | _ => false)

/-- The status of the last output, when that is a response. -/
def lastStatus (s : State) : Option Status :=
  match s.trace.getLast? with
  | some (.respond _ st _) => some st
  | _ => none

/-- The event is a request to the bus or to the timer. -/
def isRequest : Event → Bool
  | .busWrite .. => true
  | .busRead .. => true
  | .timerArm .. => true
  | .timerCancel .. => true
  | _ => false

/-- The four kinds of bus access, with their addresses, widths and indicator values (20_memory.md R51, R56); timer
periods of 1 to 9 time units (60_exceptions.md R240). -/
def AllowedRequest (p : Params) : Event → Prop
  | .busWrite dev reg bytes _ =>
    dev = p.devAddr ∧ ((reg = p.ctrlBase ∧ bytes.length = 6) ∨
      (reg = p.ctrlBase + 5 ∧ (bytes = [0x00] ∨ bytes = [0xFF])))
  | .busRead dev reg n _ => dev = p.devAddr ∧ ((reg = p.dataAddr ∧ n = 6) ∨ (reg = p.idAddr ∧ n = 1))
  | .timerArm n u _ => 1 ≤ n ∧ n ≤ 9 ∧ u = p.timeUnit
  | _ => True

/-! ### Invariants -/

/-- The PWM invariants (10_state.md R31 (a) to (e)). A block that hangs has stopped inside an input, where (d)
does not speak (log 4); and (d) is not claimed after a failed write of before a reset (log 24). -/
structure PwmInv (s : State) : Prop where
  armed_running  : s.pwm.armed = true → s.pwm.stop = false ∧ s.pwm.phase ≠ .off
  stopped        : s.pwm.stop = true → (s.pwm.duty = 0 ∨ s.pwm.duty = 10) ∧ s.pwm.phase = .off ∧ s.pwm.armed = false
  running_duty   : s.pwm.stop = false → 1 ≤ s.pwm.duty ∧ s.pwm.duty ≤ 9
  running_armed  : s.hung = false → pwmWriteFailed s.trace = false → s.pwm.phase ≠ .off → s.pwm.armed = true
  indicator_on   : s.pwm.phase = .onPhase → s.img.read 5 = 0xFF
  indicator_off  : s.pwm.phase ≠ .onPhase → s.img.read 5 = 0x00

/-- What the image holds in every reachable state: its canonical form; bytes 1, 2, 4 and every bit no field owns are
0 (10_state.md R21, 43_driver.md R202); the resolution bits are those of `RMODE` and never both set (30_encoding.md
R81); the rate code is one the table has (R82), and an unrestricted one while no mode is resolved (40_encoder.md
R103). -/
structure ImageInv (s : State) : Prop where
  canonical      : s.img.wf = true
  unused_bytes   : s.img.read 1 = 0x00 ∧ s.img.read 2 = 0x00 ∧ s.img.read 4 = 0x00
  unowned_bits   : s.img.field 3 2 0 = 0 ∧ s.img.field 3 7 6 = 0
  mode_bits      : decRes s.img = some (s.rmode.getD .normal)
  rate_code      : (s.img.field 0 7 4).toNat ≤ 9
  rate_unresolved : s.rmode = none → (s.img.field 0 7 4).toNat ≤ 7

/-- Where the controller does not exist, its registers and the indicator byte stay at reset (10_state.md R32). -/
def NoPwmInv (s : State) : Prop := s.params.hasPwm = false → s.pwm = Pwm.reset ∧ s.img.read 5 = 0x00

/-- Exactly the armed request is outstanding at the timer collaborator (10_state.md R29, 60_exceptions.md R240). -/
def TimerInv (s : State) : Prop := outstanding s.trace = if s.pwm.armed then [s.pwm.handle] else []

/-- While the image is in sync with the device, the indicator level at the device, if the block ever set it, is
`IMG[5]`, and before that `IMG[5]` is 0x00 (10_state.md R36). -/
def IndicatorInv (s : State) : Prop :=
  lastWriteOk s.trace = true →
    indicatorLevel s.trace = some (s.img.read 5) ∨ (indicatorLevel s.trace = none ∧ s.img.read 5 = 0x00)

/-- The states the block can be in: it is reset, it steps, the outside world changes what waits at the ports and
what the coming answers and ties are, or it resets the block. -/
inductive Reachable : State → Prop where
  | reset (p : Params) : Reachable (State.resetWith p)
  | step {s t : State} (h : Reachable s) (e : step s = .next t) : Reachable t
  | outside {s : State} (h : Reachable s) (c t : List Frame) (o : List Port) (a : List BusAnswer) :
      Reachable { s with cmdPort := c, timerPort := t, order := o, answers := a }
  | resetBlock {s : State} (h : Reachable s) : Reachable s.resetBlock

/-! ### The value of a binary64 pattern -/

/-- The rational number `±mant × 2^exp`. -/
def Scaled.toRat (x : Scaled) : ℚ := (if x.neg then -1 else 1) * (x.mant : ℚ) * (2 : ℚ) ^ x.exp

/-- The value of a finite binary64 pattern. -/
def f64Value (b : F64) : ℚ := (unpackF64 b).toRat

/-- The pattern is finite: its exponent field is not all ones. -/
def f64Finite (b : F64) : Bool := b.toNat / 2 ^ 52 % 2048 < 2047

/-- The pattern is subnormal: exponent field 0, significand not 0. -/
def f64Subnormal (b : F64) : Bool := b.toNat / 2 ^ 52 % 2048 == 0 && b.toNat % 2 ^ 52 != 0

end Sys2Proof.Machine
end

