-- ==== Sys2Proof/Certificates/Slice0/Obligations.lean ====
section
/-! DEFINITION. The statements about the model, for the provers. Each docstring names the rule of spec/ it rests
on. A bus answer is a free value: every statement holds for each answer, whether it stands in the state or comes
from the oracle. -/

open Sys2Proof Sys2Proof.Machine

/-! ### Encoding -/

/-- R70, R72, R86: the decoder gives back every instruction, with every operand value, and a frame it accepts is
that instruction's only frame. -/
def Obligations.DecodeEncodeAgree : Prop :=
  (∀ i : Instr, decodeOn i.port (encode i) = some i) ∧
    (∀ (f : Frame) (i : Instr), decode f = some i → encode i = f)

/-- R87: the frame length is a function of byte 0 alone. -/
def Obligations.FrameLengthByOpcode : Prop :=
  (∀ op : Byte, frameLength op =
    if op = 0x08 ∨ op = 0x09 then 1
    else if (1 ≤ op.toNat ∧ op.toNat ≤ 6) ∨ op = 0x0B then 2
    else if op = 0x07 then 7 else if op = 0x0A then 9 else 1) ∧
  (∀ (f : Frame) (i : Instr), decode f = some i → f.length = frameLength (opcodeOf i) ∧ f.head? = some (opcodeOf i))

/-- R88 (a), (b), (c): exactly the illegal frames are no instruction on the port they arrive on. -/
def Obligations.IllegalFramesAreNotDecoded : Prop :=
  ∀ (p : Port) (f : Frame), decodeOn p f = none ↔ IllegalFrame p f true

/-- R88, R90, R91: an illegal frame is answered `IllegalCommand`, with no other effect. That the answer stands on the
port the frame came on is the model's choice (log 23). -/
def Obligations.IllegalFramesAnswered : Prop :=
  ∀ (p : Port) (f : Frame) (s : State), IllegalFrame p f s.params.hasPwm →
    ∃ t, runFrame p f s = .next t ∧ KeepsRegisters s t ∧ KeepsOutside s t ∧
      Outputs s t [.respond p .illegalCommand .none]

/-- R86, R72: words written out from the encoding strings of the table. -/
def Obligations.SpecFramesDecode : Prop :=
  decodeOn .command [0b00000001, 0b00000101] = some (.setAxes 5) ∧
  decodeOn .command [0b00000011, 0b00001010] = some (.setRate 10) ∧
  decodeOn .command [0b00000110, 0b11111101] = some (.setDuty 0xFD) ∧
  decodeOn .command [0b00000111, 0x07, 0x01, 0x05, 0x00, 0x00, 0x05] = some (.configure 7 1 5 0 0 5) ∧
  decodeOn .command [0b00001000] = some .read ∧
  decodeOn .command [0b00001010, 0x00, 0x01, 0x00, 0x40, 0, 0, 0, 0] = some (.decode 0 1 0 0x40 0 0 0 0) ∧
  decodeOn .timer [0b00001011, 0b00000011] = some (.tfire 3)

/-- R93: each pseudo-instruction expands to exactly one command. -/
def Obligations.PseudoInstructionsExpand : Prop :=
  assemble "BLOFF" = assemble "SETDUTY 0" ∧ assemble "SETDUTY 0" = some (.setDuty 0) ∧
  assemble "AXESALL" = assemble "SETAXES XYZ" ∧ assemble "SETAXES XYZ" = some (.setAxes 7) ∧
  assemble "AXESNONE" = assemble "SETAXES -" ∧ assemble "SETAXES -" = some (.setAxes 0)

/-! ### The step -/

/-- R9: the block takes one waiting input and runs its instruction. The `take` record is the model's own (log 6). -/
def Obligations.StepRunsDecodedInstruction : Prop :=
  ∀ (s : State) (f : Frame) (rest : List Frame) (i : Instr), s.hung = false →
    (s.cmdPort = f :: rest → decodeOn .command f = some i →
      (s.timerPort = [] → step s = exec i ({ s with cmdPort := rest }.emit (.take .command f))) ∧
      (s.timerPort ≠ [] → s.tiePort = .command →
        step s = exec i ({ s.tieSettled with cmdPort := rest }.emit (.take .command f)))) ∧
    (s.timerPort = f :: rest → decodeOn .timer f = some i →
      (s.cmdPort = [] → step s = exec i ({ s with timerPort := rest }.emit (.take .timer f))) ∧
      (s.cmdPort ≠ [] → s.tiePort = .timer →
        step s = exec i ({ s.tieSettled with timerPort := rest }.emit (.take .timer f))))

/-- R9, R88: an input that is no instruction on its port is taken all the same and answered `IllegalCommand`, on that
port by the model's choice (log 23). -/
def Obligations.StepAnswersIllegalFrame : Prop :=
  ∀ (s : State) (p : Port) (f : Frame) (u : State), s.hung = false → s.takeInput = some (p, f, u) →
    IllegalFrame p f s.params.hasPwm →
    ∃ t, step s = .next t ∧ KeepsRegisters s t ∧ KeepsOutside u t ∧
      Outputs s t [.take p f, .respond p .illegalCommand .none]

/-- R234: when an input waits on each port, the step takes the head of one of them, and either is possible. -/
def Obligations.TieAdmitsBothOrders : Prop :=
  ∀ (s : State) (c e : Frame) (cs es : List Frame), s.hung = false → s.cmdPort = c :: cs → s.timerPort = e :: es →
    (step s = runFrame .command c ({ s.tieSettled with cmdPort := cs }.emit (.take .command c)) ∨
      step s = runFrame .timer e ({ s.tieSettled with timerPort := es }.emit (.take .timer e))) ∧
    step { s with order := .command :: s.order } = runFrame .command c ({ s with cmdPort := cs }.emit (.take .command c)) ∧
    step { s with order := .timer :: s.order } = runFrame .timer e ({ s with timerPort := es }.emit (.take .timer e))

/-- R261, R278: with nothing waiting the block waits, and a hung block takes no input, ever. -/
def Obligations.WaitsWithoutInputAndHangsForEver : Prop :=
  (∀ s : State, s.cmdPort = [] → s.timerPort = [] → step s = .next s) ∧
  (∀ (k : Nat) (s : State), s.hung = true → Host.Core.run core k s = .next s)

/-- R235: every input ends; the block has no trap and no stop. -/
def Obligations.StepNeverStops : Prop :=
  ∀ s : State, ∃ t, step s = .next t

/-- R9, R230, R231, R233: an input that is taken ends with exactly one response, its requests before it, and no data
unless the status is `OK`; or, where a request is never answered (R278), with none. The port of an illegal frame's
response is the model's choice (log 23). -/
def Obligations.OneResponsePerInput : Prop :=
  ∀ (s u t : State) (p : Port) (f : Frame), s.hung = false → s.takeInput = some (p, f, u) → step s = .next t →
    ∃ es : List Event, (∀ e ∈ es, isRequest e = true) ∧
      ((t.hung = false ∧ ∃ st d, t.trace = s.trace ++ .take p f :: es ++ [.respond p st d] ∧ (st ≠ .ok → d = .none)) ∨
        (t.hung = true ∧ es ≠ [] ∧ t.trace = s.trace ++ .take p f :: es))

/-- R232, R89, R100: what stays after each error status but `TransportFailure`. The port of an `IllegalCommand` is the
model's choice (log 23). -/
def Obligations.ErrorsLeaveNothing : Prop :=
  ∀ (i : Instr) (s t : State), exec i s = .next t → ∀ st, lastStatus t = some st →
    (st = .invalidParameter ∨ st = .incompatibleConfiguration ∨ st = .illegalCommand ∨ st = .notConfigured ∨
      st = .ignored → KeepsRegisters s t ∧ KeepsOutside s t ∧ Outputs s t [.respond i.port st .none]) ∧
    (st = .invalidInput → KeepsRegisters s t ∧ KeepsPorts s t ∧ DrawsOne s t ∧
      ∃ dev reg n a, Outputs s t [.busRead dev reg n a, .respond i.port st .none])

/-- R51, R56, R161, R240: in a state that meets the PWM invariants, a step issues only the four kinds of bus access,
each at its address and width, and arms only periods of 1 to 9 time units. -/
def Obligations.StepIssuesAllowedRequests : Prop :=
  ∀ s t : State, PwmInv s → step s = .next t →
    ∃ es, Outputs s t es ∧ ∀ e ∈ es, AllowedRequest s.params e

/-! ### Reset -/

/-- R40, R260: every register after reset, on any platform, and after a reset of a running block, which issues no
request. -/
def Obligations.ResetValues : Prop :=
  (∀ p : Params, (∀ i, (State.resetWith p).img.read i = 0x00) ∧ (State.resetWith p).rmode = none ∧
    (State.resetWith p).cfg = none ∧ (State.resetWith p).pwm =
      { duty := 0, phase := .off, stop := true, armed := false, handle := 0x00, next := 0x00 } ∧
    (State.resetWith p).trace = []) ∧
  (∀ s : State, KeepsRegisters (State.resetWith s.params) s.resetBlock ∧ Outputs s s.resetBlock [])

/-- R262: after a reset, a fire of a request from before the reset is `Ignored`. -/
def Obligations.PreResetFireIgnored : Prop :=
  ∀ (s : State) (h : Byte), s.params.hasPwm = true →
    ∃ t, exec (.tfire h) s.resetBlock = .next t ∧ KeepsRegisters s.resetBlock t ∧ KeepsOutside s.resetBlock t ∧
      Outputs s t [.respond .timer .ignored .none]

/-! ### Encoder commands -/

/-- R101: SETAXES. -/
def Obligations.SetAxesEffect : Prop :=
  ∀ (a : Byte) (s : State), encode (.setAxes a) = [0x01, a] ∧
    (a.toNat < 8 → ∃ t, exec (.setAxes a) s = .next t ∧
      t.img.field 0 2 0 = a ∧ t.img.field 0 7 3 = s.img.field 0 7 3 ∧ KeepsImageBut 0 s t ∧
      t.rmode = s.rmode ∧ t.cfg = s.cfg ∧ t.pwm = s.pwm ∧ KeepsOutside s t ∧
      Outputs s t [.respond .command .ok .none]) ∧
    (8 ≤ a.toNat → ∃ t, exec (.setAxes a) s = .next t ∧ KeepsRegisters s t ∧ KeepsOutside s t ∧
      Outputs s t [.respond .command .invalidParameter .none])

/-- R102, R75, R81: SETRES. -/
def Obligations.SetResEffect : Prop :=
  ∀ (m : Byte) (s : State), encode (.setRes m) = [0x02, m] ∧
    (m.toNat ≤ 2 → ∃ t, exec (.setRes m) s = .next t ∧
      t.img.field 0 3 3 = (if m = 0 then 1 else 0) ∧ t.img.field 3 3 3 = (if m = 2 then 1 else 0) ∧
      t.rmode = some (if m = 0 then .lp else if m = 1 then .normal else .hr) ∧
      t.img.field 0 2 0 = s.img.field 0 2 0 ∧ t.img.field 0 7 4 = s.img.field 0 7 4 ∧
      t.img.field 3 2 0 = s.img.field 3 2 0 ∧ t.img.field 3 7 4 = s.img.field 3 7 4 ∧
      (∀ j, j ≠ 0 → j ≠ 3 → t.img.read j = s.img.read j) ∧
      t.cfg = s.cfg ∧ t.pwm = s.pwm ∧ KeepsOutside s t ∧ Outputs s t [.respond .command .ok .none]) ∧
    (2 < m.toNat → ∃ t, exec (.setRes m) s = .next t ∧ KeepsRegisters s t ∧ KeepsOutside s t ∧
      Outputs s t [.respond .command .invalidParameter .none])

/-- R104, R103, R82: SETRATE. -/
def Obligations.SetRateEffect : Prop :=
  ∀ (r : Byte) (s : State), encode (.setRate r) = [0x03, r] ∧
    (r.toNat ≤ 10 → RateLegal r s.rmode → ∃ t, exec (.setRate r) s = .next t ∧
      t.img.field 0 7 4 = (if r = 10 then 9 else r) ∧ t.img.field 0 3 0 = s.img.field 0 3 0 ∧ KeepsImageBut 0 s t ∧
      t.rmode = s.rmode ∧ t.cfg = s.cfg ∧ t.pwm = s.pwm ∧ KeepsOutside s t ∧
      Outputs s t [.respond .command .ok .none]) ∧
    (r.toNat ≤ 10 → ¬ RateLegal r s.rmode → ∃ t, exec (.setRate r) s = .next t ∧ KeepsRegisters s t ∧
      KeepsOutside s t ∧ Outputs s t [.respond .command .incompatibleConfiguration .none]) ∧
    (10 < r.toNat → ∃ t, exec (.setRate r) s = .next t ∧ KeepsRegisters s t ∧ KeepsOutside s t ∧
      Outputs s t [.respond .command .invalidParameter .none])

/-- R106, R105, R83: SETRANGE. -/
def Obligations.SetRangeEffect : Prop :=
  ∀ (g : Byte) (s : State), encode (.setRange g) = [0x04, g] ∧
    (g.toNat ≤ 3 → ∃ t, exec (.setRange g) s = .next t ∧
      t.img.field 3 5 4 = g ∧ t.img.field 3 3 0 = s.img.field 3 3 0 ∧ t.img.field 3 7 6 = s.img.field 3 7 6 ∧
      KeepsImageBut 3 s t ∧ t.rmode = s.rmode ∧ t.cfg = s.cfg ∧ t.pwm = s.pwm ∧ KeepsOutside s t ∧
      Outputs s t [.respond .command .ok (.divisor
        (if g = 0 then 16384 else if g = 1 then 8192 else if g = 2 then 4096 else 1024))]) ∧
    (3 < g.toNat → ∃ t, exec (.setRange g) s = .next t ∧ KeepsRegisters s t ∧ KeepsOutside s t ∧
      Outputs s t [.respond .command .invalidParameter .none])

/-- R108, R107, R78: SETUNIT validates and changes nothing. -/
def Obligations.SetUnitEffect : Prop :=
  ∀ (u : Byte) (s : State), encode (.setUnit u) = [0x05, u] ∧
    (u.toNat ≤ 1 → ∃ t, exec (.setUnit u) s = .next t ∧ KeepsRegisters s t ∧ KeepsOutside s t ∧
      Outputs s t [.respond .command .ok .none]) ∧
    (1 < u.toNat → ∃ t, exec (.setUnit u) s = .next t ∧ KeepsRegisters s t ∧ KeepsOutside s t ∧
      Outputs s t [.respond .command .invalidParameter .none])

/-- R89: an instruction with a token outside its set is a legal frame whose command rejects it with no effect; the
status is `InvalidParameter`, or for a CONFIGURE whose rate check fails first `IncompatibleConfiguration` (R201). -/
def Obligations.InvalidTokensRejected : Prop :=
  ∀ (i : Instr) (s : State), WellFormed i = false →
    decodeOn i.port (encode i) = some i ∧ ∃ t st, exec i s = .next t ∧ KeepsRegisters s t ∧ KeepsOutside s t ∧
      Outputs s t [.respond .command st .none] ∧
      (st = .invalidParameter ∨ (st = .incompatibleConfiguration ∧ mayWriteCfg i = true))

/-- R109: two image encoders of different kinds, other than the pair SETRES and SETRATE, commute. -/
def Obligations.EncodersCommute : Prop :=
  ∀ (i j : Instr) (s t1 t2 : State), isImageEncoder i = true → isImageEncoder j = true → opcodeOf i ≠ opcodeOf j →
    ¬ (isModeOrRate i = true ∧ isModeOrRate j = true) → s.img.wf = true →
    exec i s = .next t1 → lastStatus t1 = some .ok → exec j t1 = .next t2 → lastStatus t2 = some .ok →
    ∃ u1 u2, exec j s = .next u1 ∧ lastStatus u1 = some .ok ∧ exec i u1 = .next u2 ∧ lastStatus u2 = some .ok ∧
      u2.img = t2.img ∧ u2.rmode = t2.rmode

/-- R109: each image encoder is idempotent. -/
def Obligations.EncodersIdempotent : Prop :=
  ∀ (i : Instr) (s t : State), isImageEncoder i = true → s.img.wf = true → exec i s = .next t →
    lastStatus t = some .ok →
    ∃ u, exec i t = .next u ∧ lastStatus u = some .ok ∧ u.img = t.img ∧ u.rmode = t.rmode

/-- R110 to R113: the field decoders, on every image. -/
def Obligations.FieldDecoderValues : Prop :=
  ∀ (w : Memory) (m : Option Mode),
    decAxes w = w.field 0 2 0 ∧
    (∀ r : Byte, r.toNat ≤ 10 → (decRate w m = rateOf r ↔ w.field 0 7 4 = tokenCode r ∧ RateLegal r m)) ∧
    (decRate w m = none ↔ ∀ r : Byte, r.toNat ≤ 10 → ¬ (w.field 0 7 4 = tokenCode r ∧ RateLegal r m)) ∧
    (w.field 0 3 3 = 1 → w.field 3 3 3 = 0 → decRes w = some .lp) ∧
    (w.field 0 3 3 = 0 → w.field 3 3 3 = 0 → decRes w = some .normal) ∧
    (w.field 0 3 3 = 0 → w.field 3 3 3 = 1 → decRes w = some .hr) ∧
    (w.field 0 3 3 = 1 → w.field 3 3 3 = 1 → decRes w = none) ∧
    decRange w = rangeOf (w.field 3 5 4) ∧ (decRange w).isSome = true

/-- R114: the round trip of the encoding functions and the field decoders. -/
def Obligations.FieldRoundTrip : Prop :=
  ∀ (w : Memory) (a m r g : Byte), a.toNat < 8 → m.toNat ≤ 2 → r.toNat ≤ 10 → g.toNat ≤ 3 →
    RateLegal r (some (tokenMode m)) →
    ∃ w1 w2 w3 w4, encAxes w a = .ok w1 ∧ encRes w1 m = .ok (w2, tokenMode m) ∧
      encRate w2 r (some (tokenMode m)) = .ok w3 ∧ encRange w3 g = .ok (w4, tokenDivisor g) ∧
      decAxes w4 = a ∧ decRes w4 = some (tokenMode m) ∧ decRate w4 (some (tokenMode m)) = rateOf r ∧
      decRange w4 = rangeOf g ∧ w4.field 3 2 0 = w.field 3 2 0 ∧ w4.field 3 7 6 = w.field 3 7 6 ∧
      ∀ j, j ≠ 0 → j ≠ 3 → w4.read j = w.read j

/-- R272: a mode change after a rate leaves the code, which then means another rate or none. -/
def Obligations.ModeChangeAfterRate : Prop :=
  ∀ s : State,
    (∃ t, execAll [.setRes 0, .setRate 10, .setRes 1] s = .next t ∧ lastStatus t = some .ok ∧
      t.img.field 0 7 4 = 9 ∧ t.rmode = some .normal ∧ decRate t.img t.rmode = some .hz1344) ∧
    (∃ t, execAll [.setRes 0, .setRate 8, .setRes 2] s = .next t ∧ lastStatus t = some .ok ∧
      t.img.field 0 7 4 = 8 ∧ t.rmode = some .hr ∧ decRate t.img t.rmode = none)

/-! ### The sample decoder -/

/-- R140, R141, R52: a NATIVE value is the exact quotient of the little-endian word by the divisor. -/
def Obligations.NativeValueExact : Prop :=
  ∀ (lo hi : Byte) (d : Divisor),
    (leWord lo hi).toNat = hi.toNat * 256 + lo.toNat ∧ f64Finite (decodeLane lo hi d .native) = true ∧
      f64Value (decodeLane lo hi d .native) = ((leWord lo hi).toInt : ℚ) / (divValue d : ℚ)

/-- R140: an SI value is the product of the quotient and `G_SI` rounded to nearest, ties to even: no finite binary64
value is nearer, and where another is as near, the last bit of the result is 0. -/
def Obligations.SiValueCorrectlyRounded : Prop :=
  ∀ (lo hi : Byte) (d : Divisor) (b : F64), f64Finite b = true →
    |f64Value (decodeLane lo hi d .si) - ((leWord lo hi).toInt : ℚ) / (divValue d : ℚ) * f64Value gSi| ≤
      |f64Value b - ((leWord lo hi).toInt : ℚ) / (divValue d : ℚ) * f64Value gSi| ∧
    (f64Value b ≠ f64Value (decodeLane lo hi d .si) →
      |f64Value (decodeLane lo hi d .si) - ((leWord lo hi).toInt : ℚ) / (divValue d : ℚ) * f64Value gSi| =
        |f64Value b - ((leWord lo hi).toInt : ℚ) / (divValue d : ℚ) * f64Value gSi| →
      (decodeLane lo hi d .si).getLsbD 0 = false)

/-- R142: a decoded value is finite, never subnormal, never -0.0; zero gives +0.0; its magnitude stays below 314; and
where the word is a power of two in magnitude the SI product is exact. -/
def Obligations.DecodedSpecialValues : Prop :=
  ∀ (lo hi : Byte) (d : Divisor) (u : OutUnit),
    f64Finite (decodeLane lo hi d u) = true ∧ f64Subnormal (decodeLane lo hi d u) = false ∧
    decodeLane lo hi d u ≠ 0x8000000000000000 ∧
    (leWord lo hi = 0 → decodeLane lo hi d u = 0) ∧ |f64Value (decodeLane lo hi d u)| < 314 ∧
    (∀ k : Nat, (leWord lo hi).toInt.natAbs = 2 ^ k →
      f64Value (decodeLane lo hi d .si) = ((leWord lo hi).toInt : ℚ) / (divValue d : ℚ) * f64Value gSi)

/-- R143: lane i reads only bytes 2i and 2i+1. -/
def Obligations.LanesIndependent : Prop :=
  ∀ (b0 b1 b2 b3 b4 b5 c0 c1 c2 c3 c4 c5 : Byte) (d : Divisor) (u : OutUnit),
    ∃ x y z x' y' z' : F64,
      decodeSamples [b0, b1, b2, b3, b4, b5] d u = .ok (x, y, z) ∧
      decodeSamples [c0, c1, c2, c3, c4, c5] d u = .ok (x', y', z') ∧
      (b0 = c0 → b1 = c1 → x = x') ∧ (b2 = c2 → b3 = c3 → y = y') ∧ (b4 = c4 → b5 = c5 → z = z')

/-- R145, R146: DECODE answers the three lanes and touches no state; bad tokens are rejected. -/
def Obligations.DecodeEffect : Prop :=
  ∀ (g u b0 b1 b2 b3 b4 b5 : Byte) (s : State),
    encode (.decode g u b0 b1 b2 b3 b4 b5) = [0x0A, g, u, b0, b1, b2, b3, b4, b5] ∧
    (g.toNat ≤ 3 → u.toNat ≤ 1 → ∃ t, exec (.decode g u b0 b1 b2 b3 b4 b5) s = .next t ∧
      KeepsRegisters s t ∧ KeepsOutside s t ∧
      Outputs s t [.respond .command .ok (.samples (decodeLane b0 b1 (tokenDivisor g) (tokenUnit u))
        (decodeLane b2 b3 (tokenDivisor g) (tokenUnit u)) (decodeLane b4 b5 (tokenDivisor g) (tokenUnit u)))]) ∧
    (3 < g.toNat ∨ 1 < u.toNat → ∃ t, exec (.decode g u b0 b1 b2 b3 b4 b5) s = .next t ∧
      KeepsRegisters s t ∧ KeepsOutside s t ∧ Outputs s t [.respond .command .invalidParameter .none])

/-! ### The soft-PWM controller -/

/-- R162: the clamp. Both bounds stop. -/
def Obligations.ClampValues : Prop :=
  ∀ req : Int, (req ≤ 0 → clamp req = (0, true)) ∧ (10 ≤ req → clamp req = (10, true)) ∧
    (0 < req → req < 10 → ((clamp req).1 : Int) = req ∧ (clamp req).2 = false)

/-- R166, stop path (R165, R167): a request of 0 and below or of 10 and above cancels, stops, and writes 0x00 whatever
the phase; nothing is armed. With no answer the block hangs with the same registers (R278). -/
def Obligations.SetDutyStops : Prop :=
  ∀ (d : Byte) (s : State), s.params.hasPwm = true → (d.toInt ≤ 0 ∨ 10 ≤ d.toInt) →
    ∃ t, exec (.setDuty d) s = .next t ∧
      t.pwm = { s.pwm with duty := if d.toInt ≤ 0 then 0 else 10, phase := .off, stop := true, armed := false } ∧
      t.img.read 5 = 0x00 ∧ KeepsImageBut 5 s t ∧ t.rmode = s.rmode ∧ t.cfg = s.cfg ∧ KeepsPorts s t ∧ DrawsOne s t ∧
      (nextWrite s = .ok → t.hung = s.hung ∧ Outputs s t (cancelEvents s ++
        [.busWrite s.params.devAddr (s.params.ctrlBase + 5) [0x00] .ok, .respond .command .ok .none])) ∧
      (nextWrite s = .fail → t.hung = s.hung ∧ Outputs s t (cancelEvents s ++
        [.busWrite s.params.devAddr (s.params.ctrlBase + 5) [0x00] .fail, .respond .command .transportFailure .none])) ∧
      (nextWrite s = .silent → t.hung = true ∧ Outputs s t (cancelEvents s ++
        [.busWrite s.params.devAddr (s.params.ctrlBase + 5) [0x00] .silent]))

/-- R166, start path (R164, R264): from OFF a request of 1 to 9 forces the output low, enters OFF_PHASE and arms
`duty` time units. -/
def Obligations.SetDutyStarts : Prop :=
  ∀ (d : Byte) (s : State), s.params.hasPwm = true → 0 < d.toInt → d.toInt < 10 → s.pwm.phase = .off →
    nextWrite s = .ok →
    ∃ t, exec (.setDuty d) s = .next t ∧
      t.pwm = { duty := d.toInt.toNat, phase := .offPhase, stop := false, armed := true, handle := s.pwm.next,
                next := s.pwm.next + 1 } ∧
      t.img.read 5 = 0x00 ∧ KeepsImageBut 5 s t ∧ t.rmode = s.rmode ∧ t.cfg = s.cfg ∧ KeepsPorts s t ∧
      DrawsOne s t ∧ t.hung = s.hung ∧
      Outputs s t (cancelEvents s ++ [.busWrite s.params.devAddr (s.params.ctrlBase + 5) [0x00] .ok,
        .timerArm d.toInt.toNat s.params.timeUnit s.pwm.next, .respond .command .ok .none])

/-- R166, running path (R161, R275): a request of 1 to 9 cancels and arms a full new period of the current phase, with
no write; this holds also where `Halt` left the phase unarmed. -/
def Obligations.SetDutyRearms : Prop :=
  ∀ (d : Byte) (s : State), s.params.hasPwm = true → 0 < d.toInt → d.toInt < 10 → s.pwm.phase ≠ .off →
    ∃ t, exec (.setDuty d) s = .next t ∧
      t.pwm = { duty := d.toInt.toNat, phase := s.pwm.phase, stop := false, armed := true, handle := s.pwm.next,
                next := s.pwm.next + 1 } ∧
      t.img = s.img ∧ t.rmode = s.rmode ∧ t.cfg = s.cfg ∧ KeepsOutside s t ∧
      Outputs s t (cancelEvents s ++
        [.timerArm (if s.pwm.phase = .onPhase then 10 - d.toInt.toNat else d.toInt.toNat) s.params.timeUnit s.pwm.next,
         .respond .command .ok .none])

/-- R171: an accepted fire toggles the phase, writes the output and re-arms with the period of the phase entered. -/
def Obligations.FireTogglesAndRearms : Prop :=
  ∀ s : State, s.params.hasPwm = true → s.pwm.armed = true → s.pwm.stop = false → s.pwm.phase ≠ .off →
    nextWrite s = .ok →
    ∃ t, exec (.tfire s.pwm.handle) s = .next t ∧
      t.pwm = { s.pwm with phase := if s.pwm.phase = .onPhase then .offPhase else .onPhase, handle := s.pwm.next,
                           next := s.pwm.next + 1 } ∧
      t.img.read 5 = (if s.pwm.phase = .onPhase then 0x00 else 0xFF) ∧ KeepsImageBut 5 s t ∧ t.rmode = s.rmode ∧
      t.cfg = s.cfg ∧ KeepsPorts s t ∧ DrawsOne s t ∧ t.hung = s.hung ∧
      Outputs s t [.busWrite s.params.devAddr (s.params.ctrlBase + 5) [if s.pwm.phase = .onPhase then 0x00 else 0xFF] .ok,
        .timerArm (if s.pwm.phase = .onPhase then s.pwm.duty else 10 - s.pwm.duty) s.params.timeUnit s.pwm.next,
        .respond .timer .ok .none]

/-- R171, R237: a fire whose handle is not the armed one is `Ignored`, with no effect. -/
def Obligations.StaleFireIgnored : Prop :=
  ∀ (h : Byte) (s : State), s.params.hasPwm = true → (s.pwm.armed = false ∨ h ≠ s.pwm.handle) →
    ∃ t, exec (.tfire h) s = .next t ∧ KeepsRegisters s t ∧ KeepsOutside s t ∧
      Outputs s t [.respond .timer .ignored .none]

/-- R172: with the stop flag set, an accepted fire updates the phase and `IMG[5]` and writes, and does not arm. No
reachable state is such (R31(a)). What phase OFF does here is the model's reading (log 12). -/
def Obligations.StoppedFireDoesNotArm : Prop :=
  ∀ s : State, s.params.hasPwm = true → s.pwm.armed = true → s.pwm.stop = true → nextWrite s = .ok →
    ∃ t, exec (.tfire s.pwm.handle) s = .next t ∧
      t.pwm = { s.pwm with armed := false, phase := if s.pwm.phase = .onPhase then .offPhase else .onPhase } ∧
      t.img.read 5 = (if s.pwm.phase = .onPhase then 0x00 else 0xFF) ∧ KeepsImageBut 5 s t ∧ t.rmode = s.rmode ∧
      t.cfg = s.cfg ∧ KeepsPorts s t ∧ DrawsOne s t ∧ t.hung = s.hung ∧
      Outputs s t [.busWrite s.params.devAddr (s.params.ctrlBase + 5) [if s.pwm.phase = .onPhase then 0x00 else 0xFF] .ok,
        .respond .timer .ok .none]

/-- R168: after a failed indicator write in SETDUTY's start path or in TFIRE, `Continue` arms the next timer as if the
write had succeeded and `Halt` does not arm; both stay in the new phase, report `TransportFailure` and do not
retry. -/
def Obligations.FailPolicyDecidesArming : Prop :=
  ∀ s : State, s.params.hasPwm = true → nextWrite s = .fail →
    (∀ d : Byte, 0 < d.toInt → d.toInt < 10 → s.pwm.phase = .off →
      ∃ t, exec (.setDuty d) s = .next t ∧ t.img.read 5 = 0x00 ∧ KeepsImageBut 5 s t ∧ t.rmode = s.rmode ∧
        t.cfg = s.cfg ∧ KeepsPorts s t ∧ DrawsOne s t ∧ t.hung = s.hung ∧
        (s.params.failPolicy = .continueArming →
          t.pwm = { duty := d.toInt.toNat, phase := .offPhase, stop := false, armed := true, handle := s.pwm.next,
                    next := s.pwm.next + 1 } ∧
          Outputs s t (cancelEvents s ++ [.busWrite s.params.devAddr (s.params.ctrlBase + 5) [0x00] .fail,
            .timerArm d.toInt.toNat s.params.timeUnit s.pwm.next, .respond .command .transportFailure .none])) ∧
        (s.params.failPolicy = .halt →
          t.pwm = { s.pwm with duty := d.toInt.toNat, phase := .offPhase, stop := false, armed := false } ∧
          Outputs s t (cancelEvents s ++ [.busWrite s.params.devAddr (s.params.ctrlBase + 5) [0x00] .fail,
            .respond .command .transportFailure .none]))) ∧
    (s.pwm.armed = true → s.pwm.stop = false → s.pwm.phase ≠ .off →
      ∃ t, exec (.tfire s.pwm.handle) s = .next t ∧
        t.img.read 5 = (if s.pwm.phase = .onPhase then 0x00 else 0xFF) ∧ KeepsImageBut 5 s t ∧ t.rmode = s.rmode ∧
        t.cfg = s.cfg ∧ KeepsPorts s t ∧ DrawsOne s t ∧ t.hung = s.hung ∧
        (s.params.failPolicy = .continueArming →
          t.pwm = { s.pwm with phase := if s.pwm.phase = .onPhase then .offPhase else .onPhase, handle := s.pwm.next,
                               next := s.pwm.next + 1 } ∧
          Outputs s t [.busWrite s.params.devAddr (s.params.ctrlBase + 5)
              [if s.pwm.phase = .onPhase then 0x00 else 0xFF] .fail,
            .timerArm (if s.pwm.phase = .onPhase then s.pwm.duty else 10 - s.pwm.duty) s.params.timeUnit s.pwm.next,
            .respond .timer .transportFailure .none]) ∧
        (s.params.failPolicy = .halt →
          t.pwm = { s.pwm with phase := if s.pwm.phase = .onPhase then .offPhase else .onPhase, armed := false } ∧
          Outputs s t [.busWrite s.params.devAddr (s.params.ctrlBase + 5)
              [if s.pwm.phase = .onPhase then 0x00 else 0xFF] .fail,
            .respond .timer .transportFailure .none]))

/-- R56, R278: where the transport never answers an output write, the block hangs inside the input: the registers are
as at the write, no timer is armed and no response is given. The hung state is the model's reading (log 4), and so is
a fire armed in phase OFF, which no reachable state has (log 12). -/
def Obligations.UnansweredOutputWriteHangs : Prop :=
  ∀ s : State, s.params.hasPwm = true → nextWrite s = .silent →
    (∀ d : Byte, 0 < d.toInt → d.toInt < 10 → s.pwm.phase = .off →
      ∃ t, exec (.setDuty d) s = .next t ∧ t.hung = true ∧
        t.pwm = { s.pwm with duty := d.toInt.toNat, phase := .offPhase, stop := false, armed := false } ∧
        t.img.read 5 = 0x00 ∧ KeepsImageBut 5 s t ∧ t.rmode = s.rmode ∧ t.cfg = s.cfg ∧ KeepsPorts s t ∧
        Outputs s t (cancelEvents s ++ [.busWrite s.params.devAddr (s.params.ctrlBase + 5) [0x00] .silent])) ∧
    (s.pwm.armed = true →
      ∃ t, exec (.tfire s.pwm.handle) s = .next t ∧ t.hung = true ∧
        t.pwm = { s.pwm with phase := if s.pwm.phase = .onPhase then .offPhase else .onPhase, armed := false } ∧
        t.img.read 5 = (if s.pwm.phase = .onPhase then 0x00 else 0xFF) ∧ KeepsImageBut 5 s t ∧ t.rmode = s.rmode ∧
        t.cfg = s.cfg ∧ KeepsPorts s t ∧
        Outputs s t [.busWrite s.params.devAddr (s.params.ctrlBase + 5)
          [if s.pwm.phase = .onPhase then 0x00 else 0xFF] .silent])

/-- R169, R161: two fires in a row from OFF_PHASE with duty d hold the output at 0xFF for 10 - d time units and at 0x00
for d, together 10. -/
def Obligations.WaveformPeriods : Prop :=
  ∀ s : State, PwmInv s → s.params.hasPwm = true → s.pwm.armed = true → s.pwm.phase = .offPhase →
    nextWrite s = .ok → nextWrite s.drawn = .ok →
    ∃ t, execAll [.tfire s.pwm.handle, .tfire s.pwm.next] s = .next t ∧ t.pwm.phase = .offPhase ∧
      t.pwm.duty = s.pwm.duty ∧ (10 - s.pwm.duty) + s.pwm.duty = 10 ∧ 1 ≤ 10 - s.pwm.duty ∧ 1 ≤ s.pwm.duty ∧
      Outputs s t [.busWrite s.params.devAddr (s.params.ctrlBase + 5) [0xFF] .ok,
        .timerArm (10 - s.pwm.duty) s.params.timeUnit s.pwm.next, .respond .timer .ok .none,
        .busWrite s.params.devAddr (s.params.ctrlBase + 5) [0x00] .ok,
        .timerArm s.pwm.duty s.params.timeUnit (s.pwm.next + 1), .respond .timer .ok .none]

/-- R173: after SETDUTY 0 or 10 no request is outstanding and the controller is OFF, and a second SETDUTY 0 only
re-issues the write of 0x00; after SETDUTY 5 twice exactly one request is outstanding. -/
def Obligations.DutyTwiceArmsOneTimer : Prop :=
  ∀ s : State, s.params.hasPwm = true → TimerInv s →
    nextWrite s = .ok → nextWrite s.drawn = .ok →
    (∃ t u, exec (.setDuty 0) s = .next t ∧ t.pwm.phase = .off ∧ t.pwm.armed = false ∧ outstanding t.trace = [] ∧
      exec (.setDuty 0) t = .next u ∧ u.pwm = t.pwm ∧
      Outputs t u [.busWrite s.params.devAddr (s.params.ctrlBase + 5) [0x00] .ok, .respond .command .ok .none]) ∧
    (∃ t, exec (.setDuty 10) s = .next t ∧ t.pwm.phase = .off ∧ t.pwm.armed = false ∧ t.pwm.duty = 10 ∧
      outstanding t.trace = []) ∧
    (∃ t, execAll [.setDuty 5, .setDuty 5] s = .next t ∧ lastStatus t = some .ok ∧
      outstanding t.trace = [t.pwm.handle])

/-! ### The driver -/

/-- R200, R202: a valid CONFIGURE whose writes are all answered `Ok` succeeds from any state, whatever `RMODE` was. The
duty step is the body of SETDUTY where the controller exists and nothing otherwise; then the image is written as one
6-byte request, and `CFG` is recorded. The writes are those of the duty step, if it writes, and the block write. -/
def Obligations.ConfigureSucceeds : Prop :=
  ∀ (a m r g u d : Byte) (s : State), ConfigureValid a m r g u →
    encode (.configure a m r g u d) = [0x07, a, m, r, g, u, d] ∧
    ∃ w, EncodesConfig s.img w a m r g ∧ w.read 5 = s.img.read 5 ∧
      (s.params.hasPwm = true → (s.committed w (tokenMode m)).dutyStep d = (s.committed w (tokenMode m)).setDutyBody d ∧
        exec (.setDuty d) (s.committed w (tokenMode m)) =
          .next (((s.committed w (tokenMode m)).setDutyBody d).finish .command)) ∧
      (s.params.hasPwm = false → (s.committed w (tokenMode m)).dutyStep d = .done (s.committed w (tokenMode m))) ∧
      (ConfigureWritesOk d s → ∃ v, (s.committed w (tokenMode m)).dutyStep d = .done v ∧ nextWrite v = .ok) ∧
      (∀ v, (s.committed w (tokenMode m)).dutyStep d = .done v → nextWrite v = .ok →
        ∃ t, exec (.configure a m r g u d) s = .next t ∧
          EncodesConfig s.img t.img a m r g ∧ t.img.read 5 = v.img.read 5 ∧ t.pwm = v.pwm ∧
          t.rmode = some (tokenMode m) ∧ t.cfg = some { div := tokenDivisor g, unit := tokenUnit u } ∧
          KeepsPorts s t ∧ DrawsOne v t ∧ t.hung = s.hung ∧
          t.trace = v.trace ++ [.busWrite s.params.devAddr s.params.ctrlBase
            [t.img.read 0, t.img.read 1, t.img.read 2, t.img.read 3, t.img.read 4, t.img.read 5] .ok,
            .respond .command .ok .none])

/-- R201, R200: the first check that fails decides the status, in the order axes, resolution, rate, range, unit; no
state is written and no request is made. -/
def Obligations.ConfigureRejects : Prop :=
  ∀ (a m r g u d : Byte) (s : State) (e : Status), ConfigureError a m r g u e →
    ∃ t, exec (.configure a m r g u d) s = .next t ∧ KeepsRegisters s t ∧ KeepsOutside s t ∧
      Outputs s t [.respond .command e .none]

/-- R200, R232: a failed request of a valid CONFIGURE. From the duty step: the block write is not issued. From the
block write: image, `RMODE` and PWM effects stay. Either way `CFG` is unchanged. -/
def Obligations.ConfigureTransportFailure : Prop :=
  ∀ (a m r g u d : Byte) (s : State), ConfigureValid a m r g u →
    ∃ w, EncodesConfig s.img w a m r g ∧ w.read 5 = s.img.read 5 ∧
      (∀ v, (s.committed w (tokenMode m)).dutyStep d = .failed v →
        ∃ t, exec (.configure a m r g u d) s = .next t ∧ EncodesConfig s.img t.img a m r g ∧ t.img = v.img ∧
          t.pwm = v.pwm ∧ t.rmode = some (tokenMode m) ∧ t.cfg = s.cfg ∧ KeepsPorts s t ∧ DrawsNone v t ∧
          t.hung = s.hung ∧ t.trace = v.trace ++ [.respond .command .transportFailure .none]) ∧
      (∀ v, (s.committed w (tokenMode m)).dutyStep d = .done v → nextWrite v = .fail →
        ∃ t, exec (.configure a m r g u d) s = .next t ∧ EncodesConfig s.img t.img a m r g ∧ t.img = v.img ∧
          t.pwm = v.pwm ∧ t.rmode = some (tokenMode m) ∧ t.cfg = s.cfg ∧ KeepsPorts s t ∧ DrawsOne v t ∧
          t.hung = s.hung ∧
          t.trace = v.trace ++ [.busWrite s.params.devAddr s.params.ctrlBase v.img.payload .fail,
            .respond .command .transportFailure .none])

/-- R56, R278, R200: a valid CONFIGURE whose duty-step write or block write is never answered hangs the block without a
response. The image, `RMODE` and the PWM effects stand as at that write, and `CFG` is unchanged. The hung state is the
model's reading (log 4). -/
def Obligations.UnansweredConfigureHangs : Prop :=
  ∀ (a m r g u d : Byte) (s : State), ConfigureValid a m r g u →
    ∃ w, EncodesConfig s.img w a m r g ∧ w.read 5 = s.img.read 5 ∧
      (s.params.hasPwm = true → dutyWrites d s → nextWrite s = .silent →
        ∃ v, (s.committed w (tokenMode m)).dutyStep d = .hung v) ∧
      (∀ v, (s.committed w (tokenMode m)).dutyStep d = .hung v →
        exec (.configure a m r g u d) s = .next v ∧ v.hung = true ∧ EncodesConfig s.img v.img a m r g ∧
          v.img.read 5 = 0x00 ∧
          v.pwm = { s.pwm with duty := (clamp d.toInt).1, stop := (clamp d.toInt).2, armed := false,
                               phase := if d.toInt ≤ 0 ∨ 10 ≤ d.toInt then .off else .offPhase } ∧
          v.rmode = some (tokenMode m) ∧ v.cfg = s.cfg ∧ KeepsPorts s v ∧ DrawsOne s v ∧
          Outputs s v (cancelEvents s ++
            [.busWrite s.params.devAddr (s.params.ctrlBase + 5) [0x00] .silent])) ∧
      (∀ v, (s.committed w (tokenMode m)).dutyStep d = .done v → nextWrite v = .silent →
        ∃ t, exec (.configure a m r g u d) s = .next t ∧ t.hung = true ∧ EncodesConfig s.img t.img a m r g ∧
          t.img = v.img ∧ t.pwm = v.pwm ∧ t.rmode = some (tokenMode m) ∧ t.cfg = s.cfg ∧ KeepsPorts s t ∧
          DrawsOne v t ∧
          t.trace = v.trace ++ [.busWrite s.params.devAddr s.params.ctrlBase v.img.payload .silent])

/-- R203: two successful CONFIGUREs with the same operands, back to back, leave the same `IMG`, `RMODE` and `CFG`, send
the same payload, and a running controller stays in its phase. -/
def Obligations.ConfigureIdempotent : Prop :=
  ∀ (a m r g u d : Byte) (s t v : State), s.img.wf = true →
    exec (.configure a m r g u d) s = .next t → lastStatus t = some .ok →
    exec (.configure a m r g u d) t = .next v → lastStatus v = some .ok →
    v.img = t.img ∧ v.rmode = t.rmode ∧ v.cfg = t.cfg ∧ v.pwm.phase = t.pwm.phase ∧ v.pwm.duty = t.pwm.duty ∧
    ∃ es es', t.trace = es ++ [.busWrite s.params.devAddr s.params.ctrlBase t.img.payload .ok, .respond .command .ok .none] ∧
      v.trace = es' ++ [.busWrite s.params.devAddr s.params.ctrlBase t.img.payload .ok, .respond .command .ok .none]

/-- R24, R200: CONFIGURE does not read `RMODE`. -/
def Obligations.ConfigureIgnoresOldMode : Prop :=
  ∀ (a m r g u d : Byte) (s t : State) (x : Option Mode), exec (.configure a m r g u d) s = .next t →
    ∃ t', exec (.configure a m r g u d) { s with rmode := x } = .next t' ∧ t'.trace = t.trace ∧ t'.img = t.img ∧
      t'.pwm = t.pwm ∧ t'.cfg = t.cfg ∧ (ConfigureValid a m r g u → t'.rmode = t.rmode)

/-- R204, R206: READ. -/
def Obligations.ReadEffect : Prop :=
  ∀ s : State, encode .read = [0x08] ∧
    (s.cfg = none → ∃ t, exec .read s = .next t ∧ KeepsRegisters s t ∧ KeepsOutside s t ∧
      Outputs s t [.respond .command .notConfigured .none]) ∧
    (∀ c, s.cfg = some c → ∃ t, exec .read s = .next t ∧ KeepsRegisters s t ∧ KeepsPorts s t ∧ DrawsOne s t ∧
      (∀ b0 b1 b2 b3 b4 b5, s.nextAnswer = .ok [b0, b1, b2, b3, b4, b5] → t.hung = s.hung ∧
        Outputs s t [.busRead s.params.devAddr s.params.dataAddr 6 s.nextAnswer,
          .respond .command .ok (.samples (decodeLane b0 b1 c.div c.unit) (decodeLane b2 b3 c.div c.unit)
            (decodeLane b4 b5 c.div c.unit))]) ∧
      (∀ bytes, s.nextAnswer = .ok bytes → bytes.length ≠ 6 → t.hung = s.hung ∧
        Outputs s t [.busRead s.params.devAddr s.params.dataAddr 6 s.nextAnswer,
          .respond .command .invalidInput .none]) ∧
      (s.nextAnswer = .fail → t.hung = s.hung ∧
        Outputs s t [.busRead s.params.devAddr s.params.dataAddr 6 s.nextAnswer,
          .respond .command .transportFailure .none]))

/-- R207, R206, R208: IDENTIFY returns any byte, compared with nothing. -/
def Obligations.IdentifyEffect : Prop :=
  ∀ s : State, encode .identify = [0x09] ∧
    ∃ t, exec .identify s = .next t ∧ KeepsRegisters s t ∧ KeepsPorts s t ∧ DrawsOne s t ∧
      (∀ b, s.nextAnswer = .ok [b] → t.hung = s.hung ∧
        Outputs s t [.busRead s.params.devAddr s.params.idAddr 1 s.nextAnswer, .respond .command .ok (.id b)]) ∧
      (∀ bytes, s.nextAnswer = .ok bytes → bytes.length ≠ 1 → t.hung = s.hung ∧
        Outputs s t [.busRead s.params.devAddr s.params.idAddr 1 s.nextAnswer,
          .respond .command .invalidInput .none]) ∧
      (s.nextAnswer = .fail → t.hung = s.hung ∧
        Outputs s t [.busRead s.params.devAddr s.params.idAddr 1 s.nextAnswer,
          .respond .command .transportFailure .none])

/-- R56, R278: a READ or an IDENTIFY whose read is never answered hangs the block and gives no response. The hung state
is the model's reading (log 4). -/
def Obligations.UnansweredReadHangs : Prop :=
  ∀ s : State, s.nextAnswer = .silent →
    (s.cfg ≠ none → ∃ t, exec .read s = .next t ∧ KeepsRegisters s t ∧ KeepsPorts s t ∧ DrawsOne s t ∧
      t.hung = true ∧ Outputs s t [.busRead s.params.devAddr s.params.dataAddr 6 .silent]) ∧
    (∃ t, exec .identify s = .next t ∧ KeepsRegisters s t ∧ KeepsPorts s t ∧ DrawsOne s t ∧
      t.hung = true ∧ Outputs s t [.busRead s.params.devAddr s.params.idAddr 1 .silent])

/-! ### Whole-machine rules -/

/-- R34, R21, R23, R24, R25: a command writes no item outside its column of the table, no command writes `IMG[1]`,
`IMG[2]`, `IMG[4]` or a bit no field owns, and `CFG` changes only in a CONFIGURE answered `OK`. -/
def Obligations.CommandsWriteOnlyTheirState : Prop :=
  ∀ (i : Instr) (s t : State), exec i s = .next t →
    (mayWriteMode i = false → t.rmode = s.rmode) ∧ (mayWritePwm i = false → t.pwm = s.pwm ∧ t.img.read 5 = s.img.read 5) ∧
    (mayWriteCfg i = false → t.cfg = s.cfg) ∧ (t.cfg ≠ s.cfg → lastStatus t = some .ok) ∧
    (∀ x ∈ encoderFields, mayWriteField x.1 x.2.1 x.2.2 i = false →
      t.img.field x.1 x.2.1 x.2.2 = s.img.field x.1 x.2.1 x.2.2) ∧
    t.img.field 3 2 0 = s.img.field 3 2 0 ∧ t.img.field 3 7 6 = s.img.field 3 7 6 ∧
    (∀ j, j ≠ 0 → j ≠ 3 → j ≠ 5 → t.img.read j = s.img.read j)

/-- R31: every step keeps the PWM invariants, from every state that meets them. What exempts a state from (d) is the
model's: a hang (log 4), and a failed write anywhere in the record of outputs, resets included (log 24). -/
def Obligations.StepKeepsPwmInvariants : Prop :=
  ∀ s t : State, PwmInv s → step s = .next t → PwmInv t

/-- R21, R22, R81, R82, R103: every step keeps the image's canonical form, its unused bytes and unowned bits, and the
agreement of the resolution bits and the rate code with `RMODE`. -/
def Obligations.StepKeepsImageInvariant : Prop :=
  ∀ s t : State, ImageInv s → step s = .next t → ImageInv t

/-- R32: every step leaves the registers of an absent controller, and `IMG[5]`, at reset. -/
def Obligations.StepKeepsAbsentPwm : Prop :=
  ∀ s t : State, NoPwmInv s → step s = .next t → NoPwmInv t ∧ t.params = s.params

/-- R29, R240, R165: exactly the armed timer request is outstanding at the collaborator, and every step keeps it so. -/
def Obligations.StepKeepsTimerInvariant : Prop :=
  ∀ s t : State, TimerInv s → NoPwmInv s → step s = .next t → TimerInv t

/-- R36, R65, R167: while the last write succeeded, the indicator level at the device is `IMG[5]`. -/
def Obligations.StepKeepsIndicatorInvariant : Prop :=
  ∀ s t : State, IndicatorInv s → step s = .next t → IndicatorInv t

/-- R40, R31: all the invariants hold right after reset, on every platform and in `State.reset`. -/
def Obligations.InvariantsAtReset : Prop :=
  ∀ p : Params, ∀ s, (s = State.resetWith p ∨ s = State.reset) →
    PwmInv s ∧ ImageInv s ∧ NoPwmInv s ∧ TimerInv s ∧ IndicatorInv s

/-- R31, R21, R32: the invariants hold in every state the block can be in, whatever frames, answers and ties the
outside world supplies and whenever it resets the block. A hung block is exempt from R31(d), the model's reading (log 4), and a write that failed
before a reset still counts as failed for R31(d), the model's choice (log 24). -/
def Obligations.ReachableStatesMeetInvariants : Prop :=
  ∀ s : State, Reachable s → PwmInv s ∧ ImageInv s ∧ NoPwmInv s
end

