-- ==== Sys2Proof/Laws/Decode.lean ====
section
/-! SUPPORT. What each operand format accepts, and the ports of decoded frames. -/

namespace Sys2Proof

theorem operandsF0_some {i j : Instr} {args : List Byte} (h : operandsF0 i args = some j) : args = [] ∧ j = i := by
  unfold operandsF0 at h; split at h <;> simp_all

theorem operandsF1_some {k : Byte → Instr} {j : Instr} {args : List Byte} (h : operandsF1 k args = some j) :
    ∃ x, args = [x] ∧ j = k x := by
  unfold operandsF1 at h
  split at h
  · exact ⟨_, rfl, by simpa using h.symm⟩
  · cases h

theorem operandsF6_some {j : Instr} {args : List Byte} (h : operandsF6 args = some j) :
    ∃ a m r g u d, args = [a, m, r, g, u, d] ∧ j = .configure a m r g u d := by
  unfold operandsF6 at h
  split at h
  · exact ⟨_, _, _, _, _, _, rfl, by simpa using h.symm⟩
  · cases h

theorem operandsF8_some {j : Instr} {args : List Byte} (h : operandsF8 args = some j) :
    ∃ g u b0 b1 b2 b3 b4 b5, args = [g, u, b0, b1, b2, b3, b4, b5] ∧ j = .decode g u b0 b1 b2 b3 b4 b5 := by
  unfold operandsF8 at h
  split at h
  · exact ⟨_, _, _, _, _, _, _, _, rfl, by simpa using h.symm⟩
  · cases h

/-- A frame decoded on a port decodes, to an instruction of that port. -/
theorem decodeOn_some {p : Port} {f : Frame} {i : Instr} (h : decodeOn p f = some i) :
    decode f = some i ∧ i.port = p := by
  unfold decodeOn at h
  split at h
  · rename_i j hj
    split at h
    · rename_i hp
      cases h
      exact ⟨hj, hp⟩
    · cases h
  · cases h

end Sys2Proof
end

