-- ==== Sys2Proof/Laws/Memory.lean ====
section
/-! SUPPORT. The laws of the image space: read after write, the canonical form, and equality of canonical images. -/

namespace Sys2Proof.Machine

@[simp] theorem Memory.read_nil (a : Nat) : Memory.read [] a = 0x00 := rfl

theorem Memory.read_erase_same (m : Memory) (a : Nat) : (m.erase a).read a = 0x00 := by
  induction m with
  | nil => rfl
  | cons c m ih =>
    obtain ⟨k, v⟩ := c
    by_cases h : k = a <;> simp [Memory.erase, Memory.read, h, ih]

theorem Memory.read_erase_other (m : Memory) {a b : Nat} (h : b ≠ a) : (m.erase a).read b = m.read b := by
  induction m with
  | nil => rfl
  | cons c m ih =>
    obtain ⟨k, v⟩ := c
    by_cases hk : k = a
    · subst hk; simp [Memory.erase, Memory.read, ih, Ne.symm h]
    · simp [Memory.erase, Memory.read, hk, ih]

theorem Memory.read_insert_other (m : Memory) {a b : Nat} (v : Byte) (h : b ≠ a) :
    (m.insert a v).read b = m.read b := by
  induction m with
  | nil => simp [Memory.insert, Memory.read, Ne.symm h]
  | cons c m ih =>
    obtain ⟨k, w⟩ := c
    by_cases hk : a < k <;> simp [Memory.insert, Memory.read, hk, ih, Ne.symm h]

theorem Memory.read_insert_erase_same (m : Memory) (a : Nat) (v : Byte) :
    ((m.erase a).insert a v).read a = v := by
  induction m with
  | nil => simp [Memory.erase, Memory.insert, Memory.read]
  | cons c m ih =>
    obtain ⟨k, w⟩ := c
    by_cases hk : k = a
    · simp [Memory.erase, hk, ih]
    · by_cases hl : a < k <;> simp [Memory.erase, Memory.insert, Memory.read, hk, hl, ih]

/-- A read after a write to the same index gives the value written. -/
@[simp] theorem Memory.read_write_same (m : Memory) (a : Nat) (v : Byte) : (m.write a v).read a = v := by
  by_cases h : v = 0x00
  · simp [Memory.write, h, Memory.read_erase_same]
  · rw [Memory.write, if_neg h, Memory.read_insert_erase_same]

/-- A write leaves every other index alone. -/
theorem Memory.read_write_other (m : Memory) {a b : Nat} (v : Byte) (h : b ≠ a) :
    (m.write a v).read b = m.read b := by
  by_cases hv : v = 0x00
  · simp [Memory.write, hv, Memory.read_erase_other m h]
  · rw [Memory.write, if_neg hv, Memory.read_insert_other _ v h, Memory.read_erase_other m h]

theorem Memory.read_write (m : Memory) (a b : Nat) (v : Byte) :
    (m.write a v).read b = if b = a then v else m.read b := by
  by_cases h : b = a
  · subst h; simp
  · simp [h, Memory.read_write_other m v h]

theorem Memory.wfFrom_mono {m : Memory} {lo hi : Nat} (h : Memory.wfFrom hi m = true) (hl : lo ≤ hi) :
    Memory.wfFrom lo m = true := by
  cases m with
  | nil => rfl
  | cons c m =>
    obtain ⟨k, v⟩ := c
    simp only [Memory.wfFrom, Bool.and_eq_true, decide_eq_true_eq] at h ⊢
    exact ⟨⟨⟨by omega, h.1.1.2⟩, h.1.2⟩, h.2⟩

theorem Memory.wfFrom_erase {m : Memory} {lo : Nat} (a : Nat) (h : Memory.wfFrom lo m = true) :
    Memory.wfFrom lo (m.erase a) = true := by
  induction m generalizing lo with
  | nil => rfl
  | cons c m ih =>
    obtain ⟨k, v⟩ := c
    simp only [Memory.wfFrom, Bool.and_eq_true, decide_eq_true_eq] at h
    by_cases hk : k = a
    · simp only [Memory.erase, hk, if_true]
      exact ih (Memory.wfFrom_mono h.2 (by omega))
    · simp only [Memory.erase, hk, if_false, Memory.wfFrom, Bool.and_eq_true, decide_eq_true_eq]
      exact ⟨h.1, ih h.2⟩

theorem Memory.wfFrom_insert_erase {m : Memory} {lo a : Nat} {v : Byte} (h : Memory.wfFrom lo m = true)
    (hl : lo ≤ a) (ha : a < imgSize) (hv : v ≠ 0x00) : Memory.wfFrom lo ((m.erase a).insert a v) = true := by
  induction m generalizing lo with
  | nil => simpa [Memory.erase, Memory.insert, Memory.wfFrom, hl, ha] using hv
  | cons c m ih =>
    obtain ⟨k, w⟩ := c
    simp only [Memory.wfFrom, Bool.and_eq_true, decide_eq_true_eq] at h
    by_cases hk : k = a
    · simp only [Memory.erase, hk, if_true]
      exact ih (Memory.wfFrom_mono h.2 (by omega)) hl
    · by_cases hlt : a < k
      · simp only [Memory.erase, hk, if_false, Memory.insert, hlt, if_true, Memory.wfFrom, Bool.and_eq_true,
          decide_eq_true_eq]
        exact ⟨⟨⟨hl, ha⟩, by simpa using hv⟩, ⟨⟨by omega, h.1.1.2⟩, h.1.2⟩, Memory.wfFrom_erase a h.2⟩
      · simp only [Memory.erase, hk, if_false, Memory.insert, hlt, Memory.wfFrom, Bool.and_eq_true,
          decide_eq_true_eq]
        exact ⟨h.1, ih h.2 (by omega)⟩

/-- Every write inside the image keeps the canonical form. -/
theorem Memory.wf_write {m : Memory} {a : Nat} (v : Byte) (h : m.wf = true) (ha : a < imgSize) :
    (m.write a v).wf = true := by
  by_cases hv : v = 0x00
  · simpa [Memory.wf, Memory.write, hv] using Memory.wfFrom_erase a h
  · rw [Memory.wf, Memory.write, if_neg hv]
    exact Memory.wfFrom_insert_erase h (Nat.zero_le a) ha hv

theorem Memory.wf_setField {m : Memory} {i : Nat} (hi lo : Nat) (v : Byte) (h : m.wf = true) (ha : i < imgSize) :
    (m.setField i hi lo v).wf = true := Memory.wf_write _ h ha

theorem Memory.read_below {m : Memory} {lo a : Nat} (h : Memory.wfFrom lo m = true) (ha : a < lo) :
    m.read a = 0x00 := by
  induction m generalizing lo with
  | nil => rfl
  | cons c m ih =>
    obtain ⟨k, v⟩ := c
    simp only [Memory.wfFrom, Bool.and_eq_true, decide_eq_true_eq] at h
    simp only [Memory.read, show k ≠ a by omega, if_false]
    exact ih h.2 (by omega)

theorem Memory.eq_of_read_from {m n : Memory} {lo : Nat} (hm : Memory.wfFrom lo m = true)
    (hn : Memory.wfFrom lo n = true) (h : ∀ a, m.read a = n.read a) : m = n := by
  induction m generalizing lo n with
  | nil =>
    cases n with
    | nil => rfl
    | cons c n =>
      obtain ⟨k, v⟩ := c
      simp only [Memory.wfFrom, Bool.and_eq_true, decide_eq_true_eq, bne_iff_ne, ne_eq] at hn
      exact absurd (by simpa [Memory.read] using (h k).symm) hn.1.2
  | cons c m ih =>
    obtain ⟨k, v⟩ := c
    simp only [Memory.wfFrom, Bool.and_eq_true, decide_eq_true_eq, bne_iff_ne, ne_eq] at hm
    cases n with
    | nil => exact absurd (by simpa [Memory.read] using h k) hm.1.2
    | cons d n =>
      obtain ⟨l, w⟩ := d
      simp only [Memory.wfFrom, Bool.and_eq_true, decide_eq_true_eq, bne_iff_ne, ne_eq] at hn
      have hkl : k = l := by
        rcases Nat.lt_trichotomy k l with hlt | he | hgt
        · have := h k
          simp only [Memory.read, if_true, show l ≠ k by omega, if_false,
            Memory.read_below hn.2 (show k < l + 1 by omega)] at this
          exact absurd this hm.1.2
        · exact he
        · have := h l
          simp only [Memory.read, if_true, show k ≠ l by omega, if_false,
            Memory.read_below hm.2 (show l < k + 1 by omega)] at this
          exact absurd this.symm hn.1.2
      subst hkl
      have hvw : v = w := by simpa [Memory.read] using h k
      subst hvw
      have : m = n := ih hm.2 hn.2 fun a => by
        by_cases ha : k = a
        · subst ha
          rw [Memory.read_below hm.2 (by omega), Memory.read_below hn.2 (by omega)]
        · simpa [Memory.read, ha] using h a
      rw [this]

/-- Canonical images that read the same everywhere are equal lists. -/
theorem Memory.eq_of_read {m n : Memory} (hm : m.wf = true) (hn : n.wf = true) (h : ∀ a, m.read a = n.read a) :
    m = n := Memory.eq_of_read_from hm hn h

theorem Memory.read_setField (m : Memory) (i hi lo : Nat) (v : Byte) (b : Nat) :
    (m.setField i hi lo v).read b = if b = i then setByteField (m.read i) hi lo v else m.read b :=
  Memory.read_write m i b _

theorem reset_img_wf : State.reset.img.wf = true := rfl

end Sys2Proof.Machine
end

