-- ==== Sys2Proof/Laws/Fields.lean ====
section
/-! SUPPORT. The laws of bit fields: which bits a field write changes, and what a field reads. -/

namespace Sys2Proof.Machine

theorem getLsbD_fieldMask (hi lo j : Nat) (hj : j < 8) :
    (fieldMask hi lo).getLsbD j = (decide (lo ≤ j) && decide (j ≤ hi)) := by
  rw [fieldMask, BitVec.getLsbD_ofNat, Nat.testBit_mul_two_pow, Nat.testBit_two_pow_sub_one]
  by_cases h : lo ≤ j
  · simp only [hj, h, decide_true, Bool.true_and]
    congr 1
    simp only [eq_iff_iff]
    omega
  · simp [h]

/-- Bit `j` of a byte after a field write: the value's bit inside the field, the old bit outside it. -/
theorem getLsbD_setByteField (b v : Byte) (hi lo j : Nat) (hj : j < 8) :
    (setByteField b hi lo v).getLsbD j = if lo ≤ j ∧ j ≤ hi then v.getLsbD (j - lo) else b.getLsbD j := by
  simp only [setByteField, BitVec.getLsbD_or, BitVec.getLsbD_and, BitVec.getLsbD_not, getLsbD_fieldMask _ _ _ hj,
    BitVec.getLsbD_shiftLeft, hj, decide_true, Bool.true_and]
  by_cases h1 : lo ≤ j <;> by_cases h2 : j ≤ hi <;> simp [h1, h2, Nat.not_lt.mpr]

/-- Bit `j` of a field. -/
theorem getLsbD_byteField (b : Byte) (hi lo j : Nat) :
    (byteField b hi lo).getLsbD j = (decide (lo + j < 8) && decide (lo + j ≤ hi) && b.getLsbD (lo + j)) := by
  simp only [byteField, BitVec.getLsbD_ushiftRight, BitVec.getLsbD_and]
  by_cases h : lo + j < 8
  · rw [getLsbD_fieldMask _ _ _ h]
    simp [h, Bool.and_comm]
  · simp [h, BitVec.getLsbD_of_ge b (lo + j) (by omega)]

/-- A field reads what was written to it, cut to its width. -/
theorem byteField_setByteField_same (b v : Byte) (hi lo : Nat) (h : hi < 8) (hl : lo ≤ hi) :
    byteField (setByteField b hi lo v) hi lo = byteField v (hi - lo) 0 := by
  apply BitVec.eq_of_getLsbD_eq
  intro j hj
  rw [getLsbD_byteField, getLsbD_byteField]
  by_cases hle : lo + j ≤ hi
  · rw [getLsbD_setByteField _ _ _ _ _ (by omega)]
    simp [hle, show lo + j < 8 by omega, hj, show j ≤ hi - lo by omega]
  · simp [hle, show ¬ j ≤ hi - lo by omega]

/-- A field keeps its value when a disjoint field of the byte is written. -/
theorem byteField_setByteField_other (b v : Byte) (hi lo hi' lo' : Nat) (h : hi < lo' ∨ hi' < lo) :
    byteField (setByteField b hi lo v) hi' lo' = byteField b hi' lo' := by
  apply BitVec.eq_of_getLsbD_eq
  intro j hj
  rw [getLsbD_byteField, getLsbD_byteField]
  by_cases h8 : lo' + j < 8
  · by_cases hle : lo' + j ≤ hi'
    · rw [getLsbD_setByteField _ _ _ _ _ h8]
      simp [show ¬ (lo ≤ lo' + j ∧ lo' + j ≤ hi) by omega]
    · simp [hle]
  · simp [h8]

/-- A value that fits its width is not cut. -/
theorem byteField_of_lt {v : Byte} {w : Nat} (h : v.toNat < 2 ^ (w + 1)) : byteField v w 0 = v := by
  apply BitVec.eq_of_getLsbD_eq
  intro j hj
  rw [getLsbD_byteField]
  by_cases hw : j ≤ w
  · simp [hj, hw]
  · have : v.getLsbD j = false := by
      rw [BitVec.getLsbD]
      exact Nat.testBit_lt_two_pow (lt_of_lt_of_le h (Nat.pow_le_pow_right (by decide) (by omega)))
    simp [this]

/-- A field of the image reads what was written to it. -/
theorem Memory.field_setField_same (m : Memory) (i hi lo : Nat) {v : Byte} (h : hi < 8) (hl : lo ≤ hi)
    (hv : v.toNat < 2 ^ (hi - lo + 1)) : (m.setField i hi lo v).field i hi lo = v := by
  rw [Memory.field, Memory.read_setField, if_pos rfl, byteField_setByteField_same _ _ _ _ h hl, byteField_of_lt hv]

/-- A field keeps its value when another byte's field is written. -/
theorem Memory.field_setField_byte (m : Memory) {i j : Nat} (hi lo hi' lo' : Nat) (v : Byte) (h : j ≠ i) :
    (m.setField i hi lo v).field j hi' lo' = m.field j hi' lo' := by
  rw [Memory.field, Memory.read_setField, if_neg h, Memory.field]

/-- A field keeps its value when a disjoint field of its byte is written. -/
theorem Memory.field_setField_disjoint (m : Memory) (i hi lo hi' lo' : Nat) (v : Byte) (h : hi < lo' ∨ hi' < lo) :
    (m.setField i hi lo v).field i hi' lo' = m.field i hi' lo' := by
  rw [Memory.field, Memory.read_setField, if_pos rfl, byteField_setByteField_other _ _ _ _ _ _ h, Memory.field]

theorem Memory.field_write_other (m : Memory) {i j : Nat} (hi lo : Nat) (v : Byte) (h : j ≠ i) :
    (m.write i v).field j hi lo = m.field j hi lo := by
  rw [Memory.field, Memory.read_write_other m v h, Memory.field]

theorem Memory.read_setField_other (m : Memory) {i j : Nat} (hi lo : Nat) (v : Byte) (h : j ≠ i) :
    (m.setField i hi lo v).read j = m.read j := by rw [Memory.read_setField, if_neg h]

/-- Two bytes that agree on the four fields of byte 0 are equal (30_encoding.md R80: every bit of it is owned). -/
theorem byte_eq_of_fields0 {b c : Byte} (h1 : byteField b 2 0 = byteField c 2 0)
    (h2 : byteField b 3 3 = byteField c 3 3) (h3 : byteField b 7 4 = byteField c 7 4) : b = c := by
  apply BitVec.eq_of_getLsbD_eq
  intro j hj
  have g1 := congrArg (BitVec.getLsbD · j) h1
  have g2 := congrArg (BitVec.getLsbD · 0) h2
  have g3 := congrArg (BitVec.getLsbD · (j - 4)) h3
  simp only [getLsbD_byteField] at g1 g2 g3
  rcases (by omega : j ≤ 2 ∨ j = 3 ∨ 4 ≤ j) with h | h | h
  · simpa [hj, h] using g1
  · subst h; simpa using g2
  · have e : 4 + (j - 4) = j := by omega
    rw [e] at g3
    simpa [hj, show j ≤ 7 by omega] using g3

/-- Two bytes that agree on the fields and the unowned bits of byte 3 are equal. -/
theorem byte_eq_of_fields3 {b c : Byte} (h1 : byteField b 2 0 = byteField c 2 0)
    (h2 : byteField b 3 3 = byteField c 3 3) (h3 : byteField b 5 4 = byteField c 5 4)
    (h4 : byteField b 7 6 = byteField c 7 6) : b = c := by
  apply BitVec.eq_of_getLsbD_eq
  intro j hj
  have g1 := congrArg (BitVec.getLsbD · j) h1
  have g2 := congrArg (BitVec.getLsbD · 0) h2
  have g3 := congrArg (BitVec.getLsbD · (j - 4)) h3
  have g4 := congrArg (BitVec.getLsbD · (j - 6)) h4
  simp only [getLsbD_byteField] at g1 g2 g3 g4
  rcases (by omega : j ≤ 2 ∨ j = 3 ∨ (4 ≤ j ∧ j ≤ 5) ∨ 6 ≤ j) with h | h | ⟨h, h'⟩ | h
  · simpa [hj, h] using g1
  · subst h; simpa using g2
  · have e : 4 + (j - 4) = j := by omega
    rw [e] at g3
    simpa [hj, h'] using g3
  · have e : 6 + (j - 6) = j := by omega
    rw [e] at g4
    simpa [hj, show j ≤ 7 by omega] using g4

theorem setByteField_idem (b v : Byte) (hi lo : Nat) :
    setByteField (setByteField b hi lo v) hi lo v = setByteField b hi lo v := by
  apply BitVec.eq_of_getLsbD_eq
  intro j hj
  simp only [getLsbD_setByteField _ _ _ _ _ hj]
  split <;> rfl

theorem setByteField_comm (b v w : Byte) (hi lo hi' lo' : Nat) (h : hi < lo' ∨ hi' < lo) :
    setByteField (setByteField b hi lo v) hi' lo' w = setByteField (setByteField b hi' lo' w) hi lo v := by
  apply BitVec.eq_of_getLsbD_eq
  intro j hj
  simp only [getLsbD_setByteField _ _ _ _ _ hj]
  split <;> split <;> first | rfl | omega

/-- Writing a field twice is writing it once. -/
theorem Memory.setField_idem {m : Memory} (hm : m.wf = true) {i : Nat} (hi lo : Nat) (v : Byte) (h : i < imgSize) :
    (m.setField i hi lo v).setField i hi lo v = m.setField i hi lo v := by
  refine Memory.eq_of_read (Memory.wf_setField _ _ _ (Memory.wf_setField _ _ _ hm h) h)
    (Memory.wf_setField _ _ _ hm h) ?_
  intro a
  simp only [Memory.read_setField, if_true]
  split
  · rw [setByteField_idem]
  · rfl

/-- Field writes to different bytes or to disjoint fields commute. -/
theorem Memory.setField_comm {m : Memory} (hm : m.wf = true) {i j : Nat} (hi lo hi' lo' : Nat) (v w : Byte) (h : i < imgSize)
    (h' : j < imgSize) (hd : i ≠ j ∨ hi < lo' ∨ hi' < lo) :
    (m.setField i hi lo v).setField j hi' lo' w = (m.setField j hi' lo' w).setField i hi lo v := by
  refine Memory.eq_of_read (Memory.wf_setField _ _ _ (Memory.wf_setField _ _ _ hm h) h')
    (Memory.wf_setField _ _ _ (Memory.wf_setField _ _ _ hm h') h) ?_
  intro a
  by_cases hij : i = j
  · subst hij
    simp only [Memory.read_setField, if_true]
    split
    · rw [setByteField_comm]; simpa using hd
    · rfl
  · simp only [Memory.read_setField]
    by_cases h1 : a = j <;> by_cases h2 : a = i
    · omega
    all_goals simp [h1, h2, hij, Ne.symm hij]

end Sys2Proof.Machine
end

