-- ==== Sys2Proof/Laws/State.lean ====
section
/-! SUPPORT. One lemma per field per update of State, so that no later proof unfolds a record update. -/

namespace Sys2Proof.Machine

/-! ### `emit` -/

@[simp] theorem State.img_emit (s : State) (e : Event) : (s.emit e).img = s.img := rfl
@[simp] theorem State.rmode_emit (s : State) (e : Event) : (s.emit e).rmode = s.rmode := rfl
@[simp] theorem State.cfg_emit (s : State) (e : Event) : (s.emit e).cfg = s.cfg := rfl
@[simp] theorem State.pwm_emit (s : State) (e : Event) : (s.emit e).pwm = s.pwm := rfl
@[simp] theorem State.params_emit (s : State) (e : Event) : (s.emit e).params = s.params := rfl
@[simp] theorem State.hung_emit (s : State) (e : Event) : (s.emit e).hung = s.hung := rfl
@[simp] theorem State.cmdPort_emit (s : State) (e : Event) : (s.emit e).cmdPort = s.cmdPort := rfl
@[simp] theorem State.timerPort_emit (s : State) (e : Event) : (s.emit e).timerPort = s.timerPort := rfl
@[simp] theorem State.order_emit (s : State) (e : Event) : (s.emit e).order = s.order := rfl
@[simp] theorem State.answers_emit (s : State) (e : Event) : (s.emit e).answers = s.answers := rfl
@[simp] theorem State.draws_emit (s : State) (e : Event) : (s.emit e).draws = s.draws := rfl
@[simp] theorem State.trace_emit (s : State) (e : Event) : (s.emit e).trace = s.trace ++ [e] := rfl

/-! ### `respond` -/

@[simp] theorem State.img_respond (s : State) (p : Port) (st : Status) (d : RespData) : (s.respond p st d).img = s.img := rfl
@[simp] theorem State.rmode_respond (s : State) (p : Port) (st : Status) (d : RespData) : (s.respond p st d).rmode = s.rmode := rfl
@[simp] theorem State.cfg_respond (s : State) (p : Port) (st : Status) (d : RespData) : (s.respond p st d).cfg = s.cfg := rfl
@[simp] theorem State.pwm_respond (s : State) (p : Port) (st : Status) (d : RespData) : (s.respond p st d).pwm = s.pwm := rfl
@[simp] theorem State.params_respond (s : State) (p : Port) (st : Status) (d : RespData) : (s.respond p st d).params = s.params := rfl
@[simp] theorem State.hung_respond (s : State) (p : Port) (st : Status) (d : RespData) : (s.respond p st d).hung = s.hung := rfl
@[simp] theorem State.cmdPort_respond (s : State) (p : Port) (st : Status) (d : RespData) : (s.respond p st d).cmdPort = s.cmdPort := rfl
@[simp] theorem State.timerPort_respond (s : State) (p : Port) (st : Status) (d : RespData) : (s.respond p st d).timerPort = s.timerPort := rfl
@[simp] theorem State.order_respond (s : State) (p : Port) (st : Status) (d : RespData) : (s.respond p st d).order = s.order := rfl
@[simp] theorem State.answers_respond (s : State) (p : Port) (st : Status) (d : RespData) : (s.respond p st d).answers = s.answers := rfl
@[simp] theorem State.draws_respond (s : State) (p : Port) (st : Status) (d : RespData) : (s.respond p st d).draws = s.draws := rfl
@[simp] theorem State.trace_respond (s : State) (p : Port) (st : Status) (d : RespData) : (s.respond p st d).trace = s.trace ++ [.respond p st d] := rfl

/-! ### `raise` -/

@[simp] theorem State.img_raise (s : State) (p : Port) (st : Status) : (s.raise p st).img = s.img := rfl
@[simp] theorem State.rmode_raise (s : State) (p : Port) (st : Status) : (s.raise p st).rmode = s.rmode := rfl
@[simp] theorem State.cfg_raise (s : State) (p : Port) (st : Status) : (s.raise p st).cfg = s.cfg := rfl
@[simp] theorem State.pwm_raise (s : State) (p : Port) (st : Status) : (s.raise p st).pwm = s.pwm := rfl
@[simp] theorem State.params_raise (s : State) (p : Port) (st : Status) : (s.raise p st).params = s.params := rfl
@[simp] theorem State.hung_raise (s : State) (p : Port) (st : Status) : (s.raise p st).hung = s.hung := rfl
@[simp] theorem State.cmdPort_raise (s : State) (p : Port) (st : Status) : (s.raise p st).cmdPort = s.cmdPort := rfl
@[simp] theorem State.timerPort_raise (s : State) (p : Port) (st : Status) : (s.raise p st).timerPort = s.timerPort := rfl
@[simp] theorem State.order_raise (s : State) (p : Port) (st : Status) : (s.raise p st).order = s.order := rfl
@[simp] theorem State.answers_raise (s : State) (p : Port) (st : Status) : (s.raise p st).answers = s.answers := rfl
@[simp] theorem State.draws_raise (s : State) (p : Port) (st : Status) : (s.raise p st).draws = s.draws := rfl
@[simp] theorem State.trace_raise (s : State) (p : Port) (st : Status) : (s.raise p st).trace = s.trace ++ [.respond p st .none] := rfl

/-! ### `illegal` -/

@[simp] theorem State.img_illegal (s : State) (p : Port) : (s.illegal p).img = s.img := rfl
@[simp] theorem State.rmode_illegal (s : State) (p : Port) : (s.illegal p).rmode = s.rmode := rfl
@[simp] theorem State.cfg_illegal (s : State) (p : Port) : (s.illegal p).cfg = s.cfg := rfl
@[simp] theorem State.pwm_illegal (s : State) (p : Port) : (s.illegal p).pwm = s.pwm := rfl
@[simp] theorem State.params_illegal (s : State) (p : Port) : (s.illegal p).params = s.params := rfl
@[simp] theorem State.hung_illegal (s : State) (p : Port) : (s.illegal p).hung = s.hung := rfl
@[simp] theorem State.cmdPort_illegal (s : State) (p : Port) : (s.illegal p).cmdPort = s.cmdPort := rfl
@[simp] theorem State.timerPort_illegal (s : State) (p : Port) : (s.illegal p).timerPort = s.timerPort := rfl
@[simp] theorem State.order_illegal (s : State) (p : Port) : (s.illegal p).order = s.order := rfl
@[simp] theorem State.answers_illegal (s : State) (p : Port) : (s.illegal p).answers = s.answers := rfl
@[simp] theorem State.draws_illegal (s : State) (p : Port) : (s.illegal p).draws = s.draws := rfl
@[simp] theorem State.trace_illegal (s : State) (p : Port) : (s.illegal p).trace = s.trace ++ [.respond p .illegalCommand .none] := rfl

/-! ### `armTimer` -/

@[simp] theorem State.img_armTimer (s : State) (n : Nat) : (s.armTimer n).img = s.img := rfl
@[simp] theorem State.rmode_armTimer (s : State) (n : Nat) : (s.armTimer n).rmode = s.rmode := rfl
@[simp] theorem State.cfg_armTimer (s : State) (n : Nat) : (s.armTimer n).cfg = s.cfg := rfl
@[simp] theorem State.pwm_armTimer (s : State) (n : Nat) : (s.armTimer n).pwm = { s.pwm with handle := s.pwm.next, next := s.pwm.next + 1, armed := true } := rfl
@[simp] theorem State.params_armTimer (s : State) (n : Nat) : (s.armTimer n).params = s.params := rfl
@[simp] theorem State.hung_armTimer (s : State) (n : Nat) : (s.armTimer n).hung = s.hung := rfl
@[simp] theorem State.cmdPort_armTimer (s : State) (n : Nat) : (s.armTimer n).cmdPort = s.cmdPort := rfl
@[simp] theorem State.timerPort_armTimer (s : State) (n : Nat) : (s.armTimer n).timerPort = s.timerPort := rfl
@[simp] theorem State.order_armTimer (s : State) (n : Nat) : (s.armTimer n).order = s.order := rfl
@[simp] theorem State.answers_armTimer (s : State) (n : Nat) : (s.armTimer n).answers = s.answers := rfl
@[simp] theorem State.draws_armTimer (s : State) (n : Nat) : (s.armTimer n).draws = s.draws := rfl
@[simp] theorem State.trace_armTimer (s : State) (n : Nat) : (s.armTimer n).trace = s.trace ++ [.timerArm n s.params.timeUnit s.pwm.next] := rfl

/-! ### `setPhase` -/

@[simp] theorem State.img_setPhase (s : State) (p : Phase) : (s.setPhase p).img = s.img := rfl
@[simp] theorem State.rmode_setPhase (s : State) (p : Phase) : (s.setPhase p).rmode = s.rmode := rfl
@[simp] theorem State.cfg_setPhase (s : State) (p : Phase) : (s.setPhase p).cfg = s.cfg := rfl
@[simp] theorem State.pwm_setPhase (s : State) (p : Phase) : (s.setPhase p).pwm = { s.pwm with phase := p } := rfl
@[simp] theorem State.params_setPhase (s : State) (p : Phase) : (s.setPhase p).params = s.params := rfl
@[simp] theorem State.hung_setPhase (s : State) (p : Phase) : (s.setPhase p).hung = s.hung := rfl
@[simp] theorem State.cmdPort_setPhase (s : State) (p : Phase) : (s.setPhase p).cmdPort = s.cmdPort := rfl
@[simp] theorem State.timerPort_setPhase (s : State) (p : Phase) : (s.setPhase p).timerPort = s.timerPort := rfl
@[simp] theorem State.order_setPhase (s : State) (p : Phase) : (s.setPhase p).order = s.order := rfl
@[simp] theorem State.answers_setPhase (s : State) (p : Phase) : (s.setPhase p).answers = s.answers := rfl
@[simp] theorem State.draws_setPhase (s : State) (p : Phase) : (s.setPhase p).draws = s.draws := rfl
@[simp] theorem State.trace_setPhase (s : State) (p : Phase) : (s.setPhase p).trace = s.trace := rfl

/-! ### `resetBlock` -/

@[simp] theorem State.img_resetBlock (s : State) : (s.resetBlock).img = [] := rfl
@[simp] theorem State.rmode_resetBlock (s : State) : (s.resetBlock).rmode = none := rfl
@[simp] theorem State.cfg_resetBlock (s : State) : (s.resetBlock).cfg = none := rfl
@[simp] theorem State.pwm_resetBlock (s : State) : (s.resetBlock).pwm = Pwm.reset := rfl
@[simp] theorem State.params_resetBlock (s : State) : (s.resetBlock).params = s.params := rfl
@[simp] theorem State.hung_resetBlock (s : State) : (s.resetBlock).hung = false := rfl
@[simp] theorem State.cmdPort_resetBlock (s : State) : (s.resetBlock).cmdPort = s.cmdPort := rfl
@[simp] theorem State.timerPort_resetBlock (s : State) : (s.resetBlock).timerPort = s.timerPort := rfl
@[simp] theorem State.order_resetBlock (s : State) : (s.resetBlock).order = s.order := rfl
@[simp] theorem State.answers_resetBlock (s : State) : (s.resetBlock).answers = s.answers := rfl
@[simp] theorem State.draws_resetBlock (s : State) : (s.resetBlock).draws = s.draws := rfl
@[simp] theorem State.trace_resetBlock (s : State) : (s.resetBlock).trace = s.trace := rfl

/-! ### `drawn` -/

@[simp] theorem State.img_drawn (s : State) : (s.drawn).img = s.img := by
  unfold State.drawn; split <;> rfl
@[simp] theorem State.rmode_drawn (s : State) : (s.drawn).rmode = s.rmode := by
  unfold State.drawn; split <;> rfl
@[simp] theorem State.cfg_drawn (s : State) : (s.drawn).cfg = s.cfg := by
  unfold State.drawn; split <;> rfl
@[simp] theorem State.pwm_drawn (s : State) : (s.drawn).pwm = s.pwm := by
  unfold State.drawn; split <;> rfl
@[simp] theorem State.params_drawn (s : State) : (s.drawn).params = s.params := by
  unfold State.drawn; split <;> rfl
@[simp] theorem State.hung_drawn (s : State) : (s.drawn).hung = s.hung := by
  unfold State.drawn; split <;> rfl
@[simp] theorem State.cmdPort_drawn (s : State) : (s.drawn).cmdPort = s.cmdPort := by
  unfold State.drawn; split <;> rfl
@[simp] theorem State.timerPort_drawn (s : State) : (s.drawn).timerPort = s.timerPort := by
  unfold State.drawn; split <;> rfl
@[simp] theorem State.order_drawn (s : State) : (s.drawn).order = s.order := by
  unfold State.drawn; split <;> rfl
@[simp] theorem State.answers_drawn (s : State) : (s.drawn).answers = s.answers.tail := by
  unfold State.drawn; split <;> simp_all
@[simp] theorem State.draws_drawn (s : State) : (s.drawn).draws = if s.answers = [] then s.draws + 1 else s.draws := by
  unfold State.drawn; split <;> simp_all
@[simp] theorem State.trace_drawn (s : State) : (s.drawn).trace = s.trace := by
  unfold State.drawn; split <;> rfl

/-! ### `tieSettled` -/

@[simp] theorem State.img_tieSettled (s : State) : (s.tieSettled).img = s.img := by
  unfold State.tieSettled; split <;> rfl
@[simp] theorem State.rmode_tieSettled (s : State) : (s.tieSettled).rmode = s.rmode := by
  unfold State.tieSettled; split <;> rfl
@[simp] theorem State.cfg_tieSettled (s : State) : (s.tieSettled).cfg = s.cfg := by
  unfold State.tieSettled; split <;> rfl
@[simp] theorem State.pwm_tieSettled (s : State) : (s.tieSettled).pwm = s.pwm := by
  unfold State.tieSettled; split <;> rfl
@[simp] theorem State.params_tieSettled (s : State) : (s.tieSettled).params = s.params := by
  unfold State.tieSettled; split <;> rfl
@[simp] theorem State.hung_tieSettled (s : State) : (s.tieSettled).hung = s.hung := by
  unfold State.tieSettled; split <;> rfl
@[simp] theorem State.cmdPort_tieSettled (s : State) : (s.tieSettled).cmdPort = s.cmdPort := by
  unfold State.tieSettled; split <;> rfl
@[simp] theorem State.timerPort_tieSettled (s : State) : (s.tieSettled).timerPort = s.timerPort := by
  unfold State.tieSettled; split <;> rfl
@[simp] theorem State.order_tieSettled (s : State) : (s.tieSettled).order = s.order.tail := by
  unfold State.tieSettled; split <;> simp_all
@[simp] theorem State.answers_tieSettled (s : State) : (s.tieSettled).answers = s.answers := by
  unfold State.tieSettled; split <;> rfl
@[simp] theorem State.draws_tieSettled (s : State) : (s.tieSettled).draws = if s.order = [] then s.draws + 1 else s.draws := by
  unfold State.tieSettled; split <;> simp_all
@[simp] theorem State.trace_tieSettled (s : State) : (s.tieSettled).trace = s.trace := by
  unfold State.tieSettled; split <;> rfl

/-! ### `cancelTimer` -/

@[simp] theorem State.img_cancelTimer (s : State) : (s.cancelTimer).img = s.img := by
  unfold State.cancelTimer; split <;> rfl
@[simp] theorem State.rmode_cancelTimer (s : State) : (s.cancelTimer).rmode = s.rmode := by
  unfold State.cancelTimer; split <;> rfl
@[simp] theorem State.cfg_cancelTimer (s : State) : (s.cancelTimer).cfg = s.cfg := by
  unfold State.cancelTimer; split <;> rfl
@[simp] theorem State.pwm_cancelTimer (s : State) : (s.cancelTimer).pwm = { s.pwm with armed := false } := by
  unfold State.cancelTimer; split
  · rfl
  · cases hp : s.pwm; simp_all
@[simp] theorem State.params_cancelTimer (s : State) : (s.cancelTimer).params = s.params := by
  unfold State.cancelTimer; split <;> rfl
@[simp] theorem State.hung_cancelTimer (s : State) : (s.cancelTimer).hung = s.hung := by
  unfold State.cancelTimer; split <;> rfl
@[simp] theorem State.cmdPort_cancelTimer (s : State) : (s.cancelTimer).cmdPort = s.cmdPort := by
  unfold State.cancelTimer; split <;> rfl
@[simp] theorem State.timerPort_cancelTimer (s : State) : (s.cancelTimer).timerPort = s.timerPort := by
  unfold State.cancelTimer; split <;> rfl
@[simp] theorem State.order_cancelTimer (s : State) : (s.cancelTimer).order = s.order := by
  unfold State.cancelTimer; split <;> rfl
@[simp] theorem State.answers_cancelTimer (s : State) : (s.cancelTimer).answers = s.answers := by
  unfold State.cancelTimer; split <;> rfl
@[simp] theorem State.draws_cancelTimer (s : State) : (s.cancelTimer).draws = s.draws := by
  unfold State.cancelTimer; split <;> rfl
@[simp] theorem State.trace_cancelTimer (s : State) : (s.cancelTimer).trace = s.trace ++ (if s.pwm.armed then [.timerCancel s.pwm.handle] else []) := by
  unfold State.cancelTimer; split <;> simp_all

end Sys2Proof.Machine
end

