-- ==== Sys2Proof/Laws/Bus.lean ====
section
/-! SUPPORT. What a bus request can do, said once: three ends of a write, three of a read; and what the ends of a body
do. -/

namespace Sys2Proof.Machine

/-- The state after a bus write was answered, hung or not. -/
theorem State.busWrite_ok {s : State} (reg : Byte) (bytes : List Byte) (h : writeAnswer s.nextAnswer = .ok) :
    s.busWrite reg bytes = .done (s.drawn.emit (.busWrite s.params.devAddr reg bytes .ok)) := by
  simp only [State.busWrite, h]

theorem State.busWrite_fail {s : State} (reg : Byte) (bytes : List Byte) (h : writeAnswer s.nextAnswer = .fail) :
    s.busWrite reg bytes = .failed (s.drawn.emit (.busWrite s.params.devAddr reg bytes .fail)) := by
  simp only [State.busWrite, h]

theorem State.busWrite_silent {s : State} (reg : Byte) (bytes : List Byte) (h : writeAnswer s.nextAnswer = .silent) :
    s.busWrite reg bytes =
      .hung { s.drawn.emit (.busWrite s.params.devAddr reg bytes .silent) with hung := true } := by
  simp only [State.busWrite, h]

/-- The ends of a bus write, all of them. -/
theorem State.busWrite_cases (s : State) (reg : Byte) (bytes : List Byte) :
    (writeAnswer s.nextAnswer = .ok ∧
      s.busWrite reg bytes = .done (s.drawn.emit (.busWrite s.params.devAddr reg bytes .ok))) ∨
    (writeAnswer s.nextAnswer = .fail ∧
      s.busWrite reg bytes = .failed (s.drawn.emit (.busWrite s.params.devAddr reg bytes .fail))) ∨
    (writeAnswer s.nextAnswer = .silent ∧ s.busWrite reg bytes =
      .hung { s.drawn.emit (.busWrite s.params.devAddr reg bytes .silent) with hung := true }) := by
  cases h : writeAnswer s.nextAnswer
  · exact .inl ⟨rfl, State.busWrite_ok reg bytes h⟩
  · exact .inr (.inl ⟨rfl, State.busWrite_fail reg bytes h⟩)
  · exact .inr (.inr ⟨rfl, State.busWrite_silent reg bytes h⟩)

/-- The ends of a bus read, all of them. -/
theorem State.busRead_cases (s : State) (reg : Byte) (n : Nat) (k : List Byte → State → State) :
    (∃ bytes, s.nextAnswer = .ok bytes ∧
      s.busRead reg n k = k bytes (s.drawn.emit (.busRead s.params.devAddr reg n (.ok bytes)))) ∨
    (s.nextAnswer = .fail ∧ s.busRead reg n k =
      (s.drawn.emit (.busRead s.params.devAddr reg n .fail)).raise .command .transportFailure) ∨
    (s.nextAnswer = .silent ∧ s.busRead reg n k =
      { s.drawn.emit (.busRead s.params.devAddr reg n .silent) with hung := true }) := by
  cases h : s.nextAnswer with
  | ok bytes => exact .inl ⟨bytes, rfl, by simp only [State.busRead, h]⟩
  | fail => exact .inr (.inl ⟨rfl, by simp only [State.busRead, h]⟩)
  | silent => exact .inr (.inr ⟨rfl, by simp only [State.busRead, h]⟩)

theorem State.nextAnswer_of_answers {s : State} {a : BusAnswer} {rest : List BusAnswer} (h : s.answers = a :: rest) :
    s.nextAnswer = a := by simp only [State.nextAnswer, h]

@[simp] theorem State.nextAnswer_emit (s : State) (e : Event) : (s.emit e).nextAnswer = s.nextAnswer := rfl
@[simp] theorem State.nextAnswer_setPhase (s : State) (p : Phase) : (s.setPhase p).nextAnswer = s.nextAnswer := rfl
@[simp] theorem State.nextAnswer_armTimer (s : State) (n : Nat) : (s.armTimer n).nextAnswer = s.nextAnswer := rfl
@[simp] theorem State.nextAnswer_cancelTimer (s : State) : s.cancelTimer.nextAnswer = s.nextAnswer := by
  unfold State.cancelTimer; split <;> rfl

@[simp] theorem Ended.finish_done (p : Port) (s : State) : (Ended.done s).finish p = s.respond p .ok .none := rfl
@[simp] theorem Ended.finish_failed (p : Port) (s : State) :
    (Ended.failed s).finish p = s.raise p .transportFailure := rfl
@[simp] theorem Ended.finish_hung (p : Port) (s : State) : (Ended.hung s).finish p = s := rfl
@[simp] theorem Ended.andThen_done (s : State) (k : State → Ended) : (Ended.done s).andThen k = k s := rfl
@[simp] theorem Ended.andThen_failed (s : State) (k : State → Ended) : (Ended.failed s).andThen k = .failed s := rfl
@[simp] theorem Ended.andThen_hung (s : State) (k : State → Ended) : (Ended.hung s).andThen k = .hung s := rfl

end Sys2Proof.Machine
end

