-- ==== Sys2Proof/Laws/Encoder.lean ====
section
/-! SUPPORT. What the encoding functions and CONFIGURE's validation do, said once. -/

namespace Sys2Proof.Machine

/-! ### Tokens -/

theorem axesOf_valid {a : Byte} (h : a.toNat < 8) : axesOf a = some a := if_pos h
theorem axesOf_invalid {a : Byte} (h : 8 ≤ a.toNat) : axesOf a = none := if_neg (by omega)

theorem byte_of_toNat {b : Byte} {n : Nat} (h : b.toNat = n) : b = BitVec.ofNat 8 n := by
  subst h; simp

theorem modeOf_valid {m : Byte} (h : m.toNat ≤ 2) : modeOf m = some (tokenMode m) := by
  rcases (by omega : m.toNat = 0 ∨ m.toNat = 1 ∨ m.toNat = 2) with h | h | h <;> rw [byte_of_toNat h] <;> rfl

theorem modeOf_invalid {m : Byte} (h : 2 < m.toNat) : modeOf m = none := by
  unfold modeOf; split <;> first | omega | rfl

theorem rangeOf_invalid {g : Byte} (h : 3 < g.toNat) : rangeOf g = none := by
  unfold rangeOf; split <;> first | omega | rfl

theorem rateOf_invalid {r : Byte} (h : 10 < r.toNat) : rateOf r = none := by
  unfold rateOf; split <;> first | omega | rfl

theorem unitOf_invalid {u : Byte} (h : 1 < u.toNat) : unitOf u = none := by
  unfold unitOf; split <;> first | omega | rfl

theorem unitOf_valid {u : Byte} (h : u.toNat ≤ 1) : unitOf u = some (tokenUnit u) := by
  rcases (by omega : u.toNat = 0 ∨ u.toNat = 1) with h | h <;> rw [byte_of_toNat h] <;> rfl

/-- A valid range token names a range whose code is the token and whose divisor is the table's. -/
theorem rangeOf_valid {g : Byte} (h : g.toNat ≤ 3) :
    ∃ x, rangeOf g = some x ∧ fsCode x = g ∧ divOf x = tokenDivisor g := by
  rcases (by omega : g.toNat = 0 ∨ g.toNat = 1 ∨ g.toNat = 2 ∨ g.toNat = 3) with h | h | h | h <;>
    rw [byte_of_toNat h] <;> exact ⟨_, rfl, rfl, rfl⟩

/-- A valid rate token names a rate whose code is the table's and whose compatibility is `RateLegal`. -/
theorem rateOf_valid {r : Byte} (h : r.toNat ≤ 10) :
    ∃ x, rateOf r = some x ∧ odrCode x = tokenCode r ∧ ∀ m, (compat x m = true ↔ RateLegal r m) := by
  rcases (by omega : r.toNat = 0 ∨ r.toNat = 1 ∨ r.toNat = 2 ∨ r.toNat = 3 ∨ r.toNat = 4 ∨ r.toNat = 5 ∨
    r.toNat = 6 ∨ r.toNat = 7 ∨ r.toNat = 8 ∨ r.toNat = 9 ∨ r.toNat = 10) with
    h | h | h | h | h | h | h | h | h | h | h <;>
    rw [byte_of_toNat h] <;> exact ⟨_, rfl, rfl, fun m => by rcases m with _ | m <;> [skip; cases m] <;> decide⟩

theorem tokenCode_le {r : Byte} (h : r.toNat ≤ 10) : (tokenCode r).toNat ≤ 9 := by
  unfold tokenCode
  split
  · decide
  · rename_i hr
    have : r.toNat ≠ 10 := fun e => hr (BitVec.eq_of_toNat_eq e)
    omega

theorem lpenBit_tokenMode {m : Byte} : lpenBit (tokenMode m) = if m = 0 then 1 else 0 := by
  unfold lpenBit tokenMode; split_ifs <;> simp_all

theorem hrBit_tokenMode {m : Byte} (h : m.toNat ≤ 2) : hrBit (tokenMode m) = if m = 2 then 1 else 0 := by
  rcases (by omega : m.toNat = 0 ∨ m.toNat = 1 ∨ m.toNat = 2) with h | h | h <;> rw [byte_of_toNat h] <;> rfl

theorem lpenBit_lt (m : Mode) : (lpenBit m).toNat < 2 := by cases m <;> decide
theorem hrBit_lt (m : Mode) : (hrBit m).toNat < 2 := by cases m <;> decide

/-! ### Encoding functions -/

theorem encAxes_valid {a : Byte} (w : Memory) (h : a.toNat < 8) : encAxes w a = .ok (w.setField 0 2 0 a) := by
  simp only [encAxes, axesOf_valid h]

theorem encAxes_invalid {a : Byte} (w : Memory) (h : 8 ≤ a.toNat) : encAxes w a = .error .invalidParameter := by
  simp only [encAxes, axesOf_invalid h]

theorem encRes_valid {m : Byte} (w : Memory) (h : m.toNat ≤ 2) : encRes w m =
    .ok ((w.setField 0 3 3 (lpenBit (tokenMode m))).setField 3 3 3 (hrBit (tokenMode m)), tokenMode m) := by
  simp only [encRes, modeOf_valid h]

theorem encRes_invalid {m : Byte} (w : Memory) (h : 2 < m.toNat) : encRes w m = .error .invalidParameter := by
  simp only [encRes, modeOf_invalid h]

theorem encRate_valid {r : Byte} (w : Memory) {m : Option Mode} (h : r.toNat ≤ 10) (hl : RateLegal r m) :
    encRate w r m = .ok (w.setField 0 7 4 (tokenCode r)) := by
  obtain ⟨x, hx, hc, hm⟩ := rateOf_valid h
  simp only [encRate, hx, (hm m).mpr hl, if_true, hc]

theorem encRate_illegal {r : Byte} (w : Memory) {m : Option Mode} (h : r.toNat ≤ 10) (hl : ¬ RateLegal r m) :
    encRate w r m = .error .incompatibleConfiguration := by
  obtain ⟨x, hx, hc, hm⟩ := rateOf_valid h
  have : ¬ compat x m = true := fun e => hl ((hm m).mp e)
  simp only [encRate, hx, this]
  rfl

theorem encRate_invalid {r : Byte} (w : Memory) (m : Option Mode) (h : 10 < r.toNat) :
    encRate w r m = .error .invalidParameter := by simp only [encRate, rateOf_invalid h]

theorem encRange_valid {g : Byte} (w : Memory) (h : g.toNat ≤ 3) :
    encRange w g = .ok (w.setField 3 5 4 g, tokenDivisor g) := by
  obtain ⟨x, hx, hc, hd⟩ := rangeOf_valid h
  simp only [encRange, hx, hc, hd]

theorem encRange_invalid {g : Byte} (w : Memory) (h : 3 < g.toNat) : encRange w g = .error .invalidParameter := by
  simp only [encRange, rangeOf_invalid h]

theorem checkUnit_valid {u : Byte} (h : u.toNat ≤ 1) : checkUnit u = .ok (tokenUnit u) := by
  simp only [checkUnit, unitOf_valid h]

theorem checkUnit_invalid {u : Byte} (h : 1 < u.toNat) : checkUnit u = .error .invalidParameter := by
  simp only [checkUnit, unitOf_invalid h]

/-! ### CONFIGURE's validation -/

/-- The image `validate` yields (43_driver.md R202). -/
def validatedImage (w : Memory) (a m r g : Byte) : Memory :=
  ((((w.setField 0 2 0 a).setField 0 3 3 (lpenBit (tokenMode m))).setField 3 3 3 (hrBit (tokenMode m))).setField 0 7 4
    (tokenCode r)).setField 3 5 4 g

theorem validate_valid {a m r g u : Byte} (w : Memory) (h : ConfigureValid a m r g u) :
    validate w a m r g u = .ok ⟨validatedImage w a m r g, tokenMode m, ⟨tokenDivisor g, tokenUnit u⟩⟩ := by
  obtain ⟨ha, hm, hr, hl, hg, hu⟩ := h
  simp only [validate, encAxes_valid _ ha, encRes_valid _ hm, encRate_valid _ hr hl, encRange_valid _ hg,
    checkUnit_valid hu, validatedImage]

theorem validate_error {a m r g u : Byte} {e : Status} (w : Memory) (h : ConfigureError a m r g u e) :
    validate w a m r g u = .error e := by
  unfold ConfigureError at h
  split at h
  · simp only [validate, encAxes_invalid _ ‹_›, h]
  rename_i ha
  have ha : a.toNat < 8 := by omega
  split at h
  · simp only [validate, encAxes_valid _ ha, encRes_invalid _ ‹_›, h]
  rename_i hm
  have hm : m.toNat ≤ 2 := by omega
  split at h
  · simp only [validate, encAxes_valid _ ha, encRes_valid _ hm, encRate_invalid _ _ ‹_›, h]
  rename_i hr
  have hr : r.toNat ≤ 10 := by omega
  split at h
  · simp only [validate, encAxes_valid _ ha, encRes_valid _ hm, encRate_illegal _ hr ‹_›, h]
  rename_i hl
  have hl := not_not.mp hl
  split at h
  · simp only [validate, encAxes_valid _ ha, encRes_valid _ hm, encRate_valid _ hr hl, encRange_invalid _ ‹_›, h]
  rename_i hg
  have hg : g.toNat ≤ 3 := by omega
  split at h
  · simp only [validate, encAxes_valid _ ha, encRes_valid _ hm, encRate_valid _ hr hl, encRange_valid _ hg,
      checkUnit_invalid ‹_›, h]
  · exact h.elim

/-- Either every check passes, or the first that fails has a status; never both. -/
theorem configure_valid_or_error (a m r g u : Byte) :
    ConfigureValid a m r g u ∨ ∃ e, ConfigureError a m r g u e := by
  unfold ConfigureError ConfigureValid
  by_cases ha : 8 ≤ a.toNat
  · exact .inr ⟨_, by rw [if_pos ha]⟩
  by_cases hm : 2 < m.toNat
  · exact .inr ⟨_, by rw [if_neg ha, if_pos hm]⟩
  by_cases hr : 10 < r.toNat
  · exact .inr ⟨_, by rw [if_neg ha, if_neg hm, if_pos hr]⟩
  by_cases hl : ¬ RateLegal r (some (tokenMode m))
  · exact .inr ⟨_, by rw [if_neg ha, if_neg hm, if_neg hr, if_pos hl]⟩
  by_cases hg : 3 < g.toNat
  · exact .inr ⟨_, by rw [if_neg ha, if_neg hm, if_neg hr, if_neg hl, if_pos hg]⟩
  by_cases hu : 1 < u.toNat
  · exact .inr ⟨_, by rw [if_neg ha, if_neg hm, if_neg hr, if_neg hl, if_neg hg, if_pos hu]⟩
  exact .inl ⟨by omega, by omega, by omega, not_not.mp hl, by omega, by omega⟩

theorem wf_validatedImage {w : Memory} (a m r g : Byte) (h : w.wf = true) : (validatedImage w a m r g).wf = true := by
  unfold validatedImage
  iterate 5 apply Memory.wf_setField _ _ _ ?_ (by decide)
  exact h

theorem validatedImage_encodes {a m r g : Byte} (w : Memory) (ha : a.toNat < 8) (hm : m.toNat ≤ 2)
    (hr : r.toNat ≤ 10) (hg : g.toNat ≤ 3) : EncodesConfig w (validatedImage w a m r g) a m r g := by
  have hc := tokenCode_le hr
  have hlp := lpenBit_lt (tokenMode m)
  have hhr := hrBit_lt (tokenMode m)
  unfold EncodesConfig validatedImage
  refine ⟨?_, ?_, ?_, ?_, ?_, ?_, ?_, ?_⟩
  · rw [Memory.field_setField_byte _ _ _ _ _ _ (by decide), Memory.field_setField_disjoint _ _ _ _ _ _ _ (by decide),
      Memory.field_setField_byte _ _ _ _ _ _ (by decide), Memory.field_setField_disjoint _ _ _ _ _ _ _ (by decide),
      Memory.field_setField_same _ _ _ _ (by decide) (by decide) (by omega)]
  · rw [Memory.field_setField_byte _ _ _ _ _ _ (by decide), Memory.field_setField_disjoint _ _ _ _ _ _ _ (by decide),
      Memory.field_setField_byte _ _ _ _ _ _ (by decide),
      Memory.field_setField_same _ _ _ _ (by decide) (by decide) (by omega), lpenBit_tokenMode]
  · rw [Memory.field_setField_byte _ _ _ _ _ _ (by decide),
      Memory.field_setField_same _ _ _ _ (by decide) (by decide) (by omega)]
  · rw [Memory.field_setField_same _ _ _ _ (by decide) (by decide) (by omega)]
  · rw [Memory.field_setField_disjoint _ _ _ _ _ _ _ (by decide), Memory.field_setField_byte _ _ _ _ _ _ (by decide),
      Memory.field_setField_same _ _ _ _ (by decide) (by decide) (by omega), hrBit_tokenMode hm]
  · rw [Memory.field_setField_disjoint _ _ _ _ _ _ _ (by decide), Memory.field_setField_byte _ _ _ _ _ _ (by decide),
      Memory.field_setField_disjoint _ _ _ _ _ _ _ (by decide), Memory.field_setField_byte _ _ _ _ _ _ (by decide),
      Memory.field_setField_byte _ _ _ _ _ _ (by decide)]
  · rw [Memory.field_setField_disjoint _ _ _ _ _ _ _ (by decide), Memory.field_setField_byte _ _ _ _ _ _ (by decide),
      Memory.field_setField_disjoint _ _ _ _ _ _ _ (by decide), Memory.field_setField_byte _ _ _ _ _ _ (by decide),
      Memory.field_setField_byte _ _ _ _ _ _ (by decide)]
  · intro j h0 h3 _
    simp only [Memory.read_setField, h0, h3, if_false]

theorem validatedImage_read {a m r g : Byte} (w : Memory) {j : Nat} (h0 : j ≠ 0) (h3 : j ≠ 3) :
    (validatedImage w a m r g).read j = w.read j := by
  simp only [validatedImage, Memory.read_setField, h0, h3, if_false]

/-! ### What the encoder commands, DECODE and a rejected CONFIGURE answer -/

theorem exec_setAxes_valid {a : Byte} (s : State) (h : a.toNat < 8) : exec (.setAxes a) s =
    .next ({ s with img := s.img.setField 0 2 0 a }.respond .command .ok .none) := by
  simp only [exec, execSetAxes, encAxes_valid _ h]

theorem exec_setAxes_invalid {a : Byte} (s : State) (h : 8 ≤ a.toNat) : exec (.setAxes a) s =
    .next (s.raise .command .invalidParameter) := by simp only [exec, execSetAxes, encAxes_invalid _ h]

theorem exec_setRes_valid {m : Byte} (s : State) (h : m.toNat ≤ 2) : exec (.setRes m) s =
    .next ((s.committed ((s.img.setField 0 3 3 (lpenBit (tokenMode m))).setField 3 3 3 (hrBit (tokenMode m)))
      (tokenMode m)).respond .command .ok .none) := by
  simp only [exec, execSetRes, encRes_valid _ h, State.committed]

theorem exec_setRes_invalid {m : Byte} (s : State) (h : 2 < m.toNat) : exec (.setRes m) s =
    .next (s.raise .command .invalidParameter) := by simp only [exec, execSetRes, encRes_invalid _ h]

theorem exec_setRate_valid {r : Byte} (s : State) (h : r.toNat ≤ 10) (hl : RateLegal r s.rmode) :
    exec (.setRate r) s =
      .next ({ s with img := s.img.setField 0 7 4 (tokenCode r) }.respond .command .ok .none) := by
  simp only [exec, execSetRate, encRate_valid _ h hl]

theorem exec_setRate_illegal {r : Byte} (s : State) (h : r.toNat ≤ 10) (hl : ¬ RateLegal r s.rmode) :
    exec (.setRate r) s = .next (s.raise .command .incompatibleConfiguration) := by
  simp only [exec, execSetRate, encRate_illegal _ h hl]

theorem exec_setRate_invalid {r : Byte} (s : State) (h : 10 < r.toNat) :
    exec (.setRate r) s = .next (s.raise .command .invalidParameter) := by
  simp only [exec, execSetRate, encRate_invalid _ _ h]

theorem exec_setRange_valid {g : Byte} (s : State) (h : g.toNat ≤ 3) : exec (.setRange g) s =
    .next ({ s with img := s.img.setField 3 5 4 g }.respond .command .ok
      (.divisor (BitVec.ofNat 16 (divValue (tokenDivisor g))))) := by
  simp only [exec, execSetRange, encRange_valid _ h]

theorem exec_setRange_invalid {g : Byte} (s : State) (h : 3 < g.toNat) : exec (.setRange g) s =
    .next (s.raise .command .invalidParameter) := by simp only [exec, execSetRange, encRange_invalid _ h]

theorem exec_setUnit_valid {u : Byte} (s : State) (h : u.toNat ≤ 1) : exec (.setUnit u) s =
    .next (s.respond .command .ok .none) := by simp only [exec, execSetUnit, checkUnit_valid h]

theorem exec_setUnit_invalid {u : Byte} (s : State) (h : 1 < u.toNat) : exec (.setUnit u) s =
    .next (s.raise .command .invalidParameter) := by simp only [exec, execSetUnit, checkUnit_invalid h]

theorem exec_decode_valid {g u : Byte} (b0 b1 b2 b3 b4 b5 : Byte) (s : State) (hg : g.toNat ≤ 3) (hu : u.toNat ≤ 1) :
    exec (.decode g u b0 b1 b2 b3 b4 b5) s = .next (s.respond .command .ok
      (.samples (decodeLane b0 b1 (tokenDivisor g) (tokenUnit u)) (decodeLane b2 b3 (tokenDivisor g) (tokenUnit u))
        (decodeLane b4 b5 (tokenDivisor g) (tokenUnit u)))) := by
  obtain ⟨x, hx, -, hd⟩ := rangeOf_valid hg
  simp only [exec, execDecode, hx, checkUnit_valid hu, hd, decodeSamples, State.respondSamples]

theorem exec_decode_invalid {g u : Byte} (b0 b1 b2 b3 b4 b5 : Byte) (s : State) (h : 3 < g.toNat ∨ 1 < u.toNat) :
    exec (.decode g u b0 b1 b2 b3 b4 b5) s = .next (s.raise .command .invalidParameter) := by
  by_cases hg : 3 < g.toNat
  · simp only [exec, execDecode, rangeOf_invalid hg]
  · obtain ⟨x, hx, -, -⟩ := rangeOf_valid (g := g) (by omega)
    simp only [exec, execDecode, hx, checkUnit_invalid (u := u) (by omega)]

theorem exec_configure_valid {a m r g u : Byte} (d : Byte) (s : State) (h : ConfigureValid a m r g u) :
    exec (.configure a m r g u d) s = .next ((((((s.committed (validatedImage s.img a m r g) (tokenMode m)).dutyStep d).andThen
      State.writeControlBlock).andThen
        (fun t => .done { t with cfg := some ⟨tokenDivisor g, tokenUnit u⟩ })).finish .command)) := by
  simp only [exec, execConfigure, validate_valid _ h, State.applyConfig, State.committed]

theorem exec_configure_error {a m r g u : Byte} {e : Status} (d : Byte) (s : State) (h : ConfigureError a m r g u e) :
    exec (.configure a m r g u d) s = .next (s.raise .command e) := by
  simp only [exec, execConfigure, validate_error _ h]

/-- What an image encoder answered `OK` did. -/
theorem imageEncoder_ok {i : Instr} {s t : State} (hi : isImageEncoder i = true) (h : exec i s = .next t)
    (hl : lastStatus t = some .ok) :
    (∃ a : Byte, i = .setAxes a ∧ a.toNat < 8 ∧ t.img = s.img.setField 0 2 0 a ∧ t.rmode = s.rmode) ∨
    (∃ m : Byte, i = .setRes m ∧ m.toNat ≤ 2 ∧ t.img = (s.img.setField 0 3 3 (lpenBit (tokenMode m))).setField 3 3 3
      (hrBit (tokenMode m)) ∧ t.rmode = some (tokenMode m)) ∨
    (∃ r : Byte, i = .setRate r ∧ r.toNat ≤ 10 ∧ RateLegal r s.rmode ∧
      t.img = s.img.setField 0 7 4 (tokenCode r) ∧ t.rmode = s.rmode) ∨
    (∃ g : Byte, i = .setRange g ∧ g.toNat ≤ 3 ∧ t.img = s.img.setField 3 5 4 g ∧ t.rmode = s.rmode) := by
  cases i with
  | setAxes a =>
    by_cases hv : a.toNat < 8
    · rw [exec_setAxes_valid s hv] at h; cases h
      exact .inl ⟨a, rfl, hv, rfl, rfl⟩
    · rw [exec_setAxes_invalid s (by omega)] at h; cases h
      simp [lastStatus] at hl
  | setRes a =>
    by_cases hv : a.toNat ≤ 2
    · rw [exec_setRes_valid s hv] at h; cases h
      exact .inr (.inl ⟨a, rfl, hv, rfl, rfl⟩)
    · rw [exec_setRes_invalid s (by omega)] at h; cases h
      simp [lastStatus] at hl
  | setRate a =>
    by_cases hv : a.toNat ≤ 10
    · by_cases hr : RateLegal a s.rmode
      · rw [exec_setRate_valid s hv hr] at h; cases h
        exact .inr (.inr (.inl ⟨a, rfl, hv, hr, rfl, rfl⟩))
      · rw [exec_setRate_illegal s hv hr] at h; cases h
        simp [lastStatus] at hl
    · rw [exec_setRate_invalid s (by omega)] at h; cases h
      simp [lastStatus] at hl
  | setRange a =>
    by_cases hv : a.toNat ≤ 3
    · rw [exec_setRange_valid s hv] at h; cases h
      exact .inr (.inr (.inr ⟨a, rfl, hv, rfl, rfl⟩))
    · rw [exec_setRange_invalid s (by omega)] at h; cases h
      simp [lastStatus] at hl
  | _ => simp [isImageEncoder] at hi

theorem Memory.field_toNat_lt (w : Memory) (i : Nat) {hi lo : Nat} : (w.field i hi lo).toNat < 2 ^ (hi + 1 - lo) := by
  apply Nat.lt_pow_two_of_testBit
  intro j hj
  have : (byteField (w.read i) hi lo).getLsbD j = false := by
    rw [getLsbD_byteField]; simp [show ¬ lo + j ≤ hi by omega]
  exact this

end Sys2Proof.Machine
end

