-- ==== Sys2Proof/Laws/SoftPwm.lean ====
section
/-! SUPPORT. What SETDUTY, TFIRE and CONFIGURE's tail can do, said once: every path ends in one of a few named states,
over one description of a write that was issued. -/

namespace Sys2Proof.Machine

/-- `s` after a bus write of `bytes` to `reg` was issued and answered `a`. -/
def State.wrote (s : State) (reg : Byte) (bytes : List Byte) (a : WriteAnswer) : State :=
  { s.drawn with trace := s.trace ++ [.busWrite s.params.devAddr reg bytes a],
                 hung := s.hung || a == .silent }

@[simp] theorem State.img_wrote (s : State) (r : Byte) (b : List Byte) (a : WriteAnswer) :
    (s.wrote r b a).img = s.img := by simp [State.wrote]
@[simp] theorem State.rmode_wrote (s : State) (r : Byte) (b : List Byte) (a : WriteAnswer) :
    (s.wrote r b a).rmode = s.rmode := by simp [State.wrote]
@[simp] theorem State.cfg_wrote (s : State) (r : Byte) (b : List Byte) (a : WriteAnswer) :
    (s.wrote r b a).cfg = s.cfg := by simp [State.wrote]
@[simp] theorem State.pwm_wrote (s : State) (r : Byte) (b : List Byte) (a : WriteAnswer) :
    (s.wrote r b a).pwm = s.pwm := by simp [State.wrote]
@[simp] theorem State.params_wrote (s : State) (r : Byte) (b : List Byte) (a : WriteAnswer) :
    (s.wrote r b a).params = s.params := by simp [State.wrote]
@[simp] theorem State.hung_wrote (s : State) (r : Byte) (b : List Byte) (a : WriteAnswer) :
    (s.wrote r b a).hung = (s.hung || a == .silent) := rfl
@[simp] theorem State.cmdPort_wrote (s : State) (r : Byte) (b : List Byte) (a : WriteAnswer) :
    (s.wrote r b a).cmdPort = s.cmdPort := by simp [State.wrote]
@[simp] theorem State.timerPort_wrote (s : State) (r : Byte) (b : List Byte) (a : WriteAnswer) :
    (s.wrote r b a).timerPort = s.timerPort := by simp [State.wrote]
@[simp] theorem State.order_wrote (s : State) (r : Byte) (b : List Byte) (a : WriteAnswer) :
    (s.wrote r b a).order = s.order := by simp [State.wrote]
@[simp] theorem State.answers_wrote (s : State) (r : Byte) (b : List Byte) (a : WriteAnswer) :
    (s.wrote r b a).answers = s.answers.tail := by simp [State.wrote]
@[simp] theorem State.draws_wrote (s : State) (r : Byte) (b : List Byte) (a : WriteAnswer) :
    (s.wrote r b a).draws = if s.answers = [] then s.draws + 1 else s.draws := by simp [State.wrote]
@[simp] theorem State.trace_wrote (s : State) (r : Byte) (b : List Byte) (a : WriteAnswer) :
    (s.wrote r b a).trace = s.trace ++ [.busWrite s.params.devAddr r b a] := rfl

/-- How a write that was answered `a` ends. -/
def Ended.of : WriteAnswer → State → Ended
  | .ok, s => .done s
  | .fail, s => .failed s
  | .silent, s => .hung s

/-- A bus write, said once. -/
theorem State.busWrite_eq (s : State) (reg : Byte) (bytes : List Byte) :
    s.busWrite reg bytes = Ended.of (nextWrite s) (s.wrote reg bytes (nextWrite s)) := by
  have hh : s.drawn.hung = s.hung := State.hung_drawn s
  have ht : s.drawn.trace = s.trace := State.trace_drawn s
  simp only [State.busWrite, nextWrite, State.wrote]
  rw [← hh, ← ht]
  cases writeAnswer s.nextAnswer <;> simp [Ended.of, State.emit]

@[simp] theorem nextWrite_setPhase (s : State) (p : Phase) : nextWrite (s.setPhase p) = nextWrite s := rfl
@[simp] theorem nextWrite_cancelTimer (s : State) : nextWrite s.cancelTimer = nextWrite s := by
  simp [nextWrite]
@[simp] theorem nextWrite_loadDuty (s : State) (d : Byte) : nextWrite (s.loadDuty d) = nextWrite s := by
  have : nextWrite (s.loadDuty d) = nextWrite s.cancelTimer := rfl
  rw [this, nextWrite_cancelTimer]

/-- `pwmWrite`, said once (42_pwm.md R167). -/
theorem State.pwmWrite_eq (s : State) (v : Byte) : s.pwmWrite v =
    Ended.of (nextWrite s) ({ s with img := s.img.write 5 v }.wrote (indAddr s.params) [v] (nextWrite s)) :=
  State.busWrite_eq _ _ _

/-! ### SETDUTY -/

theorem clamp_stop {req : Int} (h : req ≤ 0 ∨ 10 ≤ req) : clamp req = (if req ≤ 0 then 0 else 10, true) := by
  unfold clamp pwmMax
  by_cases h0 : req ≤ 0
  · simp [h0]
  · simp [h0, show (10 : Int) ≤ req by omega]

theorem clamp_run {req : Int} (h0 : 0 < req) (h1 : req < 10) : clamp req = (req.toNat, false) := by
  simp [clamp, pwmMax, show ¬ req ≤ 0 by omega, show ¬ (10 : Int) ≤ req by omega]

/-- The registers SETDUTY loads: the timer cancelled, the duty and the stop flag clamped. -/
@[simp] theorem State.pwm_loadDuty (s : State) (d : Byte) : (s.loadDuty d).pwm =
    { s.pwm with armed := false, duty := (clamp d.toInt).1, stop := (clamp d.toInt).2 } := by
  simp [State.loadDuty, dutyRequest]

@[simp] theorem State.img_loadDuty (s : State) (d : Byte) : (s.loadDuty d).img = s.img := by simp [State.loadDuty]
@[simp] theorem State.rmode_loadDuty (s : State) (d : Byte) : (s.loadDuty d).rmode = s.rmode := by simp [State.loadDuty]
@[simp] theorem State.cfg_loadDuty (s : State) (d : Byte) : (s.loadDuty d).cfg = s.cfg := by simp [State.loadDuty]
@[simp] theorem State.params_loadDuty (s : State) (d : Byte) : (s.loadDuty d).params = s.params := by
  simp [State.loadDuty]
@[simp] theorem State.hung_loadDuty (s : State) (d : Byte) : (s.loadDuty d).hung = s.hung := by simp [State.loadDuty]
@[simp] theorem State.cmdPort_loadDuty (s : State) (d : Byte) : (s.loadDuty d).cmdPort = s.cmdPort := by
  simp [State.loadDuty]
@[simp] theorem State.timerPort_loadDuty (s : State) (d : Byte) : (s.loadDuty d).timerPort = s.timerPort := by
  simp [State.loadDuty]
@[simp] theorem State.order_loadDuty (s : State) (d : Byte) : (s.loadDuty d).order = s.order := by
  simp [State.loadDuty]
@[simp] theorem State.answers_loadDuty (s : State) (d : Byte) : (s.loadDuty d).answers = s.answers := by
  simp [State.loadDuty]
@[simp] theorem State.draws_loadDuty (s : State) (d : Byte) : (s.loadDuty d).draws = s.draws := by
  simp [State.loadDuty]
@[simp] theorem State.trace_loadDuty (s : State) (d : Byte) : (s.loadDuty d).trace = s.trace ++ cancelEvents s := by
  simp [State.loadDuty, cancelEvents]

/-- SETDUTY's output write: OFF or OFF_PHASE entered, 0x00 written. -/
def State.dutyWrite (s : State) (d : Byte) (p : Phase) : State :=
  { (s.loadDuty d).setPhase p with img := s.img.write 5 0x00 }.wrote (indAddr s.params) [0x00] (nextWrite s)

/-- The body of SETDUTY has three paths (42_pwm.md R166). -/
theorem State.setDutyBody_cases (s : State) (d : Byte) :
    ((d.toInt ≤ 0 ∨ 10 ≤ d.toInt) ∧ s.setDutyBody d = Ended.of (nextWrite s) (s.dutyWrite d .off)) ∨
    (0 < d.toInt ∧ d.toInt < 10 ∧ s.pwm.phase = .off ∧
      s.setDutyBody d = (Ended.of (nextWrite s) (s.dutyWrite d .offPhase)).armAfter d.toInt.toNat) ∨
    (0 < d.toInt ∧ d.toInt < 10 ∧ s.pwm.phase ≠ .off ∧ s.setDutyBody d = .done ((s.loadDuty d).armTimer
      (if s.pwm.phase = .onPhase then 10 - d.toInt.toNat else d.toInt.toNat))) := by
  by_cases hs : d.toInt ≤ 0 ∨ 10 ≤ d.toInt
  · refine .inl ⟨hs, ?_⟩
    rw [State.setDutyBody, if_pos (by simp [clamp_stop hs]), State.pwmWrite_eq]
    simp [State.dutyWrite]
  · have h0 : 0 < d.toInt := by omega
    have h1 : d.toInt < 10 := by omega
    refine .inr ?_
    rw [State.setDutyBody, if_neg (by simp [clamp_run h0 h1])]
    cases hp : s.pwm.phase with
    | off =>
      refine .inl ⟨h0, h1, rfl, ?_⟩
      simp [State.pwmWrite_eq, hp, clamp_run h0 h1, State.dutyWrite]
    | onPhase => exact .inr ⟨h0, h1, by simp, by simp [hp, clamp_run h0 h1, Pwm.period, pwmMax]⟩
    | offPhase => exact .inr ⟨h0, h1, by simp, by simp [hp, clamp_run h0 h1, Pwm.period]⟩

/-! ### TFIRE -/

/-- The phase an accepted fire enters (R171). -/
def Phase.toggled (p : Phase) : Phase := if p = .onPhase then .offPhase else .onPhase

/-- The level an accepted fire writes (R171). -/
def Phase.level (p : Phase) : Byte := if p = .onPhase then 0x00 else 0xFF

/-- `s` after an accepted fire's phase change and output write. -/
def State.fireWrite (s : State) : State :=
  { s with pwm := { s.pwm with armed := false, phase := s.pwm.phase.toggled },
           img := s.img.write 5 s.pwm.phase.level }.wrote (indAddr s.params) [s.pwm.phase.level] (nextWrite s)

/-- The body of an accepted fire has two paths (42_pwm.md R171, R172). -/
theorem State.fireBody_eq (s : State) : s.fireBody =
    if s.pwm.stop then Ended.of (nextWrite s) s.fireWrite
    else (Ended.of (nextWrite s) s.fireWrite).armAfter
      (if s.pwm.phase = .onPhase then s.pwm.duty else 10 - s.pwm.duty) := by
  have hn : ∀ q, nextWrite { s with pwm := q } = nextWrite s := fun _ => rfl
  cases hp : s.pwm.phase <;> cases hs : s.pwm.stop <;>
    simp [State.fireBody, State.togglePhase, State.pwmWrite_eq, hp, hs, Pwm.nextPeriod, pwmMax, State.fireWrite,
      Phase.toggled, Phase.level, State.setPhase, hn]

/-! ### Arming after a write -/

/-- The end of a write followed by the arm of R168 and R171, case by case. -/
theorem Ended.armAfter_of (a : WriteAnswer) (s : State) (n : Nat) :
    (a = .ok ∧ (Ended.of a s).armAfter n = .done (s.armTimer n)) ∨
    (a = .fail ∧ s.params.failPolicy = .continueArming ∧ (Ended.of a s).armAfter n = .failed (s.armTimer n)) ∨
    (a = .fail ∧ s.params.failPolicy = .halt ∧ (Ended.of a s).armAfter n = .failed s) ∨
    (a = .silent ∧ (Ended.of a s).armAfter n = .hung s) := by
  cases a
  · exact .inl ⟨rfl, rfl⟩
  · cases h : s.params.failPolicy
    · exact .inr (.inl ⟨rfl, rfl, by simp [Ended.of, Ended.armAfter, h]⟩)
    · exact .inr (.inr (.inl ⟨rfl, rfl, by simp [Ended.of, Ended.armAfter, h]⟩))
  · exact .inr (.inr (.inr ⟨rfl, rfl⟩))

end Sys2Proof.Machine
end

