-- ==== Sys2Proof/Laws/Trace.lean ====
section
/-! SUPPORT. What the outside world can tell, one output at a time. -/

namespace Sys2Proof.Machine

theorem lastWriteOk_append (a b : List Event) : lastWriteOk (a ++ b) = b.foldl lastWriteStep (lastWriteOk a) :=
  List.foldl_append

theorem outstanding_append (a b : List Event) : outstanding (a ++ b) = b.foldl outstandingStep (outstanding a) :=
  List.foldl_append

theorem indicatorLevel_append (a b : List Event) :
    indicatorLevel (a ++ b) = b.foldl indicatorStep (indicatorLevel a) := List.foldl_append

theorem pwmWriteFailed_append (a b : List Event) :
    pwmWriteFailed (a ++ b) = (pwmWriteFailed a || pwmWriteFailed b) := List.any_append

theorem lastStatus_of_trace {s : State} {es : List Event} {p : Port} {st : Status} {d : RespData}
    (h : s.trace = es ++ [.respond p st d]) : lastStatus s = some st := by
  simp [lastStatus, h, List.getLast?_append]

end Sys2Proof.Machine
end

