-- ==== Sys2Proof/Laws/Exec.lean ====
section
/-! SUPPORT. What `exec` and `step` can do, said once: invariants are case analyses over these two lemmas. -/

namespace Sys2Proof.Machine

/-- The statuses that leave nothing but a response (60_exceptions.md R232), and `OK`. -/
def plainStatus : Status → Bool
  | .transportFailure => false
  | .invalidInput => false
  | _ => true

/-- Everything an instruction can do. -/
inductive ExecCase (s : State) : Instr → State → Prop where
  /-- It only answers. -/
  | answer (i : Instr) (st : Status) (d : RespData) (hst : plainStatus st = true) (hd : st ≠ .ok → d = .none) :
      ExecCase s i (s.respond i.port st d)
  /-- SETAXES -/
  | axes (a : Byte) (ha : a.toNat < 8) :
      ExecCase s (.setAxes a) ({ s with img := s.img.setField 0 2 0 a }.respond .command .ok .none)
  /-- SETRES -/
  | res (m : Byte) (hm : m.toNat ≤ 2) :
      ExecCase s (.setRes m) ((s.committed ((s.img.setField 0 3 3 (lpenBit (tokenMode m))).setField 3 3 3
        (hrBit (tokenMode m))) (tokenMode m)).respond .command .ok .none)
  /-- SETRATE -/
  | rate (r : Byte) (hr : r.toNat ≤ 10) (hl : RateLegal r s.rmode) :
      ExecCase s (.setRate r) ({ s with img := s.img.setField 0 7 4 (tokenCode r) }.respond .command .ok .none)
  /-- SETRANGE -/
  | range (g : Byte) (hg : g.toNat ≤ 3) (d : RespData) :
      ExecCase s (.setRange g) ({ s with img := s.img.setField 3 5 4 g }.respond .command .ok d)
  /-- READ or IDENTIFY, answered `Ok`. -/
  | readOk (i : Instr) (hi : i = .read ∨ i = .identify) (reg : Byte) (n : Nat)
      (hr : (reg = s.params.dataAddr ∧ n = 6) ∨ (reg = s.params.idAddr ∧ n = 1)) (b : List Byte) (st : Status)
      (d : RespData) (hst : st = .ok ∨ st = .invalidInput) (hd : st ≠ .ok → d = .none) :
      ExecCase s i ((s.drawn.emit (.busRead s.params.devAddr reg n (.ok b))).respond .command st d)
  /-- READ or IDENTIFY, answered `Fail`. -/
  | readFail (i : Instr) (hi : i = .read ∨ i = .identify) (reg : Byte) (n : Nat)
      (hr : (reg = s.params.dataAddr ∧ n = 6) ∨ (reg = s.params.idAddr ∧ n = 1)) :
      ExecCase s i ((s.drawn.emit (.busRead s.params.devAddr reg n .fail)).raise .command .transportFailure)
  /-- READ or IDENTIFY, never answered. -/
  | readSilent (i : Instr) (hi : i = .read ∨ i = .identify) (reg : Byte) (n : Nat)
      (hr : (reg = s.params.dataAddr ∧ n = 6) ∨ (reg = s.params.idAddr ∧ n = 1)) :
      ExecCase s i { s.drawn.emit (.busRead s.params.devAddr reg n .silent) with hung := true }
  /-- SETDUTY -/
  | duty (d : Byte) (hp : s.params.hasPwm = true) : ExecCase s (.setDuty d) ((s.setDutyBody d).finish .command)
  /-- TFIRE with the armed handle -/
  | fire (hp : s.params.hasPwm = true) (ha : s.pwm.armed = true) :
      ExecCase s (.tfire s.pwm.handle) (s.fireBody.finish .timer)
  /-- CONFIGURE that passes validation -/
  | configure (a m r g u d : Byte) (h : ConfigureValid a m r g u) : ExecCase s (.configure a m r g u d)
      (((((s.committed (validatedImage s.img a m r g) (tokenMode m)).dutyStep d).andThen State.writeControlBlock).andThen
        (fun t => .done { t with cfg := some ⟨tokenDivisor g, tokenUnit u⟩ })).finish .command)

theorem decodeSamples_status (b : List Byte) (d : Divisor) (u : OutUnit) :
    (∃ v, decodeSamples b d u = .ok v) ∨ decodeSamples b d u = .error .invalidInput := by
  unfold decodeSamples; split
  · exact .inl ⟨_, rfl⟩
  · exact .inr rfl

/-- Every instruction answers a next state, and it is one of the cases. -/
theorem exec_cases (i : Instr) (s : State) : ∃ t, exec i s = .next t ∧ ExecCase s i t := by
  cases i with
  | setAxes a =>
    by_cases h : a.toNat < 8
    · exact ⟨_, exec_setAxes_valid s h, .axes a h⟩
    · exact ⟨_, exec_setAxes_invalid s (by omega), .answer (.setAxes a) .invalidParameter .none rfl (fun _ => rfl)⟩
  | setRes m =>
    by_cases h : m.toNat ≤ 2
    · exact ⟨_, exec_setRes_valid s h, .res m h⟩
    · exact ⟨_, exec_setRes_invalid s (by omega), .answer (.setRes m) .invalidParameter .none rfl (fun _ => rfl)⟩
  | setRate r =>
    by_cases h : r.toNat ≤ 10
    · by_cases hl : RateLegal r s.rmode
      · exact ⟨_, exec_setRate_valid s h hl, .rate r h hl⟩
      · exact ⟨_, exec_setRate_illegal s h hl,
          .answer (.setRate r) .incompatibleConfiguration .none rfl (fun _ => rfl)⟩
    · exact ⟨_, exec_setRate_invalid s (by omega), .answer (.setRate r) .invalidParameter .none rfl (fun _ => rfl)⟩
  | setRange g =>
    by_cases h : g.toNat ≤ 3
    · exact ⟨_, exec_setRange_valid s h, .range g h _⟩
    · exact ⟨_, exec_setRange_invalid s (by omega), .answer (.setRange g) .invalidParameter .none rfl (fun _ => rfl)⟩
  | setUnit u =>
    by_cases h : u.toNat ≤ 1
    · exact ⟨_, exec_setUnit_valid s h, .answer (.setUnit u) .ok .none rfl (fun _ => rfl)⟩
    · exact ⟨_, exec_setUnit_invalid s (by omega), .answer (.setUnit u) .invalidParameter .none rfl (fun _ => rfl)⟩
  | setDuty d =>
    cases hp : s.params.hasPwm with
    | true => exact ⟨_, by simp only [exec, execSetDuty, hp, if_true], .duty d hp⟩
    | false =>
      refine ⟨s.illegal .command, by simp [exec, execSetDuty, hp], ?_⟩
      exact .answer (.setDuty d) .illegalCommand .none rfl (fun _ => rfl)
  | configure a m r g u d =>
    rcases configure_valid_or_error a m r g u with h | ⟨e, h⟩
    · exact ⟨_, exec_configure_valid d s h, .configure a m r g u d h⟩
    · refine ⟨_, exec_configure_error d s h, .answer (.configure a m r g u d) e .none ?_ (fun _ => rfl)⟩
      unfold ConfigureError at h
      split_ifs at h <;> simp [h, plainStatus]
  | read =>
    cases hc : s.cfg with
    | none =>
      exact ⟨s.raise .command .notConfigured, by simp only [exec, execRead, hc],
        .answer .read .notConfigured .none rfl (fun _ => rfl)⟩
    | some c =>
      refine ⟨s.busRead s.params.dataAddr 6 (fun bytes t => t.respondSamples (decodeSamples bytes c.div c.unit)),
        by simp only [exec, execRead, hc], ?_⟩
      rcases State.busRead_cases s s.params.dataAddr 6
        (fun bytes t => t.respondSamples (decodeSamples bytes c.div c.unit)) with ⟨b, -, he⟩ | ⟨-, he⟩ | ⟨-, he⟩ <;> rw [he]
      · rcases decodeSamples_status b c.div c.unit with ⟨⟨x, y, z⟩, hv⟩ | hv
        · simp only [hv, State.respondSamples]
          exact .readOk .read (.inl rfl) _ _ (.inl ⟨rfl, rfl⟩) b .ok _ (.inl rfl) (fun h => absurd rfl h)
        · simp only [hv, State.respondSamples]
          exact .readOk .read (.inl rfl) _ _ (.inl ⟨rfl, rfl⟩) b .invalidInput .none (.inr rfl) (fun _ => rfl)
      · exact .readFail .read (.inl rfl) _ _ (.inl ⟨rfl, rfl⟩)
      · exact .readSilent .read (.inl rfl) _ _ (.inl ⟨rfl, rfl⟩)
  | identify =>
    refine ⟨s.busRead s.params.idAddr 1 (fun bytes t => t.respondId bytes), rfl, ?_⟩
    rcases State.busRead_cases s s.params.idAddr 1 (fun bytes t => t.respondId bytes) with
      ⟨b, -, he⟩ | ⟨-, he⟩ | ⟨-, he⟩ <;> rw [he]
    · unfold State.respondId
      split
      · exact .readOk .identify (.inr rfl) _ _ (.inr ⟨rfl, rfl⟩) _ .ok _ (.inl rfl) (fun h => absurd rfl h)
      · exact .readOk .identify (.inr rfl) _ _ (.inr ⟨rfl, rfl⟩) b .invalidInput .none (.inr rfl) (fun _ => rfl)
    · exact .readFail .identify (.inr rfl) _ _ (.inr ⟨rfl, rfl⟩)
    · exact .readSilent .identify (.inr rfl) _ _ (.inr ⟨rfl, rfl⟩)
  | decode g u b0 b1 b2 b3 b4 b5 =>
    by_cases h : 3 < g.toNat ∨ 1 < u.toNat
    · exact ⟨_, exec_decode_invalid _ _ _ _ _ _ s h,
        .answer (.decode g u b0 b1 b2 b3 b4 b5) .invalidParameter .none rfl (fun _ => rfl)⟩
    · exact ⟨_, exec_decode_valid _ _ _ _ _ _ s (by omega) (by omega),
        .answer (.decode g u b0 b1 b2 b3 b4 b5) .ok _ rfl (fun h => absurd rfl h)⟩
  | tfire h =>
    cases hp : s.params.hasPwm with
    | true =>
      by_cases hf : s.pwm.armed = true ∧ h = s.pwm.handle
      · obtain ⟨ha, rfl⟩ := hf
        exact ⟨_, by simp [exec, execTfire, hp, ha], .fire hp ha⟩
      · refine ⟨s.respond .timer .ignored .none, ?_, .answer (.tfire h) .ignored .none rfl (fun _ => rfl)⟩
        simp only [exec, execTfire, hp, if_true, Bool.and_eq_true, beq_iff_eq, hf, if_false]
    | false =>
      refine ⟨s.illegal .timer, by simp [exec, execTfire, hp], ?_⟩
      exact .answer (.tfire h) .illegalCommand .none rfl (fun _ => rfl)

theorem exec_case {i : Instr} {s t : State} (h : exec i s = .next t) : ExecCase s i t := by
  obtain ⟨u, hu, hc⟩ := exec_cases i s
  rw [h] at hu
  cases hu
  exact hc

/-- What taking an input changes: a queue, a tie, a draw. Registers and outputs stay. -/
theorem takeInput_keeps {s u : State} {p : Port} {f : Frame} (h : s.takeInput = some (p, f, u)) :
    KeepsRegisters s u ∧ u.params = s.params ∧ u.hung = s.hung ∧ u.answers = s.answers ∧ u.trace = s.trace := by
  unfold State.takeInput at h
  split at h
  · cases h
  · cases h; exact ⟨⟨rfl, rfl, rfl, rfl⟩, rfl, rfl, rfl, rfl⟩
  · cases h; exact ⟨⟨rfl, rfl, rfl, rfl⟩, rfl, rfl, rfl, rfl⟩
  · split at h <;> cases h <;> simp [KeepsRegisters]

/-- The step of a block that takes an input. -/
theorem step_taken {s u : State} {p : Port} {f : Frame} (hh : s.hung = false) (hu : s.takeInput = some (p, f, u)) :
    step s = runFrame p f (u.emit (.take p f)) := by
  simp only [step, stepOnce, hh, hu, Bool.false_eq_true, if_false]

/-- Everything a step can do: nothing, or take one input and run or refuse its frame. -/
theorem step_cases {s t : State} (h : step s = .next t) :
    t = s ∨ ∃ p f u, s.hung = false ∧ s.takeInput = some (p, f, u) ∧
      ((∃ i, decodeOn p f = some i ∧ exec i (u.emit (.take p f)) = .next t) ∨
        (decodeOn p f = none ∧ t = (u.emit (.take p f)).illegal p)) := by
  unfold step stepOnce at h
  split at h
  · cases h; exact .inl rfl
  · rename_i hh
    split at h
    · cases h; exact .inl rfl
    · rename_i p f u hu
      refine .inr ⟨p, f, u, by simpa using hh, hu, ?_⟩
      unfold runFrame at h
      split at h
      · rename_i i hi
        exact .inl ⟨i, hi, h⟩
      · rename_i hi
        cases h
        exact .inr ⟨hi, rfl⟩

end Sys2Proof.Machine
end

