-- ==== Sys2Proof/Laws/Body.lean ====
section
/-! SUPPORT. What the bodies of SETDUTY, TFIRE and CONFIGURE leave, whatever the answers were: which fields of the state,
and which outputs. -/

namespace Sys2Proof.Machine

/-- The state a body ends in. -/
def Ended.state : Ended → State
  | .done s => s
  | .failed s => s
  | .hung s => s

@[simp] theorem Ended.state_done (s : State) : (Ended.done s).state = s := rfl
@[simp] theorem Ended.state_failed (s : State) : (Ended.failed s).state = s := rfl
@[simp] theorem Ended.state_hung (s : State) : (Ended.hung s).state = s := rfl

@[simp] theorem State.img_committed (s : State) (w : Memory) (m : Mode) : (s.committed w m).img = w := rfl
@[simp] theorem State.rmode_committed (s : State) (w : Memory) (m : Mode) : (s.committed w m).rmode = some m := rfl
@[simp] theorem State.cfg_committed (s : State) (w : Memory) (m : Mode) : (s.committed w m).cfg = s.cfg := rfl
@[simp] theorem State.pwm_committed (s : State) (w : Memory) (m : Mode) : (s.committed w m).pwm = s.pwm := rfl
@[simp] theorem State.params_committed (s : State) (w : Memory) (m : Mode) : (s.committed w m).params = s.params := rfl
@[simp] theorem State.hung_committed (s : State) (w : Memory) (m : Mode) : (s.committed w m).hung = s.hung := rfl
@[simp] theorem State.trace_committed (s : State) (w : Memory) (m : Mode) : (s.committed w m).trace = s.trace := rfl
@[simp] theorem State.answers_committed (s : State) (w : Memory) (m : Mode) : (s.committed w m).answers = s.answers := rfl
@[simp] theorem State.draws_committed (s : State) (w : Memory) (m : Mode) : (s.committed w m).draws = s.draws := rfl

@[simp] theorem State.nextWrite_committed (s : State) (w : Memory) (m : Mode) :
    nextWrite (s.committed w m) = nextWrite s := rfl
@[simp] theorem State.drawn_committed (s : State) (w : Memory) (m : Mode) :
    (s.committed w m).drawn = s.drawn.committed w m := by
  unfold State.drawn State.committed; dsimp only; split <;> rfl

/-- The next answer depends on what is left to draw only. -/
theorem nextWrite_congr {s t : State} (h : t.answers = s.answers) (h' : t.draws = s.draws) :
    nextWrite t = nextWrite s := by
  unfold nextWrite State.nextAnswer; rw [h, h']

@[simp] theorem Ended.img_finish (e : Ended) (p : Port) : (e.finish p).img = e.state.img := by cases e <;> rfl
@[simp] theorem Ended.rmode_finish (e : Ended) (p : Port) : (e.finish p).rmode = e.state.rmode := by cases e <;> rfl
@[simp] theorem Ended.cfg_finish (e : Ended) (p : Port) : (e.finish p).cfg = e.state.cfg := by cases e <;> rfl
@[simp] theorem Ended.pwm_finish (e : Ended) (p : Port) : (e.finish p).pwm = e.state.pwm := by cases e <;> rfl
@[simp] theorem Ended.params_finish (e : Ended) (p : Port) : (e.finish p).params = e.state.params := by cases e <;> rfl

/-! ### What SETDUTY leaves -/

/-- The image SETDUTY leaves: 0x00 in byte 5 where it writes the output, else as before. -/
theorem setDuty_img (s : State) (d : Byte) :
    (s.setDutyBody d).state.img = s.img.write 5 0 ∨ (s.setDutyBody d).state.img = s.img := by
  rcases s.setDutyBody_cases d with ⟨-, e⟩ | ⟨-, -, -, e⟩ | ⟨-, -, -, e⟩ <;> rw [e]
  · left; cases nextWrite s <;> simp [Ended.of, State.dutyWrite]
  · left
    rcases Ended.armAfter_of (nextWrite s) (s.dutyWrite d .offPhase) d.toInt.toNat with
      ⟨-, h⟩ | ⟨-, -, h⟩ | ⟨-, -, h⟩ | ⟨-, h⟩ <;> rw [h] <;> simp [State.dutyWrite]
  · right; simp

/-- What SETDUTY never touches. -/
theorem setDuty_frame (s : State) (d : Byte) : (s.setDutyBody d).state.rmode = s.rmode ∧
    (s.setDutyBody d).state.cfg = s.cfg ∧ KeepsPorts s (s.setDutyBody d).state := by
  unfold KeepsPorts
  rcases s.setDutyBody_cases d with ⟨-, e⟩ | ⟨-, -, -, e⟩ | ⟨-, -, -, e⟩ <;> rw [e]
  · cases nextWrite s <;> simp [Ended.of, State.dutyWrite]
  · rcases Ended.armAfter_of (nextWrite s) (s.dutyWrite d .offPhase) d.toInt.toNat with
      ⟨-, h⟩ | ⟨-, -, h⟩ | ⟨-, -, h⟩ | ⟨-, h⟩ <;> rw [h] <;> simp [State.dutyWrite]
  · simp

theorem dutyStep_img (s : State) (d : Byte) :
    (s.dutyStep d).state.img = s.img.write 5 0 ∨ (s.dutyStep d).state.img = s.img := by
  unfold State.dutyStep; split
  · exact setDuty_img s d
  · exact .inr rfl

theorem dutyStep_frame (s : State) (d : Byte) : (s.dutyStep d).state.rmode = s.rmode ∧
    (s.dutyStep d).state.cfg = s.cfg ∧ KeepsPorts s (s.dutyStep d).state := by
  unfold State.dutyStep; split
  · exact setDuty_frame s d
  · exact ⟨rfl, rfl, rfl, rfl, rfl, rfl⟩

/-! ### What an accepted fire leaves -/

theorem fire_img (s : State) : s.fireBody.state.img = s.img.write 5 s.pwm.phase.level := by
  rw [State.fireBody_eq]
  split
  · cases nextWrite s <;> simp [Ended.of, State.fireWrite]
  · rcases Ended.armAfter_of (nextWrite s) s.fireWrite
      (if s.pwm.phase = .onPhase then s.pwm.duty else 10 - s.pwm.duty) with
      ⟨-, h⟩ | ⟨-, -, h⟩ | ⟨-, -, h⟩ | ⟨-, h⟩ <;> rw [h] <;> simp [State.fireWrite]

theorem fire_frame (s : State) : s.fireBody.state.rmode = s.rmode ∧ s.fireBody.state.cfg = s.cfg ∧
    KeepsPorts s s.fireBody.state := by
  unfold KeepsPorts
  rw [State.fireBody_eq]
  split
  · cases nextWrite s <;> simp [Ended.of, State.fireWrite]
  · rcases Ended.armAfter_of (nextWrite s) s.fireWrite
      (if s.pwm.phase = .onPhase then s.pwm.duty else 10 - s.pwm.duty) with
      ⟨-, h⟩ | ⟨-, -, h⟩ | ⟨-, -, h⟩ | ⟨-, h⟩ <;> rw [h] <;> simp [State.fireWrite]

/-! ### Where CONFIGURE ends -/

/-- CONFIGURE after the commit, from the committed state (43_driver.md R200). -/
def State.configureTail (s : State) (d : Byte) (c : ReadCfg) : Ended :=
  ((s.dutyStep d).andThen State.writeControlBlock).andThen (fun t => .done { t with cfg := some c })

/-- It ends in the duty step, or in the block write, or it records `CFG`. -/
theorem configureTail_cases (s : State) (d : Byte) (c : ReadCfg) :
    (s.configureTail d c = s.dutyStep d ∧ ∀ t, s.dutyStep d ≠ .done t) ∨
    ∃ t, s.dutyStep d = .done t ∧
      ((nextWrite t = .ok ∧
        s.configureTail d c = .done { t.wrote t.params.ctrlBase t.img.payload .ok with cfg := some c }) ∨
       (nextWrite t = .fail ∧ s.configureTail d c = .failed (t.wrote t.params.ctrlBase t.img.payload .fail)) ∨
       (nextWrite t = .silent ∧ s.configureTail d c = .hung (t.wrote t.params.ctrlBase t.img.payload .silent))) := by
  unfold State.configureTail
  cases hv : s.dutyStep d with
  | done t =>
    refine .inr ⟨t, rfl, ?_⟩
    simp only [Ended.andThen_done, State.writeControlBlock, State.busWrite_eq]
    cases h : nextWrite t <;> simp [Ended.of]
  | failed t => simp
  | hung t => simp

/-- What the tail leaves of the committed state. -/
theorem configureTail_frame (s : State) (d : Byte) (c : ReadCfg) :
    ((s.configureTail d c).state.img = s.img.write 5 0 ∨ (s.configureTail d c).state.img = s.img) ∧
    (s.configureTail d c).state.rmode = s.rmode ∧ KeepsPorts s (s.configureTail d c).state ∧
    ((s.configureTail d c).state.cfg = s.cfg ∨
      (∃ t, s.configureTail d c = .done t) ∧ (s.configureTail d c).state.cfg = some c) := by
  have h1 := dutyStep_img s d
  have h2 := dutyStep_frame s d
  rcases configureTail_cases s d c with ⟨he, -⟩ | ⟨t, ht, hc⟩
  · rw [he]
    exact ⟨h1, h2.1, h2.2.2, .inl h2.2.1⟩
  · rw [ht] at h1 h2
    rcases hc with ⟨-, he⟩ | ⟨-, he⟩ | ⟨-, he⟩ <;> rw [he]
    · exact ⟨by simpa using h1, by simpa using h2.1, by simpa [KeepsPorts] using h2.2.2, .inr ⟨⟨_, rfl⟩, by simp⟩⟩
    · exact ⟨by simpa using h1, by simpa using h2.1, by simpa [KeepsPorts] using h2.2.2, .inl (by simpa using h2.2.1)⟩
    · exact ⟨by simpa using h1, by simpa using h2.1, by simpa [KeepsPorts] using h2.2.2, .inl (by simpa using h2.2.1)⟩

/-! ### Outputs -/

/-- A body that started in `s` issued requests only, and it failed or hung on one of them. -/
def RequestsOnly (s : State) (e : Ended) : Prop :=
  ∃ es, e.state.trace = s.trace ++ es ∧ (∀ x ∈ es, isRequest x = true) ∧
    match e with
    | .done t => t.hung = s.hung
    | .failed t => t.hung = s.hung ∧ es ≠ []
    | .hung t => t.hung = true ∧ es ≠ []

theorem isRequest_cancelEvents (s : State) : ∀ e ∈ cancelEvents s, isRequest e = true := by
  unfold cancelEvents; split <;> simp [isRequest]

theorem RequestsOnly.write (s : State) (reg : Byte) (bytes : List Byte) : RequestsOnly s (s.busWrite reg bytes) := by
  rw [State.busWrite_eq]
  refine ⟨[.busWrite s.params.devAddr reg bytes (nextWrite s)], ?_, by simp [isRequest], ?_⟩ <;>
    cases nextWrite s <;> simp [Ended.of]

theorem RequestsOnly.armAfter {s : State} {e : Ended} (h : RequestsOnly s e) (n : Nat) :
    RequestsOnly s (e.armAfter n) := by
  obtain ⟨es, h1, h2, h3⟩ := h
  have arm : ∀ t : State, t.trace = s.trace ++ es → (t.armTimer n).trace =
      s.trace ++ (es ++ [.timerArm n t.params.timeUnit t.pwm.next]) ∧
      ∀ x ∈ es ++ [.timerArm n t.params.timeUnit t.pwm.next], isRequest x = true := by
    intro t ht
    refine ⟨by simp [ht], fun x hx => ?_⟩
    rcases List.mem_append.mp hx with hx | hx
    · exact h2 x hx
    · rw [List.mem_singleton.mp hx]; rfl
  cases e with
  | done t => exact ⟨_, (arm t h1).1, (arm t h1).2, h3⟩
  | failed t =>
    simp only [Ended.armAfter]
    split
    · exact ⟨_, (arm t h1).1, (arm t h1).2, h3.1, by simp⟩
    · exact ⟨es, h1, h2, h3⟩
  | hung t => exact ⟨es, h1, h2, h3⟩

theorem RequestsOnly.after {s u : State} {e : Ended} (h : RequestsOnly u e) (hh : u.hung = s.hung) {fs : List Event}
    (ht : u.trace = s.trace ++ fs) (hf : ∀ x ∈ fs, isRequest x = true) : RequestsOnly s e := by
  obtain ⟨es, h1, h2, h3⟩ := h
  refine ⟨fs ++ es, by rw [h1, ht, List.append_assoc], fun x hx => ?_, ?_⟩
  · rcases List.mem_append.mp hx with hx | hx
    exacts [hf x hx, h2 x hx]
  · cases e with
    | done t => exact h3.trans hh
    | failed t => exact ⟨h3.1.trans hh, by simp [h3.2]⟩
    | hung t => exact ⟨h3.1, by simp [h3.2]⟩

theorem RequestsOnly.andThen {s : State} {e : Ended} {k : State → Ended} (h : RequestsOnly s e)
    (hk : ∀ t, RequestsOnly t (k t)) : RequestsOnly s (e.andThen k) := by
  cases e with
  | done t =>
    obtain ⟨es, h1, h2, h3⟩ := h
    exact (hk t).after h3 h1 h2
  | failed t => exact h
  | hung t => exact h

theorem RequestsOnly.setDuty (s : State) (d : Byte) : RequestsOnly s (s.setDutyBody d) := by
  have w : ∀ p, RequestsOnly s (((s.loadDuty d).setPhase p).pwmWrite 0x00) := fun p =>
    (RequestsOnly.write { (s.loadDuty d).setPhase p with img := ((s.loadDuty d).setPhase p).img.write 5 0x00 } _ _).after
      (by simp) (fs := cancelEvents s) (by simp) (isRequest_cancelEvents s)
  unfold State.setDutyBody
  dsimp only
  split
  · exact w .off
  · split
    · exact (w .offPhase).armAfter _
    · refine ⟨cancelEvents s ++ [.timerArm (s.loadDuty d).pwm.period s.params.timeUnit s.pwm.next], by simp,
        fun x hx => ?_, by simp⟩
      rcases List.mem_append.mp hx with hx | hx
      · exact isRequest_cancelEvents s x hx
      · rw [List.mem_singleton.mp hx]; rfl

theorem RequestsOnly.dutyStep (s : State) (d : Byte) : RequestsOnly s (s.dutyStep d) := by
  unfold State.dutyStep; split
  · exact RequestsOnly.setDuty s d
  · exact ⟨[], by simp, by simp, rfl⟩

theorem RequestsOnly.fire (s : State) : RequestsOnly s s.fireBody := by
  have w : ∀ (p : Phase) (v : Byte),
      RequestsOnly s ((({ s with pwm := { s.pwm with armed := false } } : State).setPhase p).pwmWrite v) := fun p v =>
    (RequestsOnly.write _ _ _).after (by simp) (fs := []) (by simp) (by simp)
  have t : RequestsOnly s ({ s with pwm := { s.pwm with armed := false } } : State).togglePhase := by
    unfold State.togglePhase
    split <;> exact w _ _
  unfold State.fireBody
  dsimp only
  split
  · exact t
  · exact t.armAfter _

theorem RequestsOnly.configureTail (s : State) (d : Byte) (c : ReadCfg) : RequestsOnly s (s.configureTail d c) :=
  ((RequestsOnly.dutyStep s d).andThen (fun t => RequestsOnly.write t _ _)).andThen
    (fun t => ⟨[], by simp, by simp, rfl⟩)

/-- A body that hangs leaves a request as the last output. -/
theorem RequestsOnly.lastStatus_hung {s t : State} (h : RequestsOnly s (.hung t)) : lastStatus t = none := by
  obtain ⟨es, h1, h2, -, h4⟩ := h
  rw [Ended.state_hung] at h1
  unfold lastStatus
  rw [h1, List.getLast?_append_of_ne_nil _ h4, List.getLast?_eq_some_getLast h4]
  have := h2 _ (List.getLast_mem h4)
  generalize es.getLast h4 = x at this
  cases x <;> simp_all [isRequest]

/-- The only statuses a body ends with. -/
theorem RequestsOnly.lastStatus_finish {s : State} {e : Ended} (h : RequestsOnly s e) (p : Port) {st : Status}
    (hl : lastStatus (e.finish p) = some st) :
    (st = .ok ∧ ∃ t, e = .done t) ∨ (st = .transportFailure ∧ ∃ t, e = .failed t) := by
  cases e with
  | done t => exact .inl ⟨by simpa [lastStatus] using hl.symm, t, rfl⟩
  | failed t => exact .inr ⟨by simpa [lastStatus] using hl.symm, t, rfl⟩
  | hung t => rw [Ended.finish_hung, h.lastStatus_hung] at hl; cases hl

end Sys2Proof.Machine
end

