-- ==== Sys2Proof/Laws/Float.lean ====
section
/-! SUPPORT. What rounding to binary64 does, said once: the integer rounding picks a nearest integer with ties to even,
and in the normal range the pattern built has the value of that significand, is finite and is not subnormal. -/

namespace Sys2Proof.Machine

/-- Rounding a quotient picks a nearest integer, and the even one of two. -/
theorem rneShift_nearest (m k : Nat) (n : Int) :
    |(rneShift m k : Int) * 2 ^ k - m| ≤ |n * 2 ^ k - m| ∧
      (n ≠ rneShift m k → |(rneShift m k : Int) * 2 ^ k - m| = |n * 2 ^ k - m| → rneShift m k % 2 = 0) := by
  have hp : (0 : Int) < 2 ^ k := by positivity
  have hd : (m : Int) = (m / 2 ^ k : Nat) * 2 ^ k + (m % 2 ^ k : Nat) := by
    have := Nat.div_add_mod m (2 ^ k)
    have h2 : ((2 ^ k * (m / 2 ^ k) + m % 2 ^ k : Nat) : Int) = (m : Int) := by rw [this]
    push_cast at h2 ⊢
    linarith
  have hr : ((m % 2 ^ k : Nat) : Int) < 2 ^ k := by
    have := Nat.mod_lt m (show 0 < 2 ^ k by positivity)
    exact_mod_cast this
  have hr0 : (0 : Int) ≤ ((m % 2 ^ k : Nat) : Int) := Int.natCast_nonneg _
  have c1 : (2 * (m % 2 ^ k) < 2 ^ k) ↔ 2 * ((m % 2 ^ k : Nat) : Int) < 2 ^ k := by
    rw [← Int.ofNat_lt]; push_cast; rfl
  have c2 : (2 ^ k < 2 * (m % 2 ^ k)) ↔ (2 : Int) ^ k < 2 * ((m % 2 ^ k : Nat) : Int) := by
    rw [← Int.ofNat_lt]; push_cast; rfl
  unfold rneShift
  simp only [c1, c2]
  generalize ((m % 2 ^ k : Nat) : Int) = r at *
  generalize hq : m / 2 ^ k = q at *
  generalize (2 : Int) ^ k = p at *
  rw [hd]
  -- the distance of any integer
  have far : ∀ z : Int, |z * p - ((q : Int) * p + r)| = if z ≤ q then (q - z) * p + r else (z - q) * p - r := by
    intro z
    split
    · rw [abs_of_nonpos] <;> nlinarith
    · rename_i h
      have : (1 : Int) ≤ z - q := by omega
      rw [abs_of_nonneg] <;> nlinarith
  have lo : ∀ z : Int, z ≤ q → z ≠ q → p ≤ (q - z) * p := by
    intro z h h'
    have : (1 : Int) ≤ q - z := by omega
    nlinarith
  have hi : ∀ z : Int, ¬ z ≤ q → z ≠ q + 1 → 2 * p ≤ (z - q) * p := by
    intro z h h'
    have : (2 : Int) ≤ z - q := by omega
    nlinarith
  rw [far n]
  by_cases h1 : 2 * r < p
  · simp only [h1, if_true, far, le_refl, sub_self, zero_mul, zero_add]
    constructor
    · split
      · rename_i h; by_cases e : n = q
        · subst e; simp
        · have := lo n h e; linarith
      · rename_i h; by_cases e : n = q + 1
        · subst e; ring_nf; linarith
        · have := hi n h e; linarith
    · intro hn he
      exfalso
      split at he
      · rename_i h; have := lo n h hn; linarith
      · rename_i h; by_cases e : n = q + 1
        · subst e; ring_nf at he; linarith
        · have := hi n h e; linarith
  · simp only [h1, if_false]
    by_cases h2 : p < 2 * r
    · simp only [h2, if_true, far]
      push_cast
      rw [if_neg (by omega)]
      have e0 : ((q : Int) + 1 - q) * p - r = p - r := by ring
      rw [e0]
      constructor
      · split
        · rename_i h; by_cases e : n = q
          · subst e; simp; linarith
          · have := lo n h e; linarith
        · rename_i h; by_cases e : n = q + 1
          · subst e; ring_nf; linarith
          · have := hi n h e; linarith
      · intro hn he
        exfalso
        split at he
        · rename_i h; by_cases e : n = q
          · subst e; simp at he; linarith
          · have := lo n h e; linarith
        · rename_i h
          have := hi n h hn; linarith
    · simp only [h2, if_false]
      have hpr : p = 2 * r := by omega
      have hev : (q + q % 2) % 2 = 0 := by omega
      refine ⟨?_, fun _ _ => hev⟩
      have : |((q + q % 2 : Nat) : Int) * p - ((q : Int) * p + r)| = r := by
        rcases Nat.mod_two_eq_zero_or_one q with h | h
        · rw [h, far]; simp
        · rw [h, far]; push_cast; rw [if_neg (by omega)]; ring_nf; omega
      rw [this]
      split
      · rename_i h; by_cases e : n = q
        · subst e; simp
        · have := lo n h e; linarith
      · rename_i h; by_cases e : n = q + 1
        · subst e; ring_nf; linarith
        · have := hi n h e; linarith

/-- The magnitude `mant × 2^exp`. -/
def magnitude (mant : Nat) (exp : Int) : ℚ := (mant : ℚ) * 2 ^ exp

/-- The significand `roundMagnitude` builds when the last place is `q`. -/
def sigOf (mant : Nat) (exp q : Int) : Nat :=
  if exp ≤ q then rneShift mant (q - exp).toNat else mant * 2 ^ (exp - q).toNat

/-- The significand is a nearest multiple of the last place, and the even one of two. -/
theorem sigOf_nearest (mant : Nat) (exp q n : Int) :
    |(sigOf mant exp q : ℚ) * 2 ^ q - magnitude mant exp| ≤ |(n : ℚ) * 2 ^ q - magnitude mant exp| ∧
    (n ≠ sigOf mant exp q →
      |(sigOf mant exp q : ℚ) * 2 ^ q - magnitude mant exp| = |(n : ℚ) * 2 ^ q - magnitude mant exp| →
      sigOf mant exp q % 2 = 0) := by
  unfold sigOf magnitude
  split
  · rename_i h
    obtain ⟨k, hk⟩ : ∃ k : Nat, q = exp + k := ⟨(q - exp).toNat, by omega⟩
    subst hk
    have e : (exp + k - exp).toNat = k := by omega
    rw [e]
    have hp : (0 : ℚ) < 2 ^ exp := by positivity
    have key : ∀ z : Int, |(z : ℚ) * 2 ^ (exp + k : Int) - (mant : ℚ) * 2 ^ exp| =
        ((|z * 2 ^ k - mant| : Int) : ℚ) * 2 ^ exp := by
      intro z
      rw [zpow_add₀ (by norm_num), zpow_natCast]
      push_cast
      rw [← abs_of_pos hp, ← abs_mul, abs_of_pos hp]
      congr 1; ring
    have k1 := key (rneShift mant k)
    simp only [Int.cast_natCast] at k1
    rw [k1, key n]
    obtain ⟨a, b⟩ := rneShift_nearest mant k n
    refine ⟨by gcongr, fun hn he => b hn ?_⟩
    have := mul_right_cancel₀ hp.ne' he
    exact_mod_cast this
  · rename_i h
    obtain ⟨k, hk⟩ : ∃ k : Nat, exp = q + k := ⟨(exp - q).toNat, by omega⟩
    subst hk
    have e : (q + k - q).toNat = k := by omega
    rw [e]
    have hp : (0 : ℚ) < 2 ^ q := by positivity
    have z : ((mant * 2 ^ k : Nat) : ℚ) * 2 ^ q = (mant : ℚ) * 2 ^ (q + k : Int) := by
      rw [zpow_add₀ (by norm_num), zpow_natCast]; push_cast; ring
    rw [z]
    refine ⟨by simp, fun hn he => ?_⟩
    rw [sub_self, abs_zero, eq_comm, abs_eq_zero, sub_eq_zero, ← z] at he
    have := mul_right_cancel₀ hp.ne' he
    exact absurd (by exact_mod_cast this) hn

/-- The leading bit bounds the magnitude. -/
theorem magnitude_bounds {mant : Nat} (h : mant ≠ 0) (exp : Int) :
    (2 : ℚ) ^ (mant.log2 + exp : Int) ≤ magnitude mant exp ∧
      magnitude mant exp < (2 : ℚ) ^ (mant.log2 + exp + 1 : Int) := by
  have hp : (0 : ℚ) < 2 ^ exp := by positivity
  have h1 := Nat.log2_self_le h
  have h2 := Nat.lt_log2_self (n := mant)
  unfold magnitude
  constructor
  · rw [zpow_add₀ (by norm_num), zpow_natCast]
    gcongr; exact_mod_cast h1
  · rw [show (mant.log2 + exp + 1 : Int) = ((mant.log2 + 1 : Nat) : Int) + exp by push_cast; ring,
      zpow_add₀ (by norm_num), zpow_natCast]
    gcongr; exact_mod_cast h2

/-- In the normal range the significand has 53 bits, or is the next power of two. -/
theorem sigOf_bounds {mant : Nat} (h : mant ≠ 0) (exp q : Int) (hq : q = mant.log2 + exp - 52) :
    2 ^ 52 ≤ sigOf mant exp q ∧ sigOf mant exp q ≤ 2 ^ 53 := by
  obtain ⟨b1, b2⟩ := magnitude_bounds h exp
  have hp : (0 : ℚ) < 2 ^ q := by positivity
  rw [show (mant.log2 + exp : Int) = 52 + q by omega, zpow_add₀ (by norm_num)] at b1
  rw [show (mant.log2 + exp + 1 : Int) = 53 + q by omega, zpow_add₀ (by norm_num)] at b2
  have n1 := (sigOf_nearest mant exp q (2 ^ 52)).1
  have n2 := (sigOf_nearest mant exp q (2 ^ 53)).1
  constructor
  · by_contra hc
    have hc : (sigOf mant exp q : ℚ) < 2 ^ 52 := by exact_mod_cast not_le.mp hc
    push_cast at n1
    have e1 : (sigOf mant exp q : ℚ) * 2 ^ q < 2 ^ 52 * 2 ^ q := by gcongr
    norm_cast at b1 e1 n1
    push_cast at b1 e1 n1
    rw [abs_of_nonpos (by linarith), abs_of_nonpos (by linarith)] at n1
    linarith
  · by_contra hc
    have hc : (2 : ℚ) ^ 53 < sigOf mant exp q := by exact_mod_cast not_le.mp hc
    push_cast at n2
    have e1 : (2 : ℚ) ^ 53 * 2 ^ q < (sigOf mant exp q : ℚ) * 2 ^ q := by gcongr
    norm_cast at b2 e1 n2
    push_cast at b2 e1 n2
    rw [abs_of_nonneg (by linarith), abs_of_nonneg (by linarith)] at n2
    linarith

/-- The fields of a finite pattern. -/
theorem unpack_pattern {neg : Bool} {n : Nat} (hn : n < 2047 * 2 ^ 52) :
    unpackF64 (BitVec.ofNat 64 ((if neg then 2 ^ 63 else 0) + n)) =
      { neg := neg, mant := if n / 2 ^ 52 = 0 then n % 2 ^ 52 else 2 ^ 52 + n % 2 ^ 52,
        exp := if n / 2 ^ 52 = 0 then -1074 else ((n / 2 ^ 52 : Nat) : Int) - 1075 } := by
  have h1 : (BitVec.ofNat 64 ((if neg then 2 ^ 63 else 0) + n)).toNat = (if neg then 2 ^ 63 else 0) + n := by
    rw [BitVec.toNat_ofNat, Nat.mod_eq_of_lt]; split <;> omega
  have h2 : (BitVec.ofNat 64 ((if neg then 2 ^ 63 else 0) + n)).msb = neg := by
    rw [BitVec.msb_eq_decide, h1]
    cases neg <;> simp
    omega
  have h3 : ((if neg then 2 ^ 63 else 0) + n) / 2 ^ 52 % 2048 = n / 2 ^ 52 := by
    cases neg <;> (simp; omega)
  have h4 : ((if neg then 2 ^ 63 else 0) + n) % 2 ^ 52 = n % 2 ^ 52 := by
    cases neg <;> simp
    omega
  simp only [unpackF64, h1, h2, h3, h4]

/-- The sign of a number. -/
def sgn (b : Bool) : ℚ := if b then -1 else 1

/-- In the normal range, the pattern rounding builds, and its value. -/
theorem roundF64_normal (x : Scaled) (h : x.mant ≠ 0)
    (hlo : -1022 ≤ (x.mant.log2 : Int) + x.exp) (hhi : (x.mant.log2 : Int) + x.exp ≤ 1000) :
    let q : Int := x.mant.log2 + x.exp - 52
    let s := sigOf x.mant x.exp q
    let n := (q + 1074).toNat * 2 ^ 52 + s
    roundF64 x = BitVec.ofNat 64 ((if x.neg then 2 ^ 63 else 0) + n) ∧ n < 2047 * 2 ^ 52 ∧ 1 ≤ n / 2 ^ 52 ∧
    f64Value (roundF64 x) = sgn x.neg * ((s : ℚ) * 2 ^ q) := by
  intro q s n
  obtain ⟨b1, b2⟩ := sigOf_bounds h x.exp q rfl
  have hq : lastPlace x.mant x.exp = q := by simp only [lastPlace, q]; omega
  have hn : n < 2047 * 2 ^ 52 := by simp only [n, s]; omega
  have hr : roundF64 x = BitVec.ofNat 64 ((if x.neg then 2 ^ 63 else 0) + n) := by
    rw [roundF64, roundMagnitude, if_neg h, hq]
    congr 2
    exact min_eq_left hn.le
  have h1 : 1 ≤ n / 2 ^ 52 := by simp only [n, s]; omega
  refine ⟨hr, hn, h1, ?_⟩
  rw [hr, f64Value, unpack_pattern hn, Scaled.toRat]
  simp only [if_neg (show n / 2 ^ 52 ≠ 0 by omega)]
  rw [show (if x.neg = true then (-1 : ℚ) else 1) = sgn x.neg from rfl, mul_assoc]
  congr 1
  by_cases hs : s = 2 ^ 53
  · have e1 : n / 2 ^ 52 = (q + 1074).toNat + 2 := by omega
    have e2 : n % 2 ^ 52 = 0 := by omega
    rw [e1, e2, hs, show (((q + 1074).toNat + 2 : Nat) : Int) - 1075 = q + 1 by omega, zpow_add₀ (by norm_num)]
    norm_num; ring
  · have e1 : n / 2 ^ 52 = (q + 1074).toNat + 1 := by omega
    have e2 : 2 ^ 52 + n % 2 ^ 52 = s := by omega
    rw [e1, e2, show (((q + 1074).toNat + 1 : Nat) : Int) - 1075 = q by omega]

/-- Every finite pattern is an integer of at most 53 bits times a power of two. -/
theorem f64Value_form (b : F64) :
    ∃ (neg : Bool) (n : Nat) (k : Int), n < 2 ^ 53 ∧ -1074 ≤ k ∧ f64Value b = sgn neg * ((n : ℚ) * 2 ^ k) := by
  refine ⟨(unpackF64 b).neg, (unpackF64 b).mant, (unpackF64 b).exp, ?_, ?_, ?_⟩
  · simp only [unpackF64]; split <;> omega
  · simp only [unpackF64]; split <;> omega
  · rw [f64Value, Scaled.toRat, mul_assoc]; rfl

/-- In the normal range no pattern is nearer than the rounded one, and of two the even one is chosen. -/
theorem roundF64_nearest (x : Scaled) (h : x.mant ≠ 0)
    (hlo : -1022 ≤ (x.mant.log2 : Int) + x.exp) (hhi : (x.mant.log2 : Int) + x.exp ≤ 1000) (b : F64) :
    |f64Value (roundF64 x) - x.toRat| ≤ |f64Value b - x.toRat| ∧
    (f64Value b ≠ f64Value (roundF64 x) → |f64Value (roundF64 x) - x.toRat| = |f64Value b - x.toRat| →
      (roundF64 x).getLsbD 0 = false) := by
  obtain ⟨hr, hn, h1, hv⟩ := roundF64_normal x h hlo hhi
  set q : Int := x.mant.log2 + x.exp - 52 with hq
  set s := sigOf x.mant x.exp q with hs
  have hx : x.toRat = sgn x.neg * magnitude x.mant x.exp := by rw [Scaled.toRat, mul_assoc]; rfl
  have hsq : sgn x.neg * sgn x.neg = 1 := by cases x.neg <;> norm_num [sgn]
  have habs : |sgn x.neg| = 1 := by cases x.neg <;> norm_num [sgn]
  obtain ⟨neg, n, k, n1, k1, hb⟩ := f64Value_form b
  have hp : (0 : ℚ) < 2 ^ q := by positivity
  have eb : f64Value b = sgn x.neg * (sgn x.neg * f64Value b) := by rw [← mul_assoc, hsq, one_mul]
  have d1 : |f64Value (roundF64 x) - x.toRat| = |(s : ℚ) * 2 ^ q - magnitude x.mant x.exp| := by
    rw [hv, hx, ← mul_sub, abs_mul, habs, one_mul]
  have d2 : |f64Value b - x.toRat| = |sgn x.neg * f64Value b - magnitude x.mant x.exp| := by
    rw [eb, hx, ← mul_sub, abs_mul, habs, one_mul, ← mul_assoc, ← mul_assoc, hsq, one_mul]
  have lsb : s % 2 = 0 → (roundF64 x).getLsbD 0 = false := by
    intro he
    rw [hr, BitVec.getLsbD_ofNat]
    have : ((if x.neg = true then 2 ^ 63 else 0) + ((q + 1074).toNat * 2 ^ 52 + s)).testBit 0 = false := by
      rw [Nat.testBit_zero]
      simp only [decide_eq_false_iff_not]
      split <;> omega
    rw [this, Bool.and_false]
  rw [d1, d2]
  have ne : f64Value b ≠ f64Value (roundF64 x) → sgn x.neg * f64Value b ≠ (s : ℚ) * 2 ^ q := by
    intro hne he
    apply hne
    rw [hv, ← he, ← mul_assoc, hsq, one_mul]
  by_cases hk : q ≤ k
  · obtain ⟨j, hj⟩ : ∃ j : Nat, k = q + j := ⟨(k - q).toNat, by omega⟩
    obtain ⟨N, hN⟩ : ∃ N : Int, sgn x.neg * f64Value b = (N : ℚ) * 2 ^ q := by
      rw [hb, hj, zpow_add₀ (by norm_num), zpow_natCast]
      cases x.neg <;> cases neg
      · exact ⟨n * 2 ^ j, by simp [sgn]; ring⟩
      · exact ⟨-(n * 2 ^ j), by simp [sgn]; ring⟩
      · exact ⟨-(n * 2 ^ j), by simp [sgn]; ring⟩
      · exact ⟨n * 2 ^ j, by simp [sgn]; ring⟩
    obtain ⟨a, c⟩ := sigOf_nearest x.mant x.exp q N
    rw [hN]
    refine ⟨a, fun hne he => lsb (c ?_ he)⟩
    rintro rfl
    exact ne hne (by rw [hN]; simp [hs])
  · obtain ⟨m1, -⟩ := magnitude_bounds h x.exp
    rw [show (x.mant.log2 + x.exp : Int) = 52 + q by omega, zpow_add₀ (by norm_num)] at m1
    have m1 : (4503599627370496 : ℚ) * 2 ^ q ≤ magnitude x.mant x.exp := by
      refine le_of_eq_of_le ?_ m1
      norm_num
    have small : sgn x.neg * f64Value b < 4503599627370496 * 2 ^ q := by
      have : |sgn x.neg * f64Value b| < 4503599627370496 * 2 ^ q := by
        rw [abs_mul, habs, one_mul, hb, abs_mul, show |sgn neg| = 1 by cases neg <;> norm_num [sgn], one_mul,
          abs_of_nonneg (by positivity)]
        calc (n : ℚ) * 2 ^ k < 2 ^ 53 * 2 ^ k := by gcongr; exact_mod_cast n1
          _ ≤ 2 ^ 53 * 2 ^ (q - 1) := by gcongr; · norm_num
                                         · omega
          _ = 4503599627370496 * 2 ^ q := by rw [zpow_sub₀ (by norm_num)]; ring
      exact lt_of_le_of_lt (le_abs_self _) this
    have a := (sigOf_nearest x.mant x.exp q 4503599627370496).1
    push_cast at a
    rw [abs_of_nonpos (show (4503599627370496 : ℚ) * 2 ^ q - magnitude x.mant x.exp ≤ 0 by linarith)] at a
    rw [abs_of_nonpos (show sgn x.neg * f64Value b - magnitude x.mant x.exp ≤ 0 by linarith)]
    refine ⟨by linarith, fun _ he => ?_⟩
    linarith

/-- A number of at most 53 bits is rounded to itself. -/
theorem roundF64_exact (x : Scaled) (h : x.mant ≠ 0) (h52 : x.mant.log2 ≤ 52)
    (hlo : -1022 ≤ (x.mant.log2 : Int) + x.exp) (hhi : (x.mant.log2 : Int) + x.exp ≤ 1000) :
    f64Value (roundF64 x) = x.toRat := by
  obtain ⟨-, -, -, hv⟩ := roundF64_normal x h hlo hhi
  rw [hv, Scaled.toRat, mul_assoc]
  change _ = sgn x.neg * _
  congr 1
  obtain ⟨j, hj⟩ : ∃ j : Nat, x.exp = (x.mant.log2 + x.exp - 52) + j := ⟨52 - x.mant.log2, by omega⟩
  have := (sigOf_nearest x.mant x.exp (x.mant.log2 + x.exp - 52) (x.mant * 2 ^ j)).1
  have z : ((x.mant * 2 ^ j : Int) : ℚ) * 2 ^ (x.mant.log2 + x.exp - 52 : Int) = magnitude x.mant x.exp := by
    unfold magnitude
    conv_rhs => rw [hj, zpow_add₀ (by norm_num), zpow_natCast]
    push_cast; ring
  rw [z, sub_self, abs_zero] at this
  have := abs_nonpos_iff.mp this
  linarith [show magnitude x.mant x.exp = (x.mant : ℚ) * 2 ^ x.exp from rfl]

theorem mul_toRat (x y : Scaled) : (x.mul y).toRat = x.toRat * y.toRat := by
  have : (if (x.neg != y.neg) = true then (-1 : ℚ) else 1) =
      (if x.neg then -1 else 1) * (if y.neg then -1 else 1) := by
    cases x.neg <;> cases y.neg <;> norm_num
  unfold Scaled.toRat
  rw [show (x.mul y).neg = (x.neg != y.neg) from rfl, this,
    show (x.mul y).exp = x.exp + y.exp from rfl, show (x.mul y).mant = x.mant * y.mant from rfl,
    zpow_add₀ (show (2 : ℚ) ≠ 0 by norm_num)]
  push_cast; ring

/-- Bounds of the magnitude bound the leading exponent. -/
theorem log_of_bounds {x : Scaled} (h : x.mant ≠ 0) {a b : Int} (ha : (2 : ℚ) ^ a ≤ |x.toRat|) (hb : |x.toRat| < 2 ^ b) :
    a ≤ (x.mant.log2 : Int) + x.exp ∧ (x.mant.log2 : Int) + x.exp < b := by
  have e : |x.toRat| = magnitude x.mant x.exp := by
    rw [Scaled.toRat, mul_assoc, abs_mul]
    rw [show |(if x.neg = true then (-1:ℚ) else 1)| = 1 by split <;> norm_num, one_mul,
      abs_of_nonneg (by positivity)]
    rfl
  obtain ⟨m1, m2⟩ := magnitude_bounds h x.exp
  rw [e] at ha hb
  have h1 := lt_of_le_of_lt ha m2
  have h2 := lt_of_le_of_lt m1 hb
  rw [zpow_lt_zpow_iff_right₀ (by norm_num)] at h1 h2
  omega

/-- A 53-bit integer times a power of two, however it is written, is rounded to itself. -/
theorem roundF64_of_int (x : Scaled) (h : x.mant ≠ 0)
    (hlo : -1022 ≤ (x.mant.log2 : Int) + x.exp) (hhi : (x.mant.log2 : Int) + x.exp ≤ 1000)
    (g : Nat) (j : Int) (hx : |x.toRat| = (g : ℚ) * 2 ^ j) (h1 : 2 ^ 52 ≤ g) (h2 : g < 2 ^ 53) :
    f64Value (roundF64 x) = x.toRat := by
  obtain ⟨-, -, -, hv⟩ := roundF64_normal x h hlo hhi
  have e : |x.toRat| = magnitude x.mant x.exp := by
    rw [Scaled.toRat, mul_assoc, abs_mul]
    rw [show |(if x.neg = true then (-1:ℚ) else 1)| = 1 by split <;> norm_num, one_mul,
      abs_of_nonneg (by positivity)]
    rfl
  have hp : (0 : ℚ) < 2 ^ j := by positivity
  obtain ⟨m1, m2⟩ := log_of_bounds h (a := 52 + j) (b := 53 + j) (by
    rw [hx, zpow_add₀ (by norm_num)]; gcongr; exact_mod_cast h1) (by
    rw [hx, zpow_add₀ (by norm_num)]; gcongr; exact_mod_cast h2)
  have hq : (x.mant.log2 : Int) + x.exp - 52 = j := by omega
  rw [hq] at hv
  have := (sigOf_nearest x.mant x.exp j g).1
  rw [Int.cast_natCast, ← hx, e, sub_self, abs_zero] at this
  have := abs_nonpos_iff.mp this
  rw [hv, Scaled.toRat, mul_assoc]
  change sgn x.neg * _ = sgn x.neg * magnitude x.mant x.exp
  rw [sub_eq_zero.mp this]

theorem finite_of_pattern {neg : Bool} {n : Nat} (hn : n < 2047 * 2 ^ 52) :
    f64Finite (BitVec.ofNat 64 ((if neg then 2 ^ 63 else 0) + n)) = true := by
  have h1 : (BitVec.ofNat 64 ((if neg then 2 ^ 63 else 0) + n)).toNat = (if neg then 2 ^ 63 else 0) + n := by
    rw [BitVec.toNat_ofNat, Nat.mod_eq_of_lt]; split <;> omega
  unfold f64Finite
  rw [h1]
  cases neg <;> (simp; omega)

theorem not_subnormal_of_pattern {neg : Bool} {n : Nat} (hn : n < 2047 * 2 ^ 52) (h : 1 ≤ n / 2 ^ 52) :
    f64Subnormal (BitVec.ofNat 64 ((if neg then 2 ^ 63 else 0) + n)) = false ∧
      BitVec.ofNat 64 ((if neg then 2 ^ 63 else 0) + n) ≠ 0x8000000000000000 := by
  have h1 : (BitVec.ofNat 64 ((if neg then 2 ^ 63 else 0) + n)).toNat = (if neg then 2 ^ 63 else 0) + n := by
    rw [BitVec.toNat_ofNat, Nat.mod_eq_of_lt]; split <;> omega
  constructor
  · unfold f64Subnormal
    rw [h1]
    have : ((if neg then 2 ^ 63 else 0) + n) / 2 ^ 52 % 2048 ≠ 0 := by cases neg <;> (simp; omega)
    simp only [beq_eq_false_iff_ne.mpr this, Bool.false_and]
  · intro he
    have := congrArg BitVec.toNat he
    rw [h1] at this
    cases neg <;> simp at this <;> omega

end Sys2Proof.Machine
end

