-- ==== Sys2Proof/Laws/PerInstr.lean ====
section
/-! SUPPORT. Statements made of every instruction, one lemma per constructor. -/

namespace Sys2Proof.Laws.FrameShape

/-- The frame of an instruction: its length is the one its opcode fixes (30_encoding.md R87), byte 0 is its opcode
(R70), and only an instruction of the command port can carry an invalid token (R74 to R79). -/
def Statement (i : Instr) : Prop :=
  (encode i).length = frameLength (opcodeOf i) ∧ (encode i).head? = some (opcodeOf i) ∧
    (WellFormed i = false → i.port = .command)

theorem setAxes (a : Byte) : Statement (.setAxes a) := ⟨rfl, rfl, fun _ => rfl⟩
theorem setRes (m : Byte) : Statement (.setRes m) := ⟨rfl, rfl, fun _ => rfl⟩
theorem setRate (r : Byte) : Statement (.setRate r) := ⟨rfl, rfl, fun _ => rfl⟩
theorem setRange (g : Byte) : Statement (.setRange g) := ⟨rfl, rfl, fun _ => rfl⟩
theorem setUnit (u : Byte) : Statement (.setUnit u) := ⟨rfl, rfl, fun _ => rfl⟩
theorem setDuty (d : Byte) : Statement (.setDuty d) := ⟨rfl, rfl, fun _ => rfl⟩
theorem configure (a m r g u d : Byte) : Statement (.configure a m r g u d) := ⟨rfl, rfl, fun _ => rfl⟩
theorem read : Statement .read := ⟨rfl, rfl, fun _ => rfl⟩
theorem identify : Statement .identify := ⟨rfl, rfl, fun _ => rfl⟩
theorem decode (g u b0 b1 b2 b3 b4 b5 : Byte) : Statement (.decode g u b0 b1 b2 b3 b4 b5) := ⟨rfl, rfl, fun _ => rfl⟩
theorem tfire (h : Byte) : Statement (.tfire h) := ⟨rfl, rfl, fun e => nomatch e⟩

end Sys2Proof.Laws.FrameShape
end

