-- ==== Sys2Proof/Tests/Slice0.lean ====
section
/-! SUPPORT. The model's own tests: expected values from the spec's tables and vectors (95_test_vectors.md), ill-formed
terms the well-formedness check refuses, decode tests from the encoding strings, and a witness for the hypotheses of
every statement that has some. -/

namespace Sys2Proof.Tests

open Sys2Proof.Machine

/-! ### Small states -/

/-- A platform for tests; the numbers are arbitrary. -/
def platform (hasPwm : Bool) (policy : FailPolicy) : Params :=
  { devAddr := 25, ctrlBase := 0x20, dataAddr := 0x28, idAddr := 0x0F, timeUnit := 1, hasPwm := hasPwm,
    failPolicy := policy }

/-- Right after reset, with the transport's coming answers. -/
def start (as : List BusAnswer) : State := { State.resetWith (platform true .continueArming) with answers := as }

/-- The same where the policy is `Halt`. -/
def startHalt (as : List BusAnswer) : State := { State.resetWith (platform true .halt) with answers := as }

/-- The same without the PWM controller. -/
def startNoPwm (as : List BusAnswer) : State := { State.resetWith (platform false .halt) with answers := as }

/-- The state of 95_test_vectors.md 3.2: duty 3, ON_PHASE, handle 01 armed, and the trace that led there. -/
def running (as : List BusAnswer) : State :=
  { start as with
    img := [(5, 0xFF)]
    pwm := ⟨3, .onPhase, false, true, 0x01, 0x02⟩
    trace := [.take .command [0x06, 0x03], .busWrite 25 0x25 [0x00] .ok, .timerArm 3 1 0x00, .respond .command .ok .none,
      .take .timer [0x0B, 0x00], .busWrite 25 0x25 [0xFF] .ok, .timerArm 7 1 0x01, .respond .timer .ok .none] }

/-- The state after step 1 of 95_test_vectors.md 3.3: duty 3, OFF_PHASE, handle 00 armed. -/
def low (as : List BusAnswer) : State :=
  { start as with
    pwm := ⟨3, .offPhase, false, true, 0x00, 0x01⟩
    trace := [.take .command [0x06, 0x03], .busWrite 25 0x25 [0x00] .ok, .timerArm 3 1 0x00,
      .respond .command .ok .none] }

/-- Configured for reading with divisor 16384 and SI units. -/
def configured (as : List BusAnswer) : State := { start as with cfg := some ⟨.d16384, .si⟩ }

/-- The next state, or the same state where there is none. -/
def after (i : Instr) (s : State) : State :=
  match exec i s with
  | .next t => t
  | .fault _ => s
  | .refused _ => s

/-- The answer is a next state. -/
def isNext : Host.Outcome State Fault Refusal → Bool
  | .next _ => true
  | .fault _ => false
  | .refused _ => false

/-- What the instruction outputs. -/
def outputs (i : Instr) (s : State) : List Event := (after i s).trace.drop s.trace.length

/-! ### Well-formedness refuses each ill-formed term (30_encoding.md R74 to R78) -/

theorem test_wf_axes : WellFormed (.setAxes 8) = false ∧ WellFormed (.setAxes 7) = true := by decide
theorem test_wf_mode : WellFormed (.setRes 3) = false ∧ WellFormed (.setRes 2) = true := by decide
theorem test_wf_rate : WellFormed (.setRate 11) = false ∧ WellFormed (.setRate 10) = true := by decide
theorem test_wf_range : WellFormed (.setRange 4) = false ∧ WellFormed (.setRange 3) = true := by decide
theorem test_wf_unit : WellFormed (.setUnit 2) = false ∧ WellFormed (.setUnit 1) = true := by decide
theorem test_wf_configure_axes : WellFormed (.configure 8 0 0 0 0 0) = false := by decide
theorem test_wf_configure_mode : WellFormed (.configure 7 3 0 0 0 0) = false := by decide
theorem test_wf_configure_rate : WellFormed (.configure 7 2 11 0 0 0) = false := by decide
theorem test_wf_configure_range : WellFormed (.configure 7 2 10 4 0 0) = false := by decide
theorem test_wf_configure_unit : WellFormed (.configure 7 2 10 3 2 0) = false := by decide
theorem test_wf_configure : WellFormed (.configure 7 2 10 3 1 0x80) = true := by decide
theorem test_wf_decode_range : WellFormed (.decode 4 1 0 0 0 0 0 0) = false := by decide
theorem test_wf_decode_unit : WellFormed (.decode 3 2 0 0 0 0 0 0) = false := by decide
theorem test_wf_decode : WellFormed (.decode 3 1 0 0 0 0 0 0) = true := by decide

/-! ### Decoding, from the encoding strings of spec/opcode_table.json -/

theorem test_decode_setAxes : decodeOn .command [0b00000001, 0b00000101] = some (.setAxes 5) := by decide
theorem test_decode_setRes : decodeOn .command [0b00000010, 0b00000010] = some (.setRes 2) := by decide
theorem test_decode_setRate : decodeOn .command [0b00000011, 0b00001010] = some (.setRate 10) := by decide
theorem test_decode_setRange : decodeOn .command [0b00000100, 0b00000011] = some (.setRange 3) := by decide
theorem test_decode_setUnit : decodeOn .command [0b00000101, 0b00000001] = some (.setUnit 1) := by decide
theorem test_decode_setDuty : decodeOn .command [0b00000110, 0b11111101] = some (.setDuty 0xFD) := by decide
theorem test_decode_configure :
    decodeOn .command [0b00000111, 0b00000111, 0b00000000, 0b00001010, 0b00000011, 0b00000001, 0b00000101] =
      some (.configure 7 0 10 3 1 5) := by decide
theorem test_decode_read : decodeOn .command [0b00001000] = some .read := by decide
theorem test_decode_identify : decodeOn .command [0b00001001] = some .identify := by decide
theorem test_decode_decode :
    decodeOn .command [0b00001010, 0b00000010, 0b00000001, 0b00000000, 0b00110000, 0b10001000, 0b00010011, 0b11111111,
      0b01111111] = some (.decode 2 1 0x00 0x30 0x88 0x13 0xFF 0x7F) := by decide
theorem test_decode_tfire : decodeOn .timer [0b00001011, 0b00000011] = some (.tfire 3) := by decide

/-- 95_test_vectors.md section 6. -/
theorem test_decode_illegal :
    decodeOn .command [] = none ∧ decodeOn .command [0x00] = none ∧ decodeOn .command [0x0C] = none ∧
      decodeOn .command [0xFF, 0x01] = none ∧ decodeOn .command [0x01] = none ∧
      decodeOn .command [0x01, 0x07, 0x00] = none ∧ decodeOn .command [0x08, 0x00] = none ∧
      decodeOn .command [0x0B, 0x00] = none ∧ decodeOn .timer [0x01, 0x07] = none := by decide

/-- The first byte of a table word is its least significant one. -/
theorem test_decode_tableWord :
    decodeTableWord 16 0x0501 = some (.setAxes 5) ∧ decodeTableWord 8 0x08 = some .read ∧
      decodeTableWord 8 0x00 = none ∧ decodeTableWord 8 0x07 = some (.configure 0 0 0 0 0 0) := by decide

/-- The examples of 30_encoding.md R92. -/
theorem test_assemble_r92 :
    (assemble "SETAXES XZ").map encode = some [0x01, 0x05] ∧
      (assemble "SETRATE 5376HZ").map encode = some [0x03, 0x0A] ∧
      (assemble "SETDUTY -3").map encode = some [0x06, 0xFD] ∧
      (assemble "TFIRE 3").map encode = some [0x0B, 0x03] := by decide
theorem test_assemble_r92_configure :
    (assemble "CONFIGURE XYZ, NORMAL, 100HZ, 2G, G, 5").map encode =
      some [0x07, 0x07, 0x01, 0x05, 0x00, 0x00, 0x05] := by decide
theorem test_assemble_r92_decode :
    (assemble "DECODE 2G, G, 0x00, 0x40, 0, 0, 0, 0").map encode =
      some [0x0A, 0x00, 0x00, 0x00, 0x40, 0x00, 0x00, 0x00, 0x00] := by decide

/-- The status codes of 60_exceptions.md R230. -/
theorem test_status_codes :
    [Status.ok, .invalidParameter, .incompatibleConfiguration, .transportFailure, .invalidInput, .notConfigured,
      .illegalCommand, .ignored].map Status.code = [0, 1, 2, 3, 4, 5, 6, 7] := by decide

/-! ### One step each (95_test_vectors.md) -/

/-- Rule R101's own example. -/
theorem test_setAxes : (after (.setAxes 5) { start [] with img := [(0, 0x57)] }).img.read 0 = 0x55 := by decide

/-- 2.1, first and last valid rows. -/
theorem test_setAxes_all :
    (after (.setAxes 0) { start [] with img := [(0, 0xF8)] }).img.read 0 = 0xF8 ∧
      (after (.setAxes 7) { start [] with img := [(0, 0xF8)] }).img.read 0 = 0xFF := by decide

/-- 2.2, the LP and HR rows. -/
theorem test_setRes :
    (after (.setRes 0) { start [] with img := [(0, 0x57), (3, 0x38)] }).img = [(0, 0x5F), (3, 0x30)] ∧
      (after (.setRes 2) { start [] with img := [(0, 0x5F), (3, 0x38)] }).img = [(0, 0x57), (3, 0x38)] := by decide

/-- 2.2, the mode recorded. -/
theorem test_setRes_mode : (after (.setRes 1) (start [])).rmode = some .normal := by decide

/-- 2.3: 5376 Hz shares code 1001 and needs LP. -/
theorem test_setRate :
    (after (.setRate 10) { start [] with img := [(0, 0x07)], rmode := some .lp }).img.read 0 = 0x97 ∧
      outputs (.setRate 10) { start [] with img := [(0, 0x07)], rmode := some .hr } =
        [.respond .command .incompatibleConfiguration .none] := by decide

/-- 2.3: validity comes before compatibility. -/
theorem test_setRate_invalid : outputs (.setRate 11) (start []) = [.respond .command .invalidParameter .none] := by
  decide

/-- 2.4, the row 16G. -/
theorem test_setRange :
    (after (.setRange 3) { start [] with img := [(3, 0xC8)] }).img.read 3 = 0xF8 ∧
      outputs (.setRange 3) (start []) = [.respond .command .ok (.divisor 1024)] := by decide

/-- 2.4: SETRANGE does not touch `CFG`. -/
theorem test_setRange_cfg : (after (.setRange 2) (start [])).cfg = none := by decide

/-- 2.5 -/
theorem test_setUnit :
    outputs (.setUnit 1) (start []) = [.respond .command .ok .none] ∧
      outputs (.setUnit 2) (start []) = [.respond .command .invalidParameter .none] := by decide

/-- 3.1, the row `06 05`. -/
theorem test_setDuty :
    (after (.setDuty 5) (start [.ok []])).pwm = ⟨5, .offPhase, false, true, 0x00, 0x01⟩ ∧
      outputs (.setDuty 5) (start [.ok []]) =
        [.busWrite 25 0x25 [0x00] .ok, .timerArm 5 1 0x00, .respond .command .ok .none] := by decide

/-- 3.2 rows 2 and 5: ON_PHASE keeps running, and duty 10 stops. -/
theorem test_setDuty_running :
    outputs (.setDuty 1) (running []) = [.timerCancel 0x01, .timerArm 9 1 0x02, .respond .command .ok .none] ∧
      (after (.setDuty 10) (running [.ok []])).pwm = ⟨10, .off, true, false, 0x01, 0x02⟩ := by decide

/-- 3.3 step 2. -/
theorem test_tfire :
    (after (.tfire 0) (low [.ok []])).pwm = ⟨3, .onPhase, false, true, 0x01, 0x02⟩ ∧
      outputs (.tfire 0) (low [.ok []]) =
        [.busWrite 25 0x25 [0xFF] .ok, .timerArm 7 1 0x01, .respond .timer .ok .none] := by decide

/-- 3.3 step 3. -/
theorem test_tfire_stale : outputs (.tfire 0) (running []) = [.respond .timer .ignored .none] := by decide

/-- 5.1 #2. -/
theorem test_configure :
    outputs (.configure 7 0 10 3 1 5) (start [.ok [], .ok []]) =
      [.busWrite 25 0x25 [0x00] .ok, .timerArm 5 1 0x00, .busWrite 25 0x20 [0x9F, 0x00, 0x00, 0x30, 0x00, 0x00] .ok,
        .respond .command .ok .none] := by decide

/-- 5.1 #13: the rate is checked against the frame's own mode. -/
theorem test_configure_mode :
    (after (.configure 5 1 9 1 0 0) { start [.ok [], .ok []] with img := [(0, 0x98), (3, 0x30)], rmode := some .lp }).img =
      [(0, 0x95), (3, 0x10)] := by decide

/-- 5.2 #2. -/
theorem test_read :
    outputs .read (configured [.ok [0x00, 0x40, 0x00, 0x00, 0x00, 0xC0]]) =
      [.busRead 25 0x28 6 (.ok [0x00, 0x40, 0x00, 0x00, 0x00, 0xC0]),
        .respond .command .ok (.samples 0x40239EB851EB851F 0 0xC0239EB851EB851F)] := by decide

/-- 5.2 #1 and #4. -/
theorem test_read_errors :
    outputs .read (start []) = [.respond .command .notConfigured .none] ∧
      outputs .read (configured [.ok [1, 2, 3, 4]]) =
        [.busRead 25 0x28 6 (.ok [1, 2, 3, 4]), .respond .command .invalidInput .none] := by decide

/-- 5.3 #2: no comparison. -/
theorem test_identify :
    outputs .identify (start [.ok [0x32]]) = [.busRead 25 0x0F 1 (.ok [0x32]), .respond .command .ok (.id 50)] := by
  decide

/-- 5.3 #3. -/
theorem test_identify_fail :
    outputs .identify (start [.fail]) = [.busRead 25 0x0F 1 .fail, .respond .command .transportFailure .none] := by
  decide

/-- Section 4, the row `0A 03 01 FF 7F 00 80 01 00`. -/
theorem test_decode_si :
    outputs (.decode 3 1 0xFF 0x7F 0x00 0x80 0x01 0x00) (start []) =
      [.respond .command .ok (.samples 0x40739E91147AE148 0xC0739EB851EB851F 0x3F839EB851EB851F)] := by decide

/-- Section 4, the row `0A 02 01 00 30 88 13 00 00`: 29.43 is a rounded product. -/
theorem test_decode_rounded :
    outputs (.decode 2 1 0x00 0x30 0x88 0x13 0x00 0x00) (start []) =
      [.respond .command .ok (.samples 0x403D6E147AE147AE 0x4027F34000000000 0)] := by decide

/-- 5.1, without the controller: the duty byte is ignored. -/
theorem test_configure_noPwm :
    outputs (.configure 7 1 5 0 0 3) (startNoPwm [.ok []]) =
      [.busWrite 25 0x20 [0x57, 0x00, 0x00, 0x00, 0x00, 0x00] .ok, .respond .command .ok .none] := by decide

/-- Section 6, last row. -/
theorem test_setDuty_noPwm : outputs (.setDuty 3) (startNoPwm []) = [.respond .command .illegalCommand .none] := by
  decide

/-- The first step after reset runs the instruction placed by `withFetchWord`, whatever the platform is. -/
theorem test_step_first : isNext (step (State.reset.withFetchWord 16 0x0501)) = true := by decide

/-- Reset memory is in canonical form (10_state.md R40). -/
theorem test_reset_wf : State.reset.img.wf = true := by decide

/-- Writing 0x00 removes the entry. -/
theorem test_memory_canonical : Memory.write [(0, 0x57), (5, 0xFF)] 5 0x00 = [(0, 0x57)] := by decide

/-! ### Witnesses: states and operands that meet the hypotheses of the statements -/

theorem witness_DecodeEncodeAgree : decode [0x01, 0x07] = some (.setAxes 7) := by decide

theorem witness_FrameLengthByOpcode :
    decode [0x0A, 3, 1, 0, 0, 0, 0, 0, 0] = some (.decode 3 1 0 0 0 0 0 0) := by decide

theorem witness_IllegalFramesAnswered :
    IllegalFrame .command [0x00] true ∧ IllegalFrame .command [0x0C] true ∧ IllegalFrame .command [] true ∧
      IllegalFrame .command [0x08, 0x00] true ∧ IllegalFrame .command [0x0B, 0x00] true ∧
      IllegalFrame .timer [0x01, 0x07] true ∧ IllegalFrame .command [0x06, 0x03] (startNoPwm []).params.hasPwm ∧
      IllegalFrame .timer [0x0B, 0x00] (startNoPwm []).params.hasPwm := by
  refine ⟨?_, ?_, ?_, ?_, ?_, ?_, ?_, ?_⟩ <;> simp only [IllegalFrame] <;> decide

/-- A command waiting alone. -/
theorem witness_StepRunsDecodedInstruction_command :
    (start []).hung = false ∧ { start [] with cmdPort := [[0x01, 0x07]] }.cmdPort = [0x01, 0x07] :: [] ∧
      decodeOn .command [0x01, 0x07] = some (.setAxes 7) ∧ (start []).timerPort = [] := by decide

/-- A timer event waiting alone. -/
theorem witness_StepRunsDecodedInstruction_timer :
    (low []).hung = false ∧ { low [] with timerPort := [[0x0B, 0x00]] }.timerPort = [0x0B, 0x00] :: [] ∧
      decodeOn .timer [0x0B, 0x00] = some (.tfire 0) ∧ (low []).cmdPort = [] := by decide

/-- A state with an input on each port. -/
def tie (p : Port) : State :=
  { low [.ok []] with cmdPort := [[0x01, 0x07]], timerPort := [[0x0B, 0x00]], order := [p] }

theorem witness_StepRunsDecodedInstruction_tie :
    (tie .command).hung = false ∧ (tie .command).timerPort ≠ [] ∧ (tie .command).tiePort = .command ∧
      (tie .timer).cmdPort ≠ [] ∧ (tie .timer).tiePort = .timer := by decide

/-- A state whose only input is an empty frame. -/
def badFrame : State := { start [] with cmdPort := [[]] }

theorem witness_StepAnswersIllegalFrame :
    badFrame.hung = false ∧ badFrame.takeInput = some (.command, [], start []) ∧
      IllegalFrame .command [] badFrame.params.hasPwm := ⟨rfl, by decide, trivial⟩

theorem witness_TieAdmitsBothOrders :
    (tie .command).hung = false ∧ (tie .command).cmdPort = [0x01, 0x07] :: [] ∧
      (tie .command).timerPort = [0x0B, 0x00] :: [] := by decide

theorem witness_WaitsWithoutInputAndHangsForEver :
    ((start []).cmdPort = [] ∧ (start []).timerPort = []) ∧ { start [] with hung := true }.hung = true := by decide

/-- A READ waits, and the transport answers it, or never does. -/
def reading (as : List BusAnswer) : State := { configured as with cmdPort := [[0x08]] }

theorem witness_OneResponsePerInput :
    (reading [.fail]).hung = false ∧ (reading [.fail]).takeInput = some (.command, [0x08], configured [.fail]) ∧
      isNext (step (reading [.fail])) = true ∧
      (reading [.silent]).takeInput = some (.command, [0x08], configured [.silent]) ∧
      isNext (step (reading [.silent])) = true := by decide

/-- Each error status but `TransportFailure` is the last output of some instruction. -/
theorem witness_ErrorsLeaveNothing :
    lastStatus (after (.setAxes 8) (start [])) = some .invalidParameter ∧
      lastStatus (after (.setRate 9) (start [])) = some .incompatibleConfiguration ∧
      lastStatus (after (.setDuty 3) (startNoPwm [])) = some .illegalCommand ∧
      lastStatus (after .read (start [])) = some .notConfigured ∧
      lastStatus (after (.tfire 0) (running [])) = some .ignored ∧
      lastStatus (after .identify (start [.ok []])) = some .invalidInput := by decide

theorem witness_PreResetFireIgnored : (running []).params.hasPwm = true := by decide

theorem witness_SetAxesEffect : (7 : Byte).toNat < 8 ∧ 8 ≤ (8 : Byte).toNat := by decide
theorem witness_SetResEffect : (2 : Byte).toNat ≤ 2 ∧ 2 < (3 : Byte).toNat := by decide

theorem witness_SetRateEffect :
    ((7 : Byte).toNat ≤ 10 ∧ RateLegal 7 (start []).rmode) ∧
      ((10 : Byte).toNat ≤ 10 ∧ RateLegal 10 { start [] with rmode := some .lp }.rmode) ∧
      ((9 : Byte).toNat ≤ 10 ∧ RateLegal 9 { start [] with rmode := some .hr }.rmode) ∧
      ((8 : Byte).toNat ≤ 10 ∧ ¬ RateLegal 8 (start []).rmode) ∧
      ((9 : Byte).toNat ≤ 10 ∧ ¬ RateLegal 9 { start [] with rmode := some .lp }.rmode) ∧ 10 < (11 : Byte).toNat := by
  decide

theorem witness_SetRangeEffect : (3 : Byte).toNat ≤ 3 ∧ 3 < (4 : Byte).toNat := by decide
theorem witness_SetUnitEffect : (1 : Byte).toNat ≤ 1 ∧ 1 < (2 : Byte).toNat := by decide

theorem witness_InvalidTokensRejected :
    WellFormed (.setRange 4) = false ∧ WellFormed (.configure 7 1 10 4 0 0) = false := by decide

theorem witness_EncodersCommute :
    isImageEncoder (.setAxes 7) = true ∧ isImageEncoder (.setRes 0) = true ∧
      opcodeOf (.setAxes 7) ≠ opcodeOf (.setRes 0) ∧
      ¬ (isModeOrRate (.setAxes 7) = true ∧ isModeOrRate (.setRes 0) = true) ∧ (start []).img.wf = true ∧
      isNext (exec (.setAxes 7) (start [])) = true ∧ lastStatus (after (.setAxes 7) (start [])) = some .ok ∧
      isNext (exec (.setRes 0) (after (.setAxes 7) (start []))) = true ∧
      lastStatus (after (.setRes 0) (after (.setAxes 7) (start []))) = some .ok := by decide

theorem witness_EncodersIdempotent :
    isImageEncoder (.setRes 2) = true ∧ (start []).img.wf = true ∧ isNext (exec (.setRes 2) (start [])) = true ∧
      lastStatus (after (.setRes 2) (start [])) = some .ok := by decide

/-- The four patterns of the two resolution bits. -/
theorem witness_FieldDecoderValues :
    (10 : Byte).toNat ≤ 10 ∧
      (Memory.field [(0, 0x08)] 0 3 3 = 1 ∧ Memory.field [(0, 0x08)] 3 3 3 = 0) ∧
      (Memory.field [] 0 3 3 = 0 ∧ Memory.field [] 3 3 3 = 0) ∧
      (Memory.field [(3, 0x08)] 0 3 3 = 0 ∧ Memory.field [(3, 0x08)] 3 3 3 = 1) ∧
      (Memory.field [(0, 0x08), (3, 0x08)] 0 3 3 = 1 ∧ Memory.field [(0, 0x08), (3, 0x08)] 3 3 3 = 1) := by decide

theorem witness_FieldRoundTrip :
    (7 : Byte).toNat < 8 ∧ (0 : Byte).toNat ≤ 2 ∧ (10 : Byte).toNat ≤ 10 ∧ (3 : Byte).toNat ≤ 3 ∧
      RateLegal 10 (some (tokenMode 0)) := by decide

theorem witness_SiValueCorrectlyRounded : f64Finite 0x7FEFFFFFFFFFFFFF = true ∧ f64Finite 0 = true := by decide

/-- A zero word, and a word that is a power of two in magnitude. -/
theorem witness_DecodedSpecialValues :
    leWord 0x00 0x00 = 0 ∧ (leWord 0x00 0x80).toInt.natAbs = 2 ^ 15 ∧ (leWord 0x01 0x00).toInt.natAbs = 2 ^ 0 := by
  decide

theorem witness_LanesIndependent : (0x12 : Byte) = 0x12 ∧ (0x34 : Byte) = 0x34 := by decide

theorem witness_DecodeEffect :
    ((3 : Byte).toNat ≤ 3 ∧ (1 : Byte).toNat ≤ 1) ∧ 3 < (4 : Byte).toNat ∧ 1 < (2 : Byte).toNat := by decide

theorem witness_ClampValues :
    (0 : Int) ≤ 0 ∧ (10 : Int) ≤ 10 ∧ ((0 : Int) < 1 ∧ (1 : Int) < 10) ∧ ((0 : Int) < 9 ∧ (9 : Int) < 10) := by decide

theorem witness_SetDutyStops :
    (running []).params.hasPwm = true ∧ (0 : Byte).toInt ≤ 0 ∧ (0x80 : Byte).toInt ≤ 0 ∧ 10 ≤ (0x0A : Byte).toInt ∧
      nextWrite (running [.ok []]) = .ok ∧ nextWrite (running [.fail]) = .fail ∧
      nextWrite (running [.silent]) = .silent := by decide

theorem witness_SetDutyStarts :
    (start [.ok []]).params.hasPwm = true ∧ (0 < (1 : Byte).toInt ∧ (1 : Byte).toInt < 10) ∧
      (0 < (9 : Byte).toInt ∧ (9 : Byte).toInt < 10) ∧ (start [.ok []]).pwm.phase = .off ∧
      nextWrite (start [.ok []]) = .ok := by decide

theorem witness_SetDutyRearms :
    (running []).params.hasPwm = true ∧ (0 < (1 : Byte).toInt ∧ (9 : Byte).toInt < 10) ∧
      (running []).pwm.phase ≠ .off ∧ (low []).pwm.phase ≠ .off := by decide

theorem witness_FireTogglesAndRearms :
    ((running [.ok []]).params.hasPwm = true ∧ (running [.ok []]).pwm.armed = true ∧
      (running [.ok []]).pwm.stop = false ∧ (running [.ok []]).pwm.phase ≠ .off ∧
      nextWrite (running [.ok []]) = .ok) ∧
    ((low [.ok []]).params.hasPwm = true ∧ (low [.ok []]).pwm.armed = true ∧ (low [.ok []]).pwm.stop = false ∧
      (low [.ok []]).pwm.phase ≠ .off ∧ nextWrite (low [.ok []]) = .ok) := by decide

theorem witness_StaleFireIgnored :
    ((start []).params.hasPwm = true ∧ (start []).pwm.armed = false) ∧
      ((running []).params.hasPwm = true ∧ (0 : Byte) ≠ (running []).pwm.handle) := by decide

/-- No reachable state is such (10_state.md R31(a)); the hypotheses are met all the same. -/
def stoppedArmed : State := { running [.ok []] with pwm := ⟨10, .onPhase, true, true, 0x01, 0x02⟩ }

theorem witness_StoppedFireDoesNotArm :
    stoppedArmed.params.hasPwm = true ∧ stoppedArmed.pwm.armed = true ∧ stoppedArmed.pwm.stop = true ∧
      nextWrite stoppedArmed = .ok := by decide

theorem witness_FailPolicyDecidesArming :
    ((start [.fail]).params.hasPwm = true ∧ nextWrite (start [.fail]) = .fail ∧ 0 < (1 : Byte).toInt ∧
      (9 : Byte).toInt < 10 ∧ (start [.fail]).pwm.phase = .off ∧
      (start [.fail]).params.failPolicy = .continueArming) ∧
    (nextWrite (startHalt [.fail]) = .fail ∧ (startHalt [.fail]).pwm.phase = .off ∧
      (startHalt [.fail]).params.failPolicy = .halt) ∧
    (nextWrite (running [.fail]) = .fail ∧ (running [.fail]).pwm.armed = true ∧
      (running [.fail]).pwm.stop = false ∧ (running [.fail]).pwm.phase ≠ .off) ∧
    { running [.fail] with params := platform true .halt }.params.failPolicy = .halt := by decide

theorem witness_UnansweredOutputWriteHangs :
    ((start [.silent]).params.hasPwm = true ∧ nextWrite (start [.silent]) = .silent ∧ 0 < (1 : Byte).toInt ∧
      (9 : Byte).toInt < 10 ∧ (start [.silent]).pwm.phase = .off) ∧
    (nextWrite (running [.silent]) = .silent ∧ (running [.silent]).pwm.armed = true) := by decide

/-- `PwmInv` holds of a running controller, in both phases. -/
theorem pwmInv_running (as : List BusAnswer) : PwmInv (running as) :=
  ⟨fun _ => ⟨rfl, fun h => nomatch h⟩, (fun h => nomatch h), fun _ => (by decide : 1 ≤ 3 ∧ 3 ≤ 9), fun _ _ _ => rfl,
    fun _ => rfl, fun h => absurd rfl h⟩

theorem pwmInv_low (as : List BusAnswer) : PwmInv (low as) :=
  ⟨fun _ => ⟨rfl, fun h => nomatch h⟩, (fun h => nomatch h), fun _ => (by decide : 1 ≤ 3 ∧ 3 ≤ 9), fun _ _ _ => rfl,
    (fun h => nomatch h), fun _ => rfl⟩

theorem witness_StepIssuesAllowedRequests :
    PwmInv (running [.ok []]) ∧ isNext (step { running [.ok []] with timerPort := [[0x0B, 0x01]] }) = true :=
  ⟨pwmInv_running _, by decide⟩

theorem witness_WaveformPeriods :
    PwmInv (low [.ok [], .ok []]) ∧ (low [.ok [], .ok []]).params.hasPwm = true ∧
      (low [.ok [], .ok []]).pwm.armed = true ∧ (low [.ok [], .ok []]).pwm.phase = .offPhase ∧
      nextWrite (low [.ok [], .ok []]) = .ok ∧ nextWrite (low [.ok [], .ok []]).drawn = .ok :=
  ⟨pwmInv_low _, rfl, rfl, rfl, rfl, rfl⟩

theorem witness_DutyTwiceArmsOneTimer :
    (running [.ok [], .ok []]).params.hasPwm = true ∧ TimerInv (running [.ok [], .ok []]) ∧
      nextWrite (running [.ok [], .ok []]) = .ok ∧ nextWrite (running [.ok [], .ok []]).drawn = .ok :=
  ⟨rfl, by unfold TimerInv; decide, rfl, rfl⟩

/-- Where CONFIGURE's duty step ends. -/
def dutyEnd (as : List BusAnswer) : Ended := ((start as).committed [(0, 0x57)] .normal).dutyStep 3

/-- The writes succeed with the controller off (two writes), running (one, the next answer being `Fail`) and absent. -/
theorem witness_ConfigureSucceeds :
    ConfigureValid 7 0 10 3 1 ∧ (∃ v, dutyEnd [.ok [], .ok []] = .done v ∧ nextWrite v = .ok) ∧
      ConfigureWritesOk 3 (start [.ok [], .ok []]) ∧ ConfigureWritesOk 1 (running [.ok [], .fail]) ∧
      ConfigureWritesOk 0 (startNoPwm [.ok [], .fail]) ∧ (start []).params.hasPwm = true ∧
      (startNoPwm []).params.hasPwm = false :=
  ⟨by unfold ConfigureValid; decide, ⟨_, rfl, rfl⟩, by unfold ConfigureWritesOk dutyWrites; decide,
    by unfold ConfigureWritesOk dutyWrites; decide, by unfold ConfigureWritesOk dutyWrites; decide, rfl, rfl⟩

/-- Each check fails first for some operands (43_driver.md R201). -/
theorem witness_ConfigureRejects :
    ConfigureError 8 1 5 9 0 .invalidParameter ∧ ConfigureError 7 3 5 0 0 .invalidParameter ∧
      ConfigureError 7 1 11 0 0 .invalidParameter ∧ ConfigureError 7 1 10 4 0 .incompatibleConfiguration ∧
      ConfigureError 7 1 5 4 0 .invalidParameter ∧ ConfigureError 7 1 5 3 2 .invalidParameter := by
  unfold ConfigureError; decide

theorem witness_ConfigureTransportFailure :
    ConfigureValid 7 1 5 0 0 ∧ (∃ v, dutyEnd [.fail] = .failed v) ∧
      ∃ v, dutyEnd [.ok [], .fail] = .done v ∧ nextWrite v = .fail :=
  ⟨by unfold ConfigureValid; decide, ⟨_, rfl⟩, _, rfl, rfl⟩

theorem witness_UnansweredConfigureHangs :
    ConfigureValid 7 1 5 0 0 ∧ (∃ v, dutyEnd [.silent] = .hung v) ∧
      (∃ v, dutyEnd [.ok [], .silent] = .done v ∧ nextWrite v = .silent) ∧ (start [.silent]).params.hasPwm = true ∧
      dutyWrites 3 (start [.silent]) ∧ nextWrite (start [.silent]) = .silent :=
  ⟨by unfold ConfigureValid; decide, ⟨_, rfl⟩, ⟨_, rfl, rfl⟩, rfl, .inr (.inr rfl), rfl⟩

/-- Two CONFIGUREs in a row succeed. -/
theorem witness_ConfigureIdempotent :
    (running [.ok [], .ok []]).img.wf = true ∧
      isNext (exec (.configure 7 1 5 1 1 3) (running [.ok [], .ok []])) = true ∧
      lastStatus (after (.configure 7 1 5 1 1 3) (running [.ok [], .ok []])) = some .ok ∧
      isNext (exec (.configure 7 1 5 1 1 3) (after (.configure 7 1 5 1 1 3) (running [.ok [], .ok []]))) = true ∧
      lastStatus (after (.configure 7 1 5 1 1 3) (after (.configure 7 1 5 1 1 3) (running [.ok [], .ok []]))) =
        some .ok := by decide

theorem witness_ConfigureIgnoresOldMode :
    isNext (exec (.configure 7 1 9 0 0 0) (start [.ok [], .ok []])) = true ∧ ConfigureValid 7 1 9 0 0 :=
  ⟨by decide, by unfold ConfigureValid; decide⟩

theorem witness_ReadEffect :
    (start []).cfg = none ∧ (configured []).cfg = some ⟨.d16384, .si⟩ ∧
      (configured [.ok [1, 2, 3, 4, 5, 6]]).nextAnswer = .ok [1, 2, 3, 4, 5, 6] ∧
      (configured [.ok [1, 2, 3, 4, 5, 6, 7]]).nextAnswer = .ok [1, 2, 3, 4, 5, 6, 7] ∧
      [1, 2, 3, 4, 5, 6, 7].length ≠ 6 ∧ (configured [.fail]).nextAnswer = .fail := by decide

theorem witness_UnansweredReadHangs :
    (configured [.silent]).nextAnswer = .silent ∧ (configured [.silent]).cfg ≠ none := by decide

theorem witness_IdentifyEffect :
    (start [.ok [0x33]]).nextAnswer = .ok [0x33] ∧ (start [.ok []]).nextAnswer = .ok [] ∧ ([] : List Byte).length ≠ 1 ∧
      (start [.ok [0x33, 0x00]]).nextAnswer = .ok [0x33, 0x00] ∧ [0x33, 0x00].length ≠ 1 ∧
      (start [.fail]).nextAnswer = .fail := by decide

/-- Each column of the table (10_state.md R34): a command outside it, and a CONFIGURE that changes `CFG`. -/
theorem witness_CommandsWriteOnlyTheirState :
    isNext (exec (.setRate 7) (start [])) = true ∧ mayWriteMode (.setRate 7) = false ∧
      mayWritePwm (.setRate 7) = false ∧ mayWriteCfg (.setRate 7) = false ∧
      ((0, 2, 0) ∈ encoderFields ∧ mayWriteField 0 2 0 (.setRate 7) = false) ∧
      (after (.configure 7 1 5 0 0 0) (start [.ok [], .ok []])).cfg ≠ (start [.ok [], .ok []]).cfg := by decide

theorem witness_StepKeepsPwmInvariants :
    PwmInv (running [.silent]) ∧ isNext (step (running [.silent])) = true := ⟨pwmInv_running _, by decide⟩

/-- A configured image. -/
def packed : State := { start [] with img := [(0, 0x97), (3, 0x38)], rmode := some .hr }

theorem witness_StepKeepsImageInvariant : ImageInv packed ∧ isNext (step packed) = true :=
  ⟨⟨by decide, by decide, by decide, by decide, by decide, fun h => nomatch h⟩, by decide⟩

theorem witness_StepKeepsAbsentPwm :
    NoPwmInv (startNoPwm []) ∧ isNext (step { startNoPwm [] with cmdPort := [[0x06, 0x03]] }) = true :=
  ⟨fun _ => ⟨rfl, rfl⟩, by decide⟩

theorem witness_StepKeepsTimerInvariant :
    TimerInv (running []) ∧ NoPwmInv (running []) ∧ isNext (step (running [])) = true :=
  ⟨by unfold TimerInv; decide, (fun h => nomatch h), by decide⟩

theorem witness_StepKeepsIndicatorInvariant : IndicatorInv (running []) ∧ isNext (step (running [])) = true :=
  ⟨fun _ => .inl (by decide), by decide⟩

theorem witness_InvariantsAtReset :
    (start [] = State.resetWith (platform true .continueArming) ∨ start [] = State.reset) ∧
      State.reset = State.reset := ⟨.inl rfl, rfl⟩

theorem witness_ReachableStatesMeetInvariants : Reachable (State.resetWith (platform true .halt)) := .reset _

end Sys2Proof.Tests
end

/-! SUPPORT. The step (00_scope.md R9): what a taken frame does, legal or not, and how an input ends. -/

namespace Sys2Proof

/-! ### Frames and the instructions they stand for -/

theorem encode_of_operandsF1 {k : Byte → Instr} {op : Byte} {args : List Byte} {i : Instr}
    (hk : ∀ x, encode (k x) = [op, x]) (h : operandsF1 k args = some i) : encode i = op :: args := by
  obtain ⟨x, rfl, rfl⟩ := operandsF1_some h
  exact hk x

/-- R70, R86: a frame that decodes is the frame of its instruction. -/
theorem encode_of_decode {f : Frame} {i : Instr} (h : decode f = some i) : encode i = f := by
  cases f with
  | nil => cases h
  | cons op args =>
    rw [decode] at h
    -- the opcodes in the order `decode` tests them, by operand format
    iterate 6
      split at h
      · subst op
        exact encode_of_operandsF1 (fun _ => rfl) h
    split at h
    · subst op
      obtain ⟨a, m, r, g, u, d, rfl, rfl⟩ := operandsF6_some h
      rfl
    iterate 2
      split at h
      · subst op
        obtain ⟨rfl, rfl⟩ := operandsF0_some h
        rfl
    split at h
    · subst op
      obtain ⟨g, u, b0, b1, b2, b3, b4, b5, rfl, rfl⟩ := operandsF8_some h
      rfl
    split at h
    · subst op
      exact encode_of_operandsF1 (fun _ => rfl) h
    · cases h

end Sys2Proof

namespace Sys2Proof.Machine

/-- The two instructions that need the PWM controller (30_encoding.md R88 (d)). -/
def needsPwm : Instr → Bool
  | .setDuty _ => true
  | .tfire _ => true
  | _ => false

/-- An instruction's own frame on its own port is illegal only for want of the controller. -/
theorem needsPwm_of_illegalFrame {i : Instr} {b : Bool} (h : IllegalFrame i.port (encode i) b) :
    b = false ∧ needsPwm i = true := by
  cases i with
  | setDuty | tfire =>
    simpa [IllegalFrame, encode, opcodeOf, operandsOf, Instr.port, frameLength, needsPwm] using h
  | _ => simp [IllegalFrame, encode, opcodeOf, operandsOf, Instr.port, frameLength] at h

/-- Without the controller its instructions answer `IllegalCommand` and do nothing else. -/
theorem exec_needsPwm {i : Instr} {s : State} (hi : needsPwm i = true) (hp : s.params.hasPwm = false) :
    exec i s = .next (s.illegal i.port) := by
  cases i with
  | setDuty d => simp [exec, execSetDuty, hp, Instr.port]
  | tfire h => simp [exec, execTfire, hp, Instr.port]
  | _ => cases hi

/-! ### Running a frame -/

theorem runFrame_of_some {p : Port} {f : Frame} {i : Instr} (s : State) (h : decodeOn p f = some i) :
    runFrame p f s = exec i s := by
  simp only [runFrame, h]

theorem runFrame_of_none {p : Port} {f : Frame} (s : State) (h : decodeOn p f = none) :
    runFrame p f s = .next (s.illegal p) := by
  simp only [runFrame, h]

/-- R88: an illegal frame is answered `IllegalCommand`, whether the decoder or the missing controller refuses it. -/
theorem runFrame_illegalFrame {p : Port} {f : Frame} {s : State} (h : IllegalFrame p f s.params.hasPwm) :
    runFrame p f s = .next (s.illegal p) := by
  cases hd : decodeOn p f with
  | none => exact runFrame_of_none s hd
  | some i =>
    obtain ⟨hf, rfl⟩ := decodeOn_some hd
    rw [← encode_of_decode hf] at h
    obtain ⟨hp, hi⟩ := needsPwm_of_illegalFrame h
    rw [runFrame_of_some s hd, exec_needsPwm hi hp]

/-! ### Taking an input -/

theorem takeInput_command_alone {s : State} {f : Frame} {rest : List Frame} (hc : s.cmdPort = f :: rest)
    (ht : s.timerPort = []) : s.takeInput = some (.command, f, { s with cmdPort := rest }) := by
  simp only [State.takeInput, hc, ht]

theorem takeInput_timer_alone {s : State} {f : Frame} {rest : List Frame} (ht : s.timerPort = f :: rest)
    (hc : s.cmdPort = []) : s.takeInput = some (.timer, f, { s with timerPort := rest }) := by
  simp only [State.takeInput, hc, ht]

theorem takeInput_command_tie {s : State} {f : Frame} {rest : List Frame} (hc : s.cmdPort = f :: rest)
    (ht : s.timerPort ≠ []) (hp : s.tiePort = .command) :
    s.takeInput = some (.command, f, { s.tieSettled with cmdPort := rest }) := by
  obtain ⟨e, es, he⟩ := List.exists_cons_of_ne_nil ht
  simp only [State.takeInput, hc, he, hp]

theorem takeInput_timer_tie {s : State} {f : Frame} {rest : List Frame} (ht : s.timerPort = f :: rest)
    (hc : s.cmdPort ≠ []) (hp : s.tiePort = .timer) :
    s.takeInput = some (.timer, f, { s.tieSettled with timerPort := rest }) := by
  obtain ⟨c, cs, he⟩ := List.exists_cons_of_ne_nil hc
  simp only [State.takeInput, ht, he, hp]

/-- The step of a block that takes a frame which decodes. -/
theorem step_taken_of_some {s u : State} {p : Port} {f : Frame} {i : Instr} (hh : s.hung = false)
    (hd : decodeOn p f = some i) (hu : s.takeInput = some (p, f, u)) : step s = exec i (u.emit (.take p f)) :=
  (step_taken hh hu).trans (runFrame_of_some _ hd)

/-- Settles O7: each of the four ways an input is taken is one equation of `takeInput`. -/
theorem stepRunsDecodedInstruction : Obligations.StepRunsDecodedInstruction := by
  intro s f rest i hh
  refine ⟨fun hc hd => ⟨fun ht => ?_, fun ht hp => ?_⟩, fun ht hd => ⟨fun hc => ?_, fun hc hp => ?_⟩⟩
  · exact step_taken_of_some hh hd (takeInput_command_alone hc ht)
  · exact step_taken_of_some hh hd (takeInput_command_tie hc ht hp)
  · exact step_taken_of_some hh hd (takeInput_timer_alone ht hc)
  · exact step_taken_of_some hh hd (takeInput_timer_tie ht hc hp)

/-- Settles O8: taking the input keeps the registers, and the illegal frame adds its one response. -/
theorem stepAnswersIllegalFrame : Obligations.StepAnswersIllegalFrame := by
  intro s p f u hh hu hf
  obtain ⟨⟨himg, hrmode, hcfg, hpwm⟩, hparams, -, -, htrace⟩ := takeInput_keeps hu
  refine ⟨(u.emit (.take p f)).illegal p, ?_, ⟨himg, hrmode, hcfg, hpwm⟩, ⟨rfl, rfl, rfl, rfl, rfl, rfl, rfl⟩, ?_⟩
  · rw [step_taken hh hu, runFrame_illegalFrame (by simpa [hparams] using hf)]
  · simp [Outputs, htrace]

/-! ### How an input ends -/

/-- From `s`, an input of port `p` ended in `t`: requests, then exactly one response; or it hangs on a request. -/
def EndsInput (p : Port) (s t : State) : Prop :=
  ∃ es : List Event, (∀ e ∈ es, isRequest e = true) ∧
    ((t.hung = false ∧ ∃ st d, t.trace = s.trace ++ es ++ [.respond p st d] ∧ (st ≠ .ok → d = .none)) ∨
      (t.hung = true ∧ es ≠ [] ∧ t.trace = s.trace ++ es))

/-- An input that issues no request and answers. -/
theorem EndsInput.respond {p : Port} {s t : State} {st : Status} {d : RespData} (hh : t.hung = false)
    (ht : t.trace = s.trace ++ [.respond p st d]) (hd : st ≠ .ok → d = .none) : EndsInput p s t :=
  ⟨[], by simp, .inl ⟨hh, st, d, by simpa using ht, hd⟩⟩

/-- An input that issues one request and answers. -/
theorem EndsInput.request_respond {p : Port} {s t : State} {r : Event} {st : Status} {d : RespData}
    (hr : isRequest r = true) (hh : t.hung = false) (ht : t.trace = s.trace ++ [r] ++ [.respond p st d])
    (hd : st ≠ .ok → d = .none) : EndsInput p s t :=
  ⟨[r], by simpa using hr, .inl ⟨hh, st, d, ht, hd⟩⟩

/-- A body of requests only ends its input. -/
theorem RequestsOnly.endsInput {s : State} {e : Ended} (h : RequestsOnly s e) (hh : s.hung = false) (p : Port) :
    EndsInput p s (e.finish p) := by
  obtain ⟨es, htrace, hreq, hend⟩ := h
  have answered (u : State) (hu : u.trace = s.trace ++ es) (st : Status) :
      (u.respond p st .none).trace = s.trace ++ es ++ [.respond p st .none] := by rw [State.trace_respond, hu]
  refine ⟨es, hreq, ?_⟩
  cases e with
  | done t => exact .inl ⟨hend.trans hh, .ok, .none, answered t htrace .ok, fun _ => rfl⟩
  | failed t =>
    obtain ⟨hkeep, -⟩ := hend
    exact .inl ⟨hkeep.trans hh, .transportFailure, .none, answered t htrace .transportFailure, fun _ => rfl⟩
  | hung t =>
    obtain ⟨hhung, hne⟩ := hend
    exact .inr ⟨hhung, hne, htrace⟩

/-- READ and IDENTIFY are commands of the command port. -/
theorem port_of_read_or_identify {i : Instr} (h : i = .read ∨ i = .identify) : i.port = .command := by
  rcases h with rfl | rfl <;> rfl

/-- R9: every instruction ends its input, on its own port. -/
theorem ExecCase.endsInput {i : Instr} {s t : State} (h : ExecCase s i t) (hh : s.hung = false) :
    EndsInput i.port s t := by
  cases h with
  | answer i st d _ hd => exact .respond hh rfl hd
  | axes | res | rate => exact .respond hh rfl (fun _ => rfl)
  | range => exact .respond hh rfl (fun h => absurd rfl h)
  | readOk i hi reg n _ b st d _ hd =>
    rw [port_of_read_or_identify hi]
    exact .request_respond (r := .busRead s.params.devAddr reg n (.ok b)) rfl (by simpa using hh) (by simp) hd
  | readFail i hi reg n =>
    rw [port_of_read_or_identify hi]
    exact .request_respond (r := .busRead s.params.devAddr reg n .fail) (st := .transportFailure) rfl
      (by simpa using hh) (by simp) (fun _ => rfl)
  | readSilent i hi reg n =>
    exact ⟨[.busRead s.params.devAddr reg n .silent], by simp [isRequest], .inr ⟨rfl, by simp, by simp⟩⟩
  | duty d => exact (RequestsOnly.setDuty s d).endsInput hh .command
  | fire => exact (RequestsOnly.fire s).endsInput hh .timer
  | configure a m r g u d =>
    exact (RequestsOnly.configureTail (s.committed (validatedImage s.img a m r g) (tokenMode m)) d
      ⟨tokenDivisor g, tokenUnit u⟩).endsInput hh .command

/-- R9: a frame that is run ends its input, on the port it came on. -/
theorem runFrame_endsInput {p : Port} {f : Frame} {s t : State} (hh : s.hung = false)
    (h : runFrame p f s = .next t) : EndsInput p s t := by
  cases hd : decodeOn p f with
  | none =>
    rw [runFrame_of_none s hd] at h
    cases h
    exact .respond hh rfl (fun _ => rfl)
  | some i =>
    obtain ⟨-, rfl⟩ := decodeOn_some hd
    rw [runFrame_of_some s hd] at h
    exact (exec_case h).endsInput hh

/-- Settles O12: the step runs the taken frame, and a frame that is run ends its input. -/
theorem oneResponsePerInput : Obligations.OneResponsePerInput := by
  intro s u t p f hh hu hs
  obtain ⟨-, -, hung, -, htrace⟩ := takeInput_keeps hu
  rw [step_taken hh hu] at hs
  obtain ⟨es, hreq, hend⟩ := runFrame_endsInput (by simp [hung, hh]) hs
  exact ⟨es, hreq, by simpa [htrace] using hend⟩

end Sys2Proof.Machine

/-! SUPPORT. The state (10_state.md): what a command writes, the registers after reset, and the invariants that every
step keeps. -/

namespace Sys2Proof.Machine

/-! ### What the PWM path sees of a change -/

/-- Of the registers, parameters and outputs the PWM path rests on, nothing changed between `s` and `t`; a hang may have
begun. -/
structure KeepsPwmPath (s t : State) : Prop where
  pwm       : t.pwm = s.pwm
  indicator : t.img.read 5 = s.img.read 5
  params    : t.params = s.params
  hung      : t.hung = false → s.hung = false
  lastWrite : lastWriteOk t.trace = lastWriteOk s.trace
  level     : indicatorLevel t.trace = indicatorLevel s.trace
  failed    : pwmWriteFailed t.trace = pwmWriteFailed s.trace

/-- Nor did the timer requests outstanding at the collaborator change. -/
structure KeepsTimerPath (s t : State) : Prop extends KeepsPwmPath s t where
  requests : outstanding t.trace = outstanding s.trace

/-- A read or a response: it tells nothing of the last write, the indicator or the timer (10_state.md R36). -/
def isQuiet : Event → Bool
  | .busRead .. => true
  | .respond .. => true
  | _ => false

theorem KeepsTimerPath.refl (s : State) : KeepsTimerPath s s :=
  ⟨⟨rfl, rfl, rfl, id, rfl, rfl, rfl⟩, rfl⟩

theorem KeepsPwmPath.trans {s t u : State} (h : KeepsPwmPath s t) (k : KeepsPwmPath t u) : KeepsPwmPath s u :=
  ⟨k.pwm.trans h.pwm, k.indicator.trans h.indicator, k.params.trans h.params, fun hu => h.hung (k.hung hu),
    k.lastWrite.trans h.lastWrite, k.level.trans h.level, k.failed.trans h.failed⟩

theorem KeepsTimerPath.trans {s t u : State} (h : KeepsTimerPath s t) (k : KeepsTimerPath t u) : KeepsTimerPath s u :=
  ⟨h.toKeepsPwmPath.trans k.toKeepsPwmPath, k.requests.trans h.requests⟩

theorem KeepsTimerPath.emit (s : State) {e : Event} (he : isQuiet e = true) : KeepsTimerPath s (s.emit e) := by
  cases e with
  | busRead | respond =>
    exact ⟨⟨rfl, rfl, rfl, id, by simp [lastWriteOk_append, lastWriteStep],
      by simp [indicatorLevel_append, indicatorStep], by simp [pwmWriteFailed]⟩,
      by simp [outstanding_append, outstandingStep]⟩
  | _ => cases he

/-- The taking of an input changes at most what is outstanding at the timer. -/
theorem KeepsPwmPath.emit_take (s : State) (p : Port) (f : Frame) : KeepsPwmPath s (s.emit (.take p f)) :=
  ⟨rfl, rfl, rfl, id, by simp [lastWriteOk_append, lastWriteStep], by simp [indicatorLevel_append, indicatorStep],
    by simp [pwmWriteFailed]⟩

theorem KeepsTimerPath.drawn (s : State) : KeepsTimerPath s s.drawn :=
  ⟨⟨by simp, by simp, by simp, by simp, by simp, by simp, by simp⟩, by simp⟩

theorem KeepsTimerPath.hang (s : State) : KeepsTimerPath s { s with hung := true } :=
  ⟨⟨rfl, rfl, rfl, fun h => absurd h Bool.noConfusion, rfl, rfl, rfl⟩, rfl⟩

/-- `RMODE`, `CFG` and the image's bytes but the indicator's are none of the PWM path's registers. -/
theorem KeepsTimerPath.registers (s : State) {w : Memory} (m : Option Mode) (c : Option ReadCfg)
    (hw : w.read 5 = s.img.read 5) : KeepsTimerPath s { s with img := w, rmode := m, cfg := c } :=
  ⟨⟨rfl, hw, rfl, id, rfl, rfl, rfl⟩, rfl⟩

theorem KeepsTimerPath.finish (e : Ended) (p : Port) : KeepsTimerPath e.state (e.finish p) := by
  cases e with
  | done t | failed t => exact .emit t rfl
  | hung t => exact .refl t

theorem KeepsTimerPath.takeInput {s u : State} {p : Port} {f : Frame} (h : s.takeInput = some (p, f, u)) :
    KeepsTimerPath s u := by
  obtain ⟨⟨himg, -, -, hpwm⟩, hparams, hhung, -, htrace⟩ := takeInput_keeps h
  exact ⟨⟨hpwm, by rw [himg], hparams, by simp [hhung], by rw [htrace], by rw [htrace], by rw [htrace]⟩, by rw [htrace]⟩

/-! ### The PWM path in an instruction and in a step -/

/-- A CONFIGURE that passed validation, from the commit on (43_driver.md R200). -/
def State.configured (s : State) (a m r g u d : Byte) : Ended :=
  (s.committed (validatedImage s.img a m r g) (tokenMode m)).configureTail d ⟨tokenDivisor g, tokenUnit u⟩

/-- An instruction leaves the PWM path alone, or it runs SETDUTY, an accepted fire or CONFIGURE (10_state.md R34). -/
theorem ExecCase.keepsTimerPath_or_pwm {i : Instr} {s t : State} (h : ExecCase s i t) :
    KeepsTimerPath s t ∨
    (∃ d, i = .setDuty d ∧ s.params.hasPwm = true ∧ t = (s.setDutyBody d).finish .command) ∨
    (i = .tfire s.pwm.handle ∧ s.params.hasPwm = true ∧ s.pwm.armed = true ∧ t = s.fireBody.finish .timer) ∨
    (∃ a m r g u d, i = .configure a m r g u d ∧ t = (s.configured a m r g u d).finish .command) := by
  have field {k hi lo : Nat} (v : Byte) (hk : 5 ≠ k) (m : Option Mode) : KeepsTimerPath s
      { s with img := s.img.setField k hi lo v, rmode := m } :=
    .registers s m s.cfg (Memory.read_setField_other _ _ _ _ hk)
  cases h with
  | answer => exact .inl (.emit s rfl)
  | axes a => exact .inl ((field a (by decide) s.rmode).trans (.emit _ rfl))
  | rate r => exact .inl ((field (tokenCode r) (by decide) s.rmode).trans (.emit _ rfl))
  | range g => exact .inl ((field g (by decide) s.rmode).trans (.emit _ rfl))
  | res m =>
    refine .inl (.trans (.registers s (some (tokenMode m)) s.cfg ?_) (.emit _ rfl))
    simp [Memory.read_setField]
  | readOk | readFail => exact .inl (((KeepsTimerPath.drawn s).trans (.emit _ rfl)).trans (.emit _ rfl))
  | readSilent => exact .inl (((KeepsTimerPath.drawn s).trans (.emit _ rfl)).trans (.hang _))
  | duty d hp => exact .inr (.inl ⟨d, rfl, hp, rfl⟩)
  | fire hp ha => exact .inr (.inr (.inl ⟨rfl, hp, ha, rfl⟩))
  | configure a m r g u d => exact .inr (.inr (.inr ⟨a, m, r, g, u, d, rfl, rfl⟩))

/-- `P` rests on the PWM path only, and SETDUTY's body and CONFIGURE's block write keep it. -/
structure PwmPathInvariant (P : State → Prop) : Prop where
  quiet : ∀ {s t : State}, KeepsTimerPath s t → P s → P t
  duty  : ∀ {s : State} (d : Byte), s.params.hasPwm = true → P s → P (s.setDutyBody d).state
  block : ∀ {s : State} (a : WriteAnswer), P s → P (s.wrote s.params.ctrlBase s.img.payload a)

theorem PwmPathInvariant.dutyStep {P : State → Prop} (hP : PwmPathInvariant P) {s : State} (d : Byte) (hs : P s) :
    P (s.dutyStep d).state := by
  unfold State.dutyStep
  split
  · exact hP.duty d ‹_› hs
  · exact hs

theorem PwmPathInvariant.configureTail {P : State → Prop} (hP : PwmPathInvariant P) {s : State} (d : Byte)
    (c : ReadCfg) (hs : P s) : P (s.configureTail d c).state := by
  have hduty := hP.dutyStep d hs
  rcases configureTail_cases s d c with ⟨he, -⟩ | ⟨t, ht, hblock⟩
  · rwa [he]
  · rw [ht] at hduty
    rcases hblock with ⟨-, he⟩ | ⟨-, he⟩ | ⟨-, he⟩ <;> rw [he]
    · exact hP.quiet (.registers _ _ (some c) rfl) (hP.block .ok hduty)
    · exact hP.block .fail hduty
    · exact hP.block .silent hduty

/-- An instruction keeps such a predicate, if an accepted fire does. -/
theorem PwmPathInvariant.exec {P : State → Prop} (hP : PwmPathInvariant P) {i : Instr} {s t : State}
    (h : exec i s = .next t) (hs : P s)
    (fire : i = .tfire s.pwm.handle → s.params.hasPwm = true → s.pwm.armed = true → P s.fireBody.state) : P t := by
  rcases (exec_case h).keepsTimerPath_or_pwm with hk | ⟨d, -, hp, rfl⟩ | ⟨hi, hp, ha, rfl⟩ | ⟨a, m, r, g, u, d, -, rfl⟩
  · exact hP.quiet hk hs
  · exact hP.quiet (.finish _ _) (hP.duty d hp hs)
  · exact hP.quiet (.finish _ _) (fire hi hp ha)
  · refine hP.quiet (.finish _ _) (hP.configureTail d _ (hP.quiet ?_ hs))
    exact .registers s _ s.cfg (validatedImage_read s.img (by decide) (by decide))

/-- A frame keeps such a predicate, if an accepted fire does. -/
theorem PwmPathInvariant.runFrame {P : State → Prop} (hP : PwmPathInvariant P) {p : Port} {f : Frame} {s t : State}
    (h : runFrame p f s = .next t) (hs : P s)
    (fire : decodeOn p f = some (.tfire s.pwm.handle) → s.params.hasPwm = true → s.pwm.armed = true →
      P s.fireBody.state) : P t := by
  cases hf : decodeOn p f with
  | none =>
    rw [runFrame_of_none s hf] at h
    cases h
    exact hP.quiet (.emit s rfl) hs
  | some i =>
    rw [runFrame_of_some s hf] at h
    exact hP.exec h hs fun hi => fire (by rw [hf, hi])

/-- A step changes nothing, or it runs the frame it takes. -/
theorem step_runs {s t : State} (h : step s = .next t) :
    t = s ∨ ∃ p f u, s.takeInput = some (p, f, u) ∧ runFrame p f (u.emit (.take p f)) = .next t := by
  rcases step_cases h with rfl | ⟨p, f, u, -, hu, ⟨i, hf, hi⟩ | ⟨hf, rfl⟩⟩
  · exact .inl rfl
  · exact .inr ⟨p, f, u, hu, by rwa [runFrame_of_some _ hf]⟩
  · exact .inr ⟨p, f, u, hu, runFrame_of_none _ hf⟩

/-- A step keeps such a predicate, if an accepted fire does and the predicate does not rest on the timer's requests. -/
theorem PwmPathInvariant.step {P : State → Prop} (hP : PwmPathInvariant P)
    (keeps : ∀ {s t : State}, KeepsPwmPath s t → P s → P t)
    (fire : ∀ {s : State}, s.params.hasPwm = true → s.pwm.armed = true → P s → P s.fireBody.state)
    {s t : State} (hs : P s) (h : step s = .next t) : P t := by
  rcases step_runs h with rfl | ⟨p, f, u, hu, hr⟩
  · exact hs
  · have taken : P (u.emit (.take p f)) := keeps (.emit_take u p f) (hP.quiet (.takeInput hu) hs)
    exact hP.runFrame hr taken (fun _ hp ha => fire hp ha taken)

/-! ### The states SETDUTY and a fire end in -/

@[simp] theorem Ended.state_of (a : WriteAnswer) (s : State) : (Ended.of a s).state = s := by cases a <;> rfl

@[simp] theorem State.pwm_dutyWrite (s : State) (d : Byte) (p : Phase) : (s.dutyWrite d p).pwm =
    { s.pwm with armed := false, phase := p, duty := (clamp d.toInt).1, stop := (clamp d.toInt).2 } := by
  simp [State.dutyWrite]

@[simp] theorem State.img_dutyWrite (s : State) (d : Byte) (p : Phase) :
    (s.dutyWrite d p).img = s.img.write 5 0x00 := by
  simp [State.dutyWrite]

@[simp] theorem State.pwm_fireWrite (s : State) :
    s.fireWrite.pwm = { s.pwm with armed := false, phase := s.pwm.phase.toggled } := by
  simp [State.fireWrite]

theorem clamp_duty_stop {req : Int} (h : req ≤ 0 ∨ 10 ≤ req) : (clamp req).1 = 0 ∨ (clamp req).1 = 10 := by
  rw [clamp_stop h]
  dsimp only
  split
  · exact .inl rfl
  · exact .inr rfl

theorem clamp_duty_run {req : Int} (h0 : 0 < req) (h1 : req < 10) : 1 ≤ (clamp req).1 ∧ (clamp req).1 ≤ 9 := by
  rw [clamp_run h0 h1]
  dsimp only
  omega

/-- The re-arm after a write: the timer is armed, or the write was not answered `Ok` (42_pwm.md R168, R171). -/
theorem Ended.state_armAfter_of (a : WriteAnswer) (s : State) (n : Nat) :
    ((Ended.of a s).armAfter n).state = s.armTimer n ∨ (a ≠ .ok ∧ ((Ended.of a s).armAfter n).state = s) := by
  rcases Ended.armAfter_of a s n with ⟨-, h⟩ | ⟨-, -, h⟩ | ⟨rfl, -, h⟩ | ⟨rfl, h⟩ <;> rw [h]
  · exact .inl rfl
  · exact .inl rfl
  · exact .inr ⟨nofun, rfl⟩
  · exact .inr ⟨nofun, rfl⟩

/-- What the write and the arm keep, the re-arm after the write keeps. -/
theorem Ended.armAfter_keeps {P : State → Prop} {a : WriteAnswer} {s : State} {n : Nat} (hs : P s)
    (harm : P (s.armTimer n)) : P ((Ended.of a s).armAfter n).state := by
  rcases Ended.state_armAfter_of a s n with h | ⟨-, h⟩ <;> rw [h]
  · exact harm
  · exact hs

/-! ### R31: the PWM invariants -/

/-- The level of a phase at the output (10_state.md R31 (e)). -/
def Phase.output (p : Phase) : Byte := if p = .onPhase then 0xFF else 0x00

theorem Phase.output_toggled (p : Phase) : p.toggled.output = p.level := by cases p <;> rfl

theorem Phase.toggled_ne_off (p : Phase) : p.toggled ≠ .off := by cases p <;> decide

theorem PwmInv.indicator {s : State} (h : PwmInv s) : s.img.read 5 = s.pwm.phase.output := by
  unfold Phase.output
  split
  · exact h.indicator_on ‹_›
  · exact h.indicator_off ‹_›

/-- R31 of a controller that is stopped. -/
theorem PwmInv.of_stopped {s : State} (hstop : s.pwm.stop = true) (hduty : s.pwm.duty = 0 ∨ s.pwm.duty = 10)
    (hphase : s.pwm.phase = .off) (harmed : s.pwm.armed = false) (hind : s.img.read 5 = 0x00) : PwmInv s where
  armed_running := by simp [harmed]
  stopped _ := ⟨hduty, hphase, harmed⟩
  running_duty := by simp [hstop]
  running_armed := by simp [hphase]
  indicator_on := by simp [hphase]
  indicator_off _ := hind

/-- R31 of a controller that runs. -/
theorem PwmInv.of_running {s : State} (hstop : s.pwm.stop = false) (hduty : 1 ≤ s.pwm.duty ∧ s.pwm.duty ≤ 9)
    (hphase : s.pwm.phase ≠ .off) (hind : s.img.read 5 = s.pwm.phase.output)
    (harmed : s.hung = false → pwmWriteFailed s.trace = false → s.pwm.armed = true) : PwmInv s where
  armed_running _ := ⟨hstop, hphase⟩
  stopped := by simp [hstop]
  running_duty _ := hduty
  running_armed hh hf _ := harmed hh hf
  indicator_on hp := by rw [hind, hp]; rfl
  indicator_off hp := by rw [hind, Phase.output, if_neg hp]

/-- R31 after a reset. -/
theorem PwmInv.of_reset {s : State} (hpwm : s.pwm = Pwm.reset) (hind : s.img.read 5 = 0x00) : PwmInv s :=
  .of_stopped (by rw [hpwm]; rfl) (.inl (by rw [hpwm]; rfl)) (by rw [hpwm]; rfl) (by rw [hpwm]; rfl) hind

/-- What R31 rests on. -/
theorem PwmInv.congr {s t : State} (h : PwmInv s) (hpwm : t.pwm = s.pwm) (hind : t.img.read 5 = s.img.read 5)
    (hhung : t.hung = false → s.hung = false) (hfailed : pwmWriteFailed t.trace = pwmWriteFailed s.trace) :
    PwmInv t where
  armed_running := by rw [hpwm]; exact h.armed_running
  stopped := by rw [hpwm]; exact h.stopped
  running_duty := by rw [hpwm]; exact h.running_duty
  running_armed hh hf := by rw [hpwm]; exact h.running_armed (hhung hh) (hfailed.symm.trans hf)
  indicator_on := by rw [hpwm, hind]; exact h.indicator_on
  indicator_off := by rw [hpwm, hind]; exact h.indicator_off

theorem PwmInv.keeps {s t : State} (k : KeepsPwmPath s t) (h : PwmInv s) : PwmInv t :=
  h.congr k.pwm k.indicator k.hung k.failed

/-- An indicator write that did not get `Ok` exempts the block from R31 (d): it hangs, or the failure is recorded. -/
theorem hung_or_failed_wrote (s : State) (reg v : Byte) {a : WriteAnswer} (ha : a ≠ .ok) :
    (s.wrote reg [v] a).hung = true ∨ pwmWriteFailed (s.wrote reg [v] a).trace = true := by
  cases a with
  | ok => exact absurd rfl ha
  | fail => exact .inr (by simp [pwmWriteFailed])
  | silent => exact .inl (by simp)

/-- R31 after the output write of a running controller and its re-arm. -/
theorem PwmInv.armAfter {s : State} (reg v : Byte) (a : WriteAnswer) (n : Nat) (hstop : s.pwm.stop = false)
    (hduty : 1 ≤ s.pwm.duty ∧ s.pwm.duty ≤ 9) (hphase : s.pwm.phase ≠ .off)
    (hind : s.img.read 5 = s.pwm.phase.output) : PwmInv ((Ended.of a (s.wrote reg [v] a)).armAfter n).state := by
  rcases Ended.state_armAfter_of a (s.wrote reg [v] a) n with h | ⟨ha, h⟩ <;> rw [h]
  · exact .of_running (by simpa) (by simpa) (by simpa) (by simpa) (by simp)
  · refine .of_running (by simpa) (by simpa) (by simpa) (by simpa) fun hh hf => ?_
    rcases hung_or_failed_wrote s reg v ha with h' | h'
    · rw [hh] at h'; cases h'
    · rw [hf] at h'; cases h'

/-- SETDUTY establishes R31 of the duty it loads (42_pwm.md R166). -/
theorem PwmInv.setDuty {s : State} (d : Byte) (h : PwmInv s) : PwmInv (s.setDutyBody d).state := by
  rcases s.setDutyBody_cases d with ⟨hd, e⟩ | ⟨h0, h1, -, e⟩ | ⟨h0, h1, hp, e⟩ <;> rw [e]
  · rw [Ended.state_of]
    exact .of_stopped (by simp [clamp_stop hd]) (by simpa using clamp_duty_stop hd) (by simp) (by simp) (by simp)
  · exact .armAfter _ _ _ _ (by simp [clamp_run h0 h1]) (by simpa using clamp_duty_run h0 h1) (by simp)
      (by simp [Phase.output])
  · exact .of_running (by simp [clamp_run h0 h1]) (by simpa using clamp_duty_run h0 h1) (by simpa using hp)
      (by simpa using h.indicator) (by simp)

/-- An accepted fire toggles a running controller (42_pwm.md R171). -/
theorem PwmInv.fire {s : State} (ha : s.pwm.armed = true) (h : PwmInv s) : PwmInv s.fireBody.state := by
  obtain ⟨hstop, -⟩ := h.armed_running ha
  rw [State.fireBody_eq, hstop, if_neg Bool.noConfusion]
  exact .armAfter _ _ _ _ hstop (h.running_duty hstop) s.pwm.phase.toggled_ne_off
    (by simp [Phase.output_toggled])

/-- A block write of six bytes is no indicator write of the PWM path. -/
theorem pwmWriteFailed_wrote_payload (s : State) (reg : Byte) (w : Memory) (a : WriteAnswer) :
    pwmWriteFailed (s.wrote reg w.payload a).trace = pwmWriteFailed s.trace := by
  simp [pwmWriteFailed, Memory.payload]

theorem PwmInv.pwmPathInvariant : PwmPathInvariant PwmInv where
  quiet k h := h.keeps k.toKeepsPwmPath
  duty d _ h := h.setDuty d
  block {s} a h := h.congr (by simp) (by simp) (by simp +contextual) (pwmWriteFailed_wrote_payload s _ _ a)

/-- Settles O54: R31 rests on the PWM path, where SETDUTY establishes it and an accepted fire, which finds the
controller running, keeps it. -/
theorem stepKeepsPwmInvariants : Obligations.StepKeepsPwmInvariants := by
  intro s t hs h
  exact PwmInv.pwmPathInvariant.step PwmInv.keeps (fun _ ha hs => hs.fire ha) hs h

/-! ### R32: an absent controller -/

theorem NoPwmInv.keeps {s t : State} (k : KeepsPwmPath s t) (h : NoPwmInv s) : NoPwmInv t := by
  intro hp
  rw [k.pwm, k.indicator]
  exact h (by rwa [← k.params])

/-- R32 says nothing of a block that has the controller. -/
theorem NoPwmInv.of_hasPwm {s : State} (h : s.params.hasPwm = true) : NoPwmInv s := by
  intro hp
  rw [h] at hp
  cases hp

theorem setDuty_params (s : State) (d : Byte) : (s.setDutyBody d).state.params = s.params := by
  obtain ⟨-, -, hparams, -⟩ := setDuty_frame s d
  exact hparams

theorem fire_params (s : State) : s.fireBody.state.params = s.params := by
  obtain ⟨-, -, hparams, -⟩ := fire_frame s
  exact hparams

theorem NoPwmInv.pwmPathInvariant : PwmPathInvariant NoPwmInv where
  quiet k h := h.keeps k.toKeepsPwmPath
  duty {s} d hp _ := .of_hasPwm (by rwa [setDuty_params])
  block a h := fun hp => by simpa using h (by simpa using hp)

/-- No step changes a parameter: having given ones is a predicate that every step keeps. -/
theorem step_params {s t : State} (h : step s = .next t) : t.params = s.params := by
  have hP : PwmPathInvariant (fun u => u.params = s.params) :=
    ⟨fun k e => k.params.trans e, fun {u} d _ e => (setDuty_params u d).trans e, fun a e => by simpa using e⟩
  exact hP.step (fun k e => k.params.trans e) (fun {u} _ _ e => (fire_params u).trans e) rfl h

/-- Settles O56: only a block with the controller runs SETDUTY's body or a fire. -/
theorem stepKeepsAbsentPwm : Obligations.StepKeepsAbsentPwm := by
  intro s t hs h
  refine ⟨NoPwmInv.pwmPathInvariant.step NoPwmInv.keeps (fun {u} hp _ _ => ?_) hs h, step_params h⟩
  exact .of_hasPwm (by rwa [fire_params])

/-! ### R36: the indicator at the device -/

/-- What R36 rests on. -/
theorem IndicatorInv.congr {s t : State} (h : IndicatorInv s) (hind : t.img.read 5 = s.img.read 5)
    (hlast : lastWriteOk t.trace = lastWriteOk s.trace) (hlevel : indicatorLevel t.trace = indicatorLevel s.trace) :
    IndicatorInv t := by
  unfold IndicatorInv
  rw [hind, hlast, hlevel]
  exact h

theorem IndicatorInv.keeps {s t : State} (k : KeepsPwmPath s t) (h : IndicatorInv s) : IndicatorInv t :=
  h.congr k.indicator k.lastWrite k.level

/-- After a write that carries `IMG[5]` for the indicator, alone or in the block, R36 holds whatever came before. -/
theorem IndicatorInv.wrote {s : State} (reg : Byte) {bytes : List Byte} (a : WriteAnswer)
    (h : bytes = [s.img.read 5] ∨ bytes = s.img.payload) : IndicatorInv (s.wrote reg bytes a) := by
  intro hok
  cases a with
  | ok =>
    left
    rcases h with rfl | rfl <;> simp [indicatorLevel_append, indicatorStep, Memory.payload]
  | fail | silent => simp [lastWriteOk_append, lastWriteStep] at hok

/-- A timer request tells nothing of the device. -/
theorem IndicatorInv.armTimer {s : State} (n : Nat) (h : IndicatorInv s) : IndicatorInv (s.armTimer n) :=
  h.congr rfl (by simp [lastWriteOk_append, lastWriteStep]) (by simp [indicatorLevel_append, indicatorStep])

/-- The cancelled timer request tells nothing of the device. -/
theorem IndicatorInv.loadDuty {s : State} (d : Byte) (h : IndicatorInv s) : IndicatorInv (s.loadDuty d) := by
  cases ha : s.pwm.armed with
  | false => exact h.congr (by simp) (by simp [cancelEvents, ha]) (by simp [cancelEvents, ha])
  | true =>
    exact h.congr (by simp) (by simp [cancelEvents, ha, lastWriteOk_append, lastWriteStep])
      (by simp [cancelEvents, ha, indicatorLevel_append, indicatorStep])

theorem IndicatorInv.dutyWrite (s : State) (d : Byte) (p : Phase) : IndicatorInv (s.dutyWrite d p) :=
  .wrote _ _ (.inl (by simp))

theorem IndicatorInv.setDuty {s : State} (d : Byte) (h : IndicatorInv s) : IndicatorInv (s.setDutyBody d).state := by
  rcases s.setDutyBody_cases d with ⟨-, e⟩ | ⟨-, -, -, e⟩ | ⟨-, -, -, e⟩ <;> rw [e]
  · rw [Ended.state_of]
    exact .dutyWrite s d .off
  · exact Ended.armAfter_keeps (.dutyWrite s d .offPhase) ((IndicatorInv.dutyWrite s d .offPhase).armTimer _)
  · exact (h.loadDuty d).armTimer _

theorem IndicatorInv.fire (s : State) : IndicatorInv s.fireBody.state := by
  have hw : IndicatorInv s.fireWrite := .wrote _ _ (.inl (by simp))
  rw [State.fireBody_eq]
  split
  · rwa [Ended.state_of]
  · exact Ended.armAfter_keeps hw (hw.armTimer _)

theorem IndicatorInv.pwmPathInvariant : PwmPathInvariant IndicatorInv where
  quiet k h := h.keeps k.toKeepsPwmPath
  duty d _ h := h.setDuty d
  block a _ := .wrote _ a (.inr rfl)

/-- Settles O58: each of the two writes carries `IMG[5]` (20_memory.md R65), and nothing else changes what R36 speaks
of. -/
theorem stepKeepsIndicatorInvariant : Obligations.StepKeepsIndicatorInvariant := by
  intro s t hs h
  exact IndicatorInv.pwmPathInvariant.step IndicatorInv.keeps (fun {u} _ _ _ => .fire u) hs h

/-! ### R29, R240: the outstanding timer request -/

/-- What R29 and R240 rest on. -/
theorem TimerInv.congr {s t : State} (hs : TimerInv s) (hpwm : t.pwm = s.pwm)
    (h : outstanding t.trace = outstanding s.trace) : TimerInv t := by
  unfold TimerInv
  rw [hpwm, h]
  exact hs

/-- With nothing outstanding and nothing armed. -/
theorem TimerInv.of_disarmed {s : State} (h : outstanding s.trace = []) (ha : s.pwm.armed = false) : TimerInv s := by
  simp [TimerInv, h, ha]

theorem TimerInv.armTimer {s : State} (n : Nat) (h : outstanding s.trace = []) : TimerInv (s.armTimer n) := by
  simp [TimerInv, outstanding_append, outstandingStep, h]

theorem TimerInv.armAfter {s : State} (a : WriteAnswer) (n : Nat) (h : outstanding s.trace = [])
    (ha : s.pwm.armed = false) : TimerInv ((Ended.of a s).armAfter n).state :=
  Ended.armAfter_keeps (.of_disarmed h ha) (.armTimer n h)

/-- A bus write is no timer request. -/
theorem outstanding_wrote (s : State) (reg : Byte) (bytes : List Byte) (a : WriteAnswer) :
    outstanding (s.wrote reg bytes a).trace = outstanding s.trace := by
  simp [outstanding_append, outstandingStep]

/-- `cancelTimer` cancels the one request that is outstanding (42_pwm.md R165). -/
theorem TimerInv.loadDuty {s : State} (d : Byte) (h : TimerInv s) : outstanding (s.loadDuty d).trace = [] := by
  unfold TimerInv at h
  rw [State.trace_loadDuty, outstanding_append, h]
  cases ha : s.pwm.armed <;> simp [cancelEvents, ha, outstandingStep]

theorem TimerInv.setDuty {s : State} (d : Byte) (h : TimerInv s) : TimerInv (s.setDutyBody d).state := by
  have hw (p : Phase) : outstanding (s.dutyWrite d p).trace = [] := (outstanding_wrote _ _ _ _).trans (h.loadDuty d)
  have ha (p : Phase) : (s.dutyWrite d p).pwm.armed = false := by simp
  rcases s.setDutyBody_cases d with ⟨-, e⟩ | ⟨-, -, -, e⟩ | ⟨-, -, -, e⟩ <;> rw [e]
  · rw [Ended.state_of]
    exact .of_disarmed (hw .off) (ha .off)
  · exact .armAfter _ _ (hw .offPhase) (ha .offPhase)
  · exact .armTimer _ (h.loadDuty d)

/-- An accepted fire starts with nothing outstanding: the taken `TFIRE` was the armed request's delivery. -/
theorem TimerInv.fire {s : State} (h : outstanding s.trace = []) : TimerInv s.fireBody.state := by
  have hw : outstanding s.fireWrite.trace = [] := (outstanding_wrote _ _ _ _).trans h
  have ha : s.fireWrite.pwm.armed = false := by simp
  rw [State.fireBody_eq]
  split
  · rw [Ended.state_of]
    exact .of_disarmed hw ha
  · exact .armAfter _ _ hw ha

theorem TimerInv.pwmPathInvariant : PwmPathInvariant TimerInv where
  quiet k h := h.congr k.pwm k.requests
  duty d _ h := h.setDuty d
  block a h := h.congr (by simp) (outstanding_wrote _ _ _ a)

/-- A taken `TFIRE` is the delivery of its handle; no other input changes what is outstanding. -/
theorem outstandingStep_take (hs : List Byte) (p : Port) (f : Frame) :
    outstandingStep hs (.take p f) = hs ∨ ∃ h, decodeOn p f = some (.tfire h) ∧
      outstandingStep hs (.take p f) = hs.filter (· != h) := by
  match p, f with
  | .timer, [op, h] =>
    by_cases ho : op = 0x0B
    · subst ho
      exact .inr ⟨h, rfl, rfl⟩
    · exact .inl (if_neg ho)
  | .timer, [] | .timer, [_] | .timer, _ :: _ :: _ :: _ | .command, _ => exact .inl rfl

/-- The frame is the delivery of the armed request (42_pwm.md R171). -/
def DeliversArmed (s : State) (p : Port) (f : Frame) : Prop :=
  s.pwm.armed = true ∧ decodeOn p f = some (.tfire s.pwm.handle)

/-- Taking the delivery of the armed request leaves nothing outstanding. -/
theorem TimerInv.emit_delivery {s : State} {p : Port} {f : Frame} (h : TimerInv s) (hd : DeliversArmed s p f) :
    outstanding (s.emit (.take p f)).trace = [] := by
  obtain ⟨ha, hf⟩ := hd
  obtain ⟨hdec, rfl⟩ := decodeOn_some hf
  rw [← encode_of_decode hdec]
  unfold TimerInv at h
  simp [outstanding_append, h, ha, encode, opcodeOf, operandsOf, Instr.port, outstandingStep]

/-- Any other input leaves the armed request outstanding. -/
theorem TimerInv.emit_take {s : State} {p : Port} {f : Frame} (h : TimerInv s) (hd : ¬ DeliversArmed s p f) :
    TimerInv (s.emit (.take p f)) := by
  refine h.congr rfl ?_
  rw [State.trace_emit, outstanding_append, List.foldl_cons, List.foldl_nil]
  rcases outstandingStep_take (outstanding s.trace) p f with e | ⟨k, hf, e⟩
  · exact e
  · unfold TimerInv at h
    rw [e, h]
    cases ha : s.pwm.armed with
    | false => rfl
    | true =>
      have hk : s.pwm.handle ≠ k := fun hk => hd ⟨ha, hk ▸ hf⟩
      simp [hk]

/-- The delivery of the armed request, run after it was taken, is an accepted fire. -/
theorem TimerInv.runFrame_delivery {s t : State} {p : Port} {f : Frame} (hp : s.params.hasPwm = true)
    (hd : DeliversArmed s p f) (h : outstanding s.trace = []) (hr : runFrame p f s = .next t) : TimerInv t := by
  obtain ⟨ha, hf⟩ := hd
  have he : exec (.tfire s.pwm.handle) s = .next (s.fireBody.finish .timer) := by simp [exec, execTfire, hp, ha]
  rw [runFrame_of_some s hf, he] at hr
  cases hr
  exact TimerInv.pwmPathInvariant.quiet (.finish _ _) (.fire h)

/-- An armed block has the controller. -/
theorem NoPwmInv.hasPwm_of_armed {s : State} (h : NoPwmInv s) (ha : s.pwm.armed = true) : s.params.hasPwm = true := by
  by_contra hp
  obtain ⟨hpwm, -⟩ := h (by simpa using hp)
  rw [hpwm] at ha
  cases ha

/-- Settles O57: the delivery of the armed request runs a fire with nothing outstanding, and every other input meets
the invariant when it is run. -/
theorem stepKeepsTimerInvariant : Obligations.StepKeepsTimerInvariant := by
  intro s t hs hn h
  rcases step_runs h with rfl | ⟨p, f, u, hu, hr⟩
  · exact hs
  have hk := KeepsTimerPath.takeInput hu
  have hu : TimerInv u := TimerInv.pwmPathInvariant.quiet hk hs
  by_cases hd : DeliversArmed u p f
  · have hp : u.params.hasPwm = true := (hn.keeps hk.toKeepsPwmPath).hasPwm_of_armed hd.left
    exact .runFrame_delivery (s := u.emit (.take p f)) hp hd (hu.emit_delivery hd) hr
  · exact TimerInv.pwmPathInvariant.runFrame hr (hu.emit_take hd) (fun hf _ ha => absurd ⟨ha, hf⟩ hd)

/-! ### R34: which command writes what -/

/-- Between `v` and `w` the instruction wrote no image item outside its column of R34's table. -/
structure KeepsUnwritten (i : Instr) (v w : Memory) : Prop where
  fields : ∀ x ∈ encoderFields, mayWriteField x.1 x.2.1 x.2.2 i = false →
    w.field x.1 x.2.1 x.2.2 = v.field x.1 x.2.1 x.2.2
  low    : w.field 3 2 0 = v.field 3 2 0
  high   : w.field 3 7 6 = v.field 3 7 6
  bytes  : ∀ j, j ≠ 0 → j ≠ 3 → j ≠ 5 → w.read j = v.read j

theorem KeepsUnwritten.refl (i : Instr) (v : Memory) : KeepsUnwritten i v v :=
  ⟨fun _ _ _ => rfl, rfl, rfl, fun _ _ _ _ => rfl⟩

theorem KeepsUnwritten.trans {i : Instr} {u v w : Memory} (h : KeepsUnwritten i u v) (k : KeepsUnwritten i v w) :
    KeepsUnwritten i u w :=
  ⟨fun x hx hi => (k.fields x hx hi).trans (h.fields x hx hi), k.low.trans h.low, k.high.trans h.high,
    fun j h0 h3 h5 => (k.bytes j h0 h3 h5).trans (h.bytes j h0 h3 h5)⟩

/-- Every encoder field lies in byte 0 or byte 3 (30_encoding.md R80). -/
theorem encoderFields_byte : ∀ x ∈ encoderFields, x.1 = 0 ∨ x.1 = 3 := by decide

/-- The indicator byte holds no encoder field. -/
theorem KeepsUnwritten.write5 (i : Instr) (v : Memory) (b : Byte) : KeepsUnwritten i v (v.write 5 b) where
  fields x hx _ := Memory.field_write_other _ _ _ _ (by have := encoderFields_byte x hx; omega)
  low := Memory.field_write_other _ _ _ _ (by decide)
  high := Memory.field_write_other _ _ _ _ (by decide)
  bytes j _ _ h5 := Memory.read_write_other _ _ h5

/-- Encoder fields, and the bits of byte 3 no field owns, are pairwise disjoint (30_encoding.md R80). -/
theorem encoderFields_disjoint : ∀ x ∈ encoderFields, ∀ y ∈ encoderFields ++ [(3, 2, 0), (3, 7, 6)], y ≠ x →
    y.1 ≠ x.1 ∨ x.2.1 < y.2.2 ∨ y.2.1 < x.2.2 := by decide

theorem Memory.field_setField_other (v : Memory) {x y : Nat × Nat × Nat} (b : Byte)
    (h : y.1 ≠ x.1 ∨ x.2.1 < y.2.2 ∨ y.2.1 < x.2.2) :
    (v.setField x.1 x.2.1 x.2.2 b).field y.1 y.2.1 y.2.2 = v.field y.1 y.2.1 y.2.2 := by
  by_cases hb : y.1 = x.1
  · rw [hb]
    exact Memory.field_setField_disjoint _ _ _ _ _ _ _ (h.resolve_left (not_not_intro hb))
  · exact Memory.field_setField_byte _ _ _ _ _ _ hb

/-- An encoder field that the instruction owns is written, and nothing else. -/
theorem KeepsUnwritten.setField {i : Instr} (v : Memory) (k hi lo : Nat) (b : Byte)
    (hx : (k, hi, lo) ∈ encoderFields := by decide) (hw : mayWriteField k hi lo i = true := by rfl) :
    KeepsUnwritten i v (v.setField k hi lo b) where
  fields y hy hn := by
    refine Memory.field_setField_other (x := (k, hi, lo)) v b
      (encoderFields_disjoint _ hx y (List.mem_append_left _ hy) ?_)
    rintro rfl
    rw [hw] at hn
    cases hn
  low := Memory.field_setField_other (x := (k, hi, lo)) (y := (3, 2, 0)) v b
    (encoderFields_disjoint _ hx _ (by decide) fun e => absurd (e ▸ hx) (by decide))
  high := Memory.field_setField_other (x := (k, hi, lo)) (y := (3, 7, 6)) v b
    (encoderFields_disjoint _ hx _ (by decide) fun e => absurd (e ▸ hx) (by decide))
  bytes j h0 h3 _ := Memory.read_setField_other _ _ _ _ (by have := encoderFields_byte _ hx; omega)

theorem KeepsUnwritten.setRes (m : Byte) (v : Memory) (lp hr : Byte) :
    KeepsUnwritten (.setRes m) v ((v.setField 0 3 3 lp).setField 3 3 3 hr) :=
  (KeepsUnwritten.setField v 0 3 3 lp).trans (.setField _ 3 3 3 hr)

theorem KeepsUnwritten.validatedImage (a m r g u d : Byte) (v : Memory) :
    KeepsUnwritten (.configure a m r g u d) v (validatedImage v a m r g) :=
  ((((KeepsUnwritten.setField v 0 2 0 a).trans (.setField _ 0 3 3 _)).trans (.setField _ 3 3 3 _)).trans
    (.setField _ 0 7 4 _)).trans (.setField _ 3 5 4 g)

/-- A body that leaves the image or writes its indicator byte. -/
theorem KeepsUnwritten.of_write5 {i : Instr} {v w : Memory} {b : Byte} (h : w = v.write 5 b ∨ w = v) :
    KeepsUnwritten i v w := by
  rcases h with rfl | rfl
  · exact .write5 i v b
  · exact .refl i w

theorem configured_img (a m r g u d : Byte) (s : State) :
    (s.configured a m r g u d).state.img = (validatedImage s.img a m r g).write 5 0 ∨
      (s.configured a m r g u d).state.img = validatedImage s.img a m r g := by
  obtain ⟨himg, -⟩ := configureTail_frame (s.committed (validatedImage s.img a m r g) (tokenMode m)) d
    ⟨tokenDivisor g, tokenUnit u⟩
  exact himg

theorem configured_rmode (a m r g u d : Byte) (s : State) :
    (s.configured a m r g u d).state.rmode = some (tokenMode m) := by
  obtain ⟨-, hmode, -⟩ := configureTail_frame (s.committed (validatedImage s.img a m r g) (tokenMode m)) d
    ⟨tokenDivisor g, tokenUnit u⟩
  exact hmode

/-- `CFG` is written only where the whole of CONFIGURE ran through. -/
theorem configured_cfg (a m r g u d : Byte) (s : State) :
    (s.configured a m r g u d).state.cfg = s.cfg ∨ ∃ t, s.configured a m r g u d = .done t := by
  obtain ⟨-, -, -, hcfg | ⟨hdone, -⟩⟩ := configureTail_frame
    (s.committed (validatedImage s.img a m r g) (tokenMode m)) d ⟨tokenDivisor g, tokenUnit u⟩
  · exact .inl hcfg
  · exact .inr hdone

theorem ExecCase.keepsUnwritten {i : Instr} {s t : State} (h : ExecCase s i t) : KeepsUnwritten i s.img t.img := by
  cases h with
  | answer => exact .refl _ _
  | axes a => exact .setField _ 0 2 0 a
  | res m => exact .setRes m _ _ _
  | rate r => exact .setField _ 0 7 4 _
  | range g => exact .setField _ 3 5 4 g
  | readOk | readFail | readSilent => simpa using .refl i s.img
  | duty d => simpa using .of_write5 (setDuty_img s d)
  | fire => simpa using .of_write5 (.inl (fire_img s))
  | configure a m r g u d =>
    rw [Ended.img_finish]
    exact (KeepsUnwritten.validatedImage a m r g u d s.img).trans (.of_write5 (configured_img a m r g u d s))

/-- `RMODE` changes in SETRES and CONFIGURE only. -/
theorem ExecCase.rmode_eq_or {i : Instr} {s t : State} (h : ExecCase s i t) :
    t.rmode = s.rmode ∨ mayWriteMode i = true := by
  cases h with
  | res | configure => exact .inr rfl
  | duty d => exact .inl (by simpa using (setDuty_frame s d).left)
  | fire => exact .inl (by simpa using (fire_frame s).left)
  | _ => exact .inl (by simp)

/-- `CFG` changes in a CONFIGURE answered `OK` only. -/
theorem ExecCase.cfg_eq_or {i : Instr} {s t : State} (h : ExecCase s i t) :
    t.cfg = s.cfg ∨ (mayWriteCfg i = true ∧ lastStatus t = some .ok) := by
  cases h with
  | duty d =>
    obtain ⟨-, hcfg, -⟩ := setDuty_frame s d
    exact .inl (by simpa using hcfg)
  | fire =>
    obtain ⟨-, hcfg, -⟩ := fire_frame s
    exact .inl (by simpa using hcfg)
  | configure a m r g u d =>
    rcases configured_cfg a m r g u d s with hcfg | ⟨t, ht⟩
    · exact .inl ((Ended.cfg_finish _ _).trans hcfg)
    · have hok : lastStatus ((s.configured a m r g u d).finish .command) = some .ok := by
        rw [ht]
        exact lastStatus_of_trace rfl
      exact .inr ⟨rfl, hok⟩
  | _ => exact .inl (by simp)

/-- An instruction outside the row of the PWM registers leaves the PWM path alone. -/
theorem ExecCase.keepsTimerPath {i : Instr} {s t : State} (h : ExecCase s i t) (hi : mayWritePwm i = false) :
    KeepsTimerPath s t := by
  rcases h.keepsTimerPath_or_pwm with hk | ⟨d, rfl, -⟩ | ⟨rfl, -⟩ | ⟨a, m, r, g, u, d, rfl, -⟩
  · exact hk
  all_goals cases hi

/-- Settles O53: each row of the table by its own lemma about what an instruction can do. -/
theorem commandsWriteOnlyTheirState : Obligations.CommandsWriteOnlyTheirState := by
  intro i s t h
  have hc := exec_case h
  have himg := hc.keepsUnwritten
  refine ⟨fun hm => ?_, fun hp => ?_, fun hcfg => ?_, fun hne => ?_, himg.fields, himg.low, himg.high, himg.bytes⟩
  · exact hc.rmode_eq_or.resolve_right (by simp [hm])
  · have hk := hc.keepsTimerPath hp
    exact ⟨hk.pwm, hk.indicator⟩
  · exact hc.cfg_eq_or.resolve_right (by simp [hcfg])
  · obtain ⟨-, hok⟩ := hc.cfg_eq_or.resolve_left hne
    exact hok

/-! ### R21, R22, R81, R82: the image -/

theorem Memory.wf_of_write5 {v w : Memory} {b : Byte} (h : w = v.write 5 b ∨ w = v) (hv : v.wf = true) :
    w.wf = true := by
  rcases h with rfl | rfl
  · exact Memory.wf_write b hv (by decide)
  · exact hv

/-- Every instruction keeps the image's canonical form. -/
theorem ExecCase.wf_img {i : Instr} {s t : State} (h : ExecCase s i t) (hs : s.img.wf = true) : t.img.wf = true := by
  cases h with
  | answer => exact hs
  | axes | rate | range => exact Memory.wf_setField _ _ _ hs (by decide)
  | res => exact Memory.wf_setField _ _ _ (Memory.wf_setField _ _ _ hs (by decide)) (by decide)
  | readOk | readFail | readSilent => simpa using hs
  | duty d => simpa using Memory.wf_of_write5 (setDuty_img s d) hs
  | fire => simpa using Memory.wf_of_write5 (.inl (fire_img s)) hs
  | configure a m r g u d =>
    rw [Ended.img_finish]
    exact Memory.wf_of_write5 (configured_img a m r g u d s) (wf_validatedImage a m r g hs)

theorem decRes_congr {v w : Memory} (h0 : w.field 0 3 3 = v.field 0 3 3) (h3 : w.field 3 3 3 = v.field 3 3 3) :
    decRes w = decRes v := by
  unfold decRes
  rw [h0, h3]

/-- The resolution bits of a mode decode to it (30_encoding.md R81). -/
theorem decRes_of_bits {w : Memory} {m : Mode} (h0 : w.field 0 3 3 = lpenBit m) (h3 : w.field 3 3 3 = hrBit m) :
    decRes w = some m := by
  unfold decRes
  rw [h0, h3]
  cases m <;> rfl

theorem decRes_setRes (w : Memory) (m : Mode) :
    decRes ((w.setField 0 3 3 (lpenBit m)).setField 3 3 3 (hrBit m)) = some m := by
  apply decRes_of_bits
  · rw [Memory.field_setField_byte _ _ _ _ _ _ (by decide)]
    exact Memory.field_setField_same _ _ _ _ (by decide) (by decide) (lpenBit_lt m)
  · exact Memory.field_setField_same _ _ _ _ (by decide) (by decide) (hrBit_lt m)

/-- A rate that is legal while no mode is resolved is unrestricted, and so is its code (40_encoder.md R103). -/
theorem tokenCode_unresolved {r : Byte} (h : r.toNat ≤ 10) (hl : RateLegal r none) : (tokenCode r).toNat ≤ 7 := by
  have h8 : r ≠ 8 := by rintro rfl; simp [RateLegal] at hl
  have h9 : r ≠ 9 := by rintro rfl; simp [RateLegal] at hl
  have h10 : r ≠ 10 := by rintro rfl; simp [RateLegal] at hl
  rw [tokenCode, if_neg h10]
  bv_omega

/-- What the image invariant rests on. -/
theorem ImageInv.congr {s t : State} (h : ImageInv s) (himg : t.img = s.img) (hmode : t.rmode = s.rmode) :
    ImageInv t where
  canonical := himg ▸ h.canonical
  unused_bytes := himg ▸ h.unused_bytes
  unowned_bits := himg ▸ h.unowned_bits
  mode_bits := by rw [himg, hmode]; exact h.mode_bits
  rate_code := himg ▸ h.rate_code
  rate_unresolved := by rw [himg, hmode]; exact h.rate_unresolved

/-- The image invariant after an instruction: what it may not write stays, and it answers for the form of the image,
the resolution bits and the rate code. -/
theorem ImageInv.of_keepsUnwritten {i : Instr} {s t : State} (h : ImageInv s) (k : KeepsUnwritten i s.img t.img)
    (hwf : t.img.wf = true) (hmode : decRes t.img = some (t.rmode.getD .normal))
    (hrate : (t.img.field 0 7 4).toNat ≤ 9) (hnone : t.rmode = none → (t.img.field 0 7 4).toNat ≤ 7) :
    ImageInv t where
  canonical := hwf
  unused_bytes := by
    rw [k.bytes 1 (by decide) (by decide) (by decide), k.bytes 2 (by decide) (by decide) (by decide),
      k.bytes 4 (by decide) (by decide) (by decide)]
    exact h.unused_bytes
  unowned_bits := by rw [k.low, k.high]; exact h.unowned_bits
  mode_bits := hmode
  rate_code := hrate
  rate_unresolved := hnone

/-- The image invariant after an instruction that writes neither the resolution nor the rate. -/
theorem ImageInv.of_modeRate_kept {i : Instr} {s t : State} (h : ImageInv s) (k : KeepsUnwritten i s.img t.img)
    (hwf : t.img.wf = true) (hm : t.rmode = s.rmode) (hlp : mayWriteField 0 3 3 i = false := by rfl)
    (hhr : mayWriteField 3 3 3 i = false := by rfl) (hr : mayWriteField 0 7 4 i = false := by rfl) : ImageInv t := by
  have hrate : t.img.field 0 7 4 = s.img.field 0 7 4 := k.fields (0, 7, 4) (by decide) hr
  refine h.of_keepsUnwritten k hwf ?_ (hrate ▸ h.rate_code) (by rw [hm, hrate]; exact h.rate_unresolved)
  rw [hm, decRes_congr (k.fields (0, 3, 3) (by decide) hlp) (k.fields (3, 3, 3) (by decide) hhr)]
  exact h.mode_bits

/-- CONFIGURE resolves its mode and its rate, also where the indicator byte was then written (43_driver.md R202). -/
theorem configured_fields {a m r g u : Byte} {v w : Memory} {b : Byte} (hv : ConfigureValid a m r g u)
    (h : w = (validatedImage v a m r g).write 5 b ∨ w = validatedImage v a m r g) :
    decRes w = some (tokenMode m) ∧ w.field 0 7 4 = tokenCode r := by
  obtain ⟨ha, hm, hr, -, hg, -⟩ := hv
  obtain ⟨-, hlp, hrate, -, hhr, -⟩ := validatedImage_encodes v ha hm hr hg
  have k : KeepsUnwritten .read (validatedImage v a m r g) w := .of_write5 h
  refine ⟨decRes_of_bits ?_ ?_, (k.fields (0, 7, 4) (by decide) rfl).trans hrate⟩
  · exact (k.fields (0, 3, 3) (by decide) rfl).trans (hlp.trans lpenBit_tokenMode.symm)
  · exact (k.fields (3, 3, 3) (by decide) rfl).trans (hhr.trans (hrBit_tokenMode hm).symm)

/-- The image invariant after a CONFIGURE that passes validation. -/
theorem ImageInv.of_configured {a m r g u d : Byte} {s t : State} (h : ImageInv s)
    (k : KeepsUnwritten (.configure a m r g u d) s.img t.img) (hwf : t.img.wf = true)
    (hv : ConfigureValid a m r g u) (hmode : t.rmode = some (tokenMode m))
    (himg : t.img = (validatedImage s.img a m r g).write 5 0 ∨ t.img = validatedImage s.img a m r g) : ImageInv t := by
  obtain ⟨hres, hcode⟩ := configured_fields hv himg
  obtain ⟨-, -, hr, -⟩ := hv
  refine h.of_keepsUnwritten k hwf ?_ ?_ ?_
  · rw [hmode]; exact hres
  · rw [hcode]; exact tokenCode_le hr
  · rw [hmode]; exact nofun

/-- Every instruction keeps the image invariant. -/
theorem ImageInv.exec {i : Instr} {s t : State} (hs : ImageInv s) (h : ExecCase s i t) : ImageInv t := by
  have hwf := h.wf_img hs.canonical
  have k := h.keepsUnwritten
  cases h with
  | answer => exact hs.congr rfl rfl
  | readOk | readFail | readSilent => exact hs.congr (by simp) (by simp)
  | axes | range => exact hs.of_modeRate_kept k hwf rfl
  | duty d => exact hs.of_modeRate_kept k hwf (by simpa using (setDuty_frame s d).left)
  | fire => exact hs.of_modeRate_kept k hwf (by simpa using (fire_frame s).left)
  | res m =>
    refine hs.of_keepsUnwritten k hwf (decRes_setRes s.img (tokenMode m)) ?_ nofun
    exact (k.fields (0, 7, 4) (by decide) rfl) ▸ hs.rate_code
  | rate r hr hl =>
    have hcode : (s.img.setField 0 7 4 (tokenCode r)).field 0 7 4 = tokenCode r :=
      Memory.field_setField_same _ _ _ _ (by decide) (by decide) (by have := tokenCode_le hr; omega)
    refine hs.of_keepsUnwritten k hwf ?_ ((congrArg BitVec.toNat hcode).trans_le (tokenCode_le hr)) fun hn => ?_
    · exact (decRes_congr (k.fields (0, 3, 3) (by decide) rfl) (k.fields (3, 3, 3) (by decide) rfl)).trans hs.mode_bits
    · have hn : s.rmode = none := hn
      exact (congrArg BitVec.toNat hcode).trans_le (tokenCode_unresolved hr (hn ▸ hl))
  | configure a m r g u d hv =>
    have himg := configured_img a m r g u d s
    have hmode := (Ended.rmode_finish _ .command).trans (configured_rmode a m r g u d s)
    exact hs.of_configured k hwf hv hmode (by rw [Ended.img_finish]; exact himg)

/-- Settles O55: an instruction keeps the invariant by what it may write, and an illegal frame writes nothing. -/
theorem stepKeepsImageInvariant : Obligations.StepKeepsImageInvariant := by
  intro s t hs h
  rcases step_cases h with rfl | ⟨p, f, u, -, hu, hrun⟩
  · exact hs
  obtain ⟨⟨himg, hmode, -⟩, -⟩ := takeInput_keeps hu
  have taken : ImageInv (u.emit (.take p f)) := hs.congr himg hmode
  rcases hrun with ⟨i, -, hi⟩ | ⟨-, rfl⟩
  · exact taken.exec (exec_case hi)
  · exact taken.congr rfl rfl

/-! ### Reset -/

/-- Settles O15: R40's values are those of the reset state, and a reset of a running block gives the same. -/
theorem resetValues : Obligations.ResetValues :=
  ⟨fun _ => ⟨fun _ => rfl, rfl, rfl, rfl, rfl⟩, fun s => ⟨⟨rfl, rfl, rfl, rfl⟩, (List.append_nil s.trace).symm⟩⟩

/-- The image invariant after a reset: an empty image, no mode. -/
theorem ImageInv.of_reset {s : State} (himg : s.img = []) (hmode : s.rmode = none) : ImageInv s := by
  have h : ImageInv State.reset := by constructor <;> decide
  exact h.congr himg hmode

/-- R32 after a reset. -/
theorem NoPwmInv.of_reset {s : State} (hpwm : s.pwm = Pwm.reset) (hind : s.img.read 5 = 0x00) : NoPwmInv s :=
  fun _ => ⟨hpwm, hind⟩

theorem invariants_resetWith (p : Params) :
    PwmInv (State.resetWith p) ∧ ImageInv (State.resetWith p) ∧ NoPwmInv (State.resetWith p) ∧
      TimerInv (State.resetWith p) ∧ IndicatorInv (State.resetWith p) :=
  ⟨.of_reset rfl rfl, .of_reset rfl rfl, .of_reset rfl rfl, .of_disarmed rfl rfl, fun _ => .inr ⟨rfl, rfl⟩⟩

/-- Settles O59: `State.reset` is the reset state of one of the platforms. -/
theorem invariantsAtReset : Obligations.InvariantsAtReset := by
  intro p s h
  rcases h with rfl | rfl
  · exact invariants_resetWith p
  · exact invariants_resetWith Config.platform

/-- Settles O60, by induction over how the state is reached: reset and a reset of a running block establish the three
invariants, a step keeps them, and none rests on what the outside world changes. -/
theorem reachableStatesMeetInvariants : Obligations.ReachableStatesMeetInvariants := by
  intro s h
  induction h with
  | reset p =>
    obtain ⟨hpwm, himg, hno, -⟩ := invariants_resetWith p
    exact ⟨hpwm, himg, hno⟩
  | step _ e ih =>
    obtain ⟨hpwm, himg, hno⟩ := ih
    exact ⟨stepKeepsPwmInvariants _ _ hpwm e, stepKeepsImageInvariant _ _ himg e, (stepKeepsAbsentPwm _ _ hno e).left⟩
  | outside _ c t o a ih =>
    obtain ⟨hpwm, himg, hno⟩ := ih
    exact ⟨hpwm.congr rfl rfl id rfl, himg.congr rfl rfl, hno⟩
  | resetBlock => exact ⟨.of_reset rfl rfl, .of_reset rfl rfl, .of_reset rfl rfl⟩

/-! ### R24: CONFIGURE and `RMODE` -/

/-- Settles O49: what CONFIGURE commits replaces `RMODE`, and a rejected CONFIGURE only answers. -/
theorem configureIgnoresOldMode : Obligations.ConfigureIgnoresOldMode := by
  intro a m r g u d s t x h
  by_cases hv : ConfigureValid a m r g u
  · refine ⟨t, ?_, rfl, rfl, rfl, rfl, fun _ => rfl⟩
    rw [← h, exec_configure_valid d _ hv, exec_configure_valid d s hv]
    rfl
  · obtain ⟨e, he⟩ := (configure_valid_or_error a m r g u).resolve_left hv
    rw [exec_configure_error d s he] at h
    cases h
    exact ⟨_, exec_configure_error d _ he, rfl, rfl, rfl, rfl, fun h => absurd h hv⟩

end Sys2Proof.Machine

/-! SUPPORT. The bus and the timer (20_memory.md R51, R56; 70_reset_and_hazards.md R278): which requests a step issues,
and the states a block hangs in when the transport never answers. -/

namespace Sys2Proof.Machine

/-! ### R51, R56, R240: the requests a step issues -/

/-- From `s` to `t` only allowed requests were issued, and no parameter changed. -/
structure IssuesAllowed (s t : State) : Prop where
  params  : t.params = s.params
  outputs : ∃ es, Outputs s t es ∧ ∀ e ∈ es, AllowedRequest s.params e

theorem IssuesAllowed.append {s t : State} {es : List Event} (hp : t.params = s.params) (ht : t.trace = s.trace ++ es)
    (h : ∀ e ∈ es, AllowedRequest s.params e) : IssuesAllowed s t :=
  ⟨hp, es, ht, h⟩

/-- Where no output was added, no request was. -/
theorem IssuesAllowed.of_no_output {s t : State} (hp : t.params = s.params) (ht : t.trace = s.trace) :
    IssuesAllowed s t :=
  .append (es := []) hp (by simpa using ht) nofun

theorem IssuesAllowed.single {s t : State} {e : Event} (hp : t.params = s.params) (ht : t.trace = s.trace ++ [e])
    (h : AllowedRequest s.params e) : IssuesAllowed s t :=
  .append hp ht (by simpa using h)

theorem IssuesAllowed.trans {s t u : State} (h : IssuesAllowed s t) (k : IssuesAllowed t u) : IssuesAllowed s u := by
  obtain ⟨hp, es, hes, hall⟩ := h
  obtain ⟨kp, fs, hfs, kall⟩ := k
  refine .append (es := es ++ fs) (kp.trans hp) (by rw [hfs, hes, List.append_assoc]) fun e he => ?_
  rcases List.mem_append.mp he with he | he
  · exact hall e he
  · exact hp ▸ kall e he

theorem IssuesAllowed.respond (s : State) (p : Port) (st : Status) (d : RespData) :
    IssuesAllowed s (s.respond p st d) :=
  .single rfl rfl trivial

theorem IssuesAllowed.finish {s : State} {e : Ended} (h : IssuesAllowed s e.state) (p : Port) :
    IssuesAllowed s (e.finish p) := by
  cases e with
  | done t | failed t => exact h.trans (.respond t p _ .none)
  | hung t => exact h

/-- A PWM write carries 0x00 or 0xFF to `IND_ADDR` (20_memory.md R51). -/
theorem IssuesAllowed.indicatorWrite (s : State) {v : Byte} (a : WriteAnswer) (hv : v = 0x00 ∨ v = 0xFF) :
    IssuesAllowed s (s.wrote (indAddr s.params) [v] a) :=
  .single (State.params_wrote ..) rfl ⟨rfl, .inr ⟨rfl, by simpa using hv⟩⟩

/-- CONFIGURE's write carries the six image bytes to `CTRL_BASE` (20_memory.md R51). -/
theorem IssuesAllowed.blockWrite (s : State) (a : WriteAnswer) :
    IssuesAllowed s (s.wrote s.params.ctrlBase s.img.payload a) :=
  .single (State.params_wrote ..) rfl ⟨rfl, .inl ⟨rfl, rfl⟩⟩

theorem IssuesAllowed.armTimer (s : State) {n : Nat} (hn : 1 ≤ n ∧ n ≤ 9) : IssuesAllowed s (s.armTimer n) :=
  .single rfl rfl ⟨hn.left, hn.right, rfl⟩

theorem IssuesAllowed.armAfter {s u : State} (h : IssuesAllowed s u) (a : WriteAnswer) {n : Nat}
    (hn : 1 ≤ n ∧ n ≤ 9) : IssuesAllowed s ((Ended.of a u).armAfter n).state :=
  Ended.armAfter_keeps h (h.trans (.armTimer u hn))

/-- SETDUTY may cancel the timer; a cancel is no bus request and has no period. -/
theorem IssuesAllowed.loadDuty (s : State) (d : Byte) : IssuesAllowed s (s.loadDuty d) := by
  refine .append (State.params_loadDuty s d) (State.trace_loadDuty s d) fun e he => ?_
  obtain ⟨-, rfl⟩ : s.pwm.armed = true ∧ e = .timerCancel s.pwm.handle := by simpa [cancelEvents] using he
  trivial

theorem IssuesAllowed.dutyWrite (s : State) (d : Byte) (p : Phase) : IssuesAllowed s (s.dutyWrite d p) := by
  have entered : IssuesAllowed s { (s.loadDuty d).setPhase p with img := s.img.write 5 0x00 } :=
    (IssuesAllowed.loadDuty s d).trans (.of_no_output rfl rfl)
  refine entered.trans ?_
  rw [State.dutyWrite, ← State.params_loadDuty s d]
  exact .indicatorWrite _ _ (.inl rfl)

/-- The period SETDUTY arms lies in 1 to 9, because its clamped request does (42_pwm.md R161, R162). -/
theorem IssuesAllowed.setDuty (s : State) (d : Byte) : IssuesAllowed s (s.setDutyBody d).state := by
  rcases s.setDutyBody_cases d with ⟨-, e⟩ | ⟨h0, h1, -, e⟩ | ⟨h0, h1, -, e⟩ <;> rw [e]
  · rw [Ended.state_of]
    exact .dutyWrite s d .off
  · exact (IssuesAllowed.dutyWrite s d .offPhase).armAfter _ (by omega)
  · exact (IssuesAllowed.loadDuty s d).trans (.armTimer _ (by split <;> omega))

theorem Phase.level_eq (p : Phase) : p.level = 0x00 ∨ p.level = 0xFF := by cases p <;> decide

/-- The period a fire arms lies in 1 to 9, where the duty of a running controller does (10_state.md R31 (c)). -/
theorem IssuesAllowed.fire {s : State} (hs : s.pwm.stop = false → 1 ≤ s.pwm.duty ∧ s.pwm.duty ≤ 9) :
    IssuesAllowed s s.fireBody.state := by
  have toggled : IssuesAllowed s
      { s with pwm := { s.pwm with armed := false, phase := s.pwm.phase.toggled },
               img := s.img.write 5 s.pwm.phase.level } := .of_no_output rfl rfl
  have written : IssuesAllowed s s.fireWrite := toggled.trans (.indicatorWrite _ _ s.pwm.phase.level_eq)
  rw [State.fireBody_eq]
  split
  · rwa [Ended.state_of]
  · have hd := hs (by simpa using ‹¬ s.pwm.stop = true›)
    exact written.armAfter _ (by split <;> omega)

theorem IssuesAllowed.dutyStep (s : State) (d : Byte) : IssuesAllowed s (s.dutyStep d).state := by
  unfold State.dutyStep
  split
  · exact .setDuty s d
  · exact .of_no_output rfl rfl

theorem IssuesAllowed.configureTail (s : State) (d : Byte) (c : ReadCfg) :
    IssuesAllowed s (s.configureTail d c).state := by
  have hduty := IssuesAllowed.dutyStep s d
  rcases configureTail_cases s d c with ⟨he, -⟩ | ⟨t, ht, hblock⟩
  · rwa [he]
  · rw [ht] at hduty
    rcases hblock with ⟨-, he⟩ | ⟨-, he⟩ | ⟨-, he⟩ <;> rw [he]
    · exact (hduty.trans (.blockWrite t .ok)).trans (.of_no_output rfl rfl)
    · exact hduty.trans (.blockWrite t .fail)
    · exact hduty.trans (.blockWrite t .silent)

theorem IssuesAllowed.configured (a m r g u d : Byte) (s : State) :
    IssuesAllowed s (s.configured a m r g u d).state := by
  have committed : IssuesAllowed s (s.committed (validatedImage s.img a m r g) (tokenMode m)) := .of_no_output rfl rfl
  exact committed.trans (.configureTail _ d _)

/-- A read of one of the two allowed kinds (20_memory.md R56). -/
theorem IssuesAllowed.busRead {s t : State} {reg : Byte} {n : Nat} (a : BusAnswer)
    (hr : (reg = s.params.dataAddr ∧ n = 6) ∨ (reg = s.params.idAddr ∧ n = 1)) (hp : t.params = s.params)
    (ht : t.trace = s.trace ++ [.busRead s.params.devAddr reg n a]) : IssuesAllowed s t :=
  .single hp ht ⟨rfl, hr⟩

theorem ExecCase.issuesAllowed {i : Instr} {s t : State} (h : ExecCase s i t)
    (hs : s.pwm.stop = false → 1 ≤ s.pwm.duty ∧ s.pwm.duty ≤ 9) : IssuesAllowed s t := by
  cases h with
  | answer | axes | res | rate | range => exact .single rfl rfl trivial
  | readOk i _ reg n hr b =>
    exact (IssuesAllowed.busRead (.ok b) hr (by simp) (by simp)).trans (.respond _ _ _ _)
  | readFail i _ reg n hr => exact (IssuesAllowed.busRead .fail hr (by simp) (by simp)).trans (.respond _ _ _ _)
  | readSilent i _ reg n hr => exact .busRead .silent hr (by simp) (by simp)
  | duty d => exact (IssuesAllowed.setDuty s d).finish .command
  | fire => exact (IssuesAllowed.fire hs).finish .timer
  | configure a m r g u d => exact (IssuesAllowed.configured a m r g u d s).finish .command

/-- Settles O14: the taking of an input is no request, an illegal frame issues none, and an instruction issues allowed
ones only, where the duty of a running controller is 1 to 9. -/
theorem stepIssuesAllowedRequests : Obligations.StepIssuesAllowedRequests := by
  intro s t hs h
  refine IssuesAllowed.outputs ?_
  rcases step_cases h with rfl | ⟨p, f, u, -, hu, hrun⟩
  · exact .of_no_output rfl rfl
  obtain ⟨⟨-, -, -, hpwm⟩, hparams, -, -, htrace⟩ := takeInput_keeps hu
  have taken : IssuesAllowed s (u.emit (.take p f)) :=
    .single (e := .take p f) hparams (by simp [htrace]) trivial
  rcases hrun with ⟨i, -, hi⟩ | ⟨-, rfl⟩
  · exact taken.trans ((exec_case hi).issuesAllowed (by simpa [hpwm] using hs.running_duty))
  · exact taken.trans (.respond _ _ _ _)

/-! ### R278: an unanswered read -/

theorem State.busRead_silent {s : State} (reg : Byte) (n : Nat) (k : List Byte → State → State)
    (h : s.nextAnswer = .silent) : s.busRead reg n k =
      { s.drawn.emit (.busRead s.params.devAddr reg n .silent) with hung := true } := by
  simp only [State.busRead, h]

/-- A read that is never answered issues its request and hangs, whatever the command meant to do with the bytes. -/
theorem busRead_unanswered {s : State} (h : s.nextAnswer = .silent) (reg : Byte) (n : Nat)
    (k : List Byte → State → State) :
    KeepsRegisters s (s.busRead reg n k) ∧ KeepsPorts s (s.busRead reg n k) ∧ DrawsOne s (s.busRead reg n k) ∧
      (s.busRead reg n k).hung = true ∧
      Outputs s (s.busRead reg n k) [.busRead s.params.devAddr reg n .silent] := by
  rw [State.busRead_silent reg n k h]
  simp [KeepsRegisters, KeepsPorts, DrawsOne, Outputs]

/-- READ with `CFG` present is its one read (43_driver.md R204). -/
theorem exec_read_configured {s : State} {c : ReadCfg} (h : s.cfg = some c) : exec .read s =
    .next (s.busRead s.params.dataAddr 6 (fun bytes t => t.respondSamples (decodeSamples bytes c.div c.unit))) := by
  simp only [exec, execRead, h]

/-- Settles O52: each of the two commands is one read, and an unanswered read hangs. -/
theorem unansweredReadHangs : Obligations.UnansweredReadHangs := by
  intro s h
  refine ⟨fun hc => ?_, ?_⟩
  · obtain ⟨c, hc⟩ := Option.ne_none_iff_exists'.mp hc
    exact ⟨_, exec_read_configured hc, busRead_unanswered h _ _ _⟩
  · exact ⟨_, rfl, busRead_unanswered h _ _ _⟩

/-! ### R278: an unanswered output write -/

theorem Ended.of_eq_hung_iff {a : WriteAnswer} {s v : State} : Ended.of a s = .hung v ↔ a = .silent ∧ v = s := by
  cases a <;> simp [Ended.of, eq_comm]

/-- Nothing is armed after a write that is never answered. -/
theorem Ended.armAfter_of_eq_hung_iff {a : WriteAnswer} {s v : State} {n : Nat} :
    (Ended.of a s).armAfter n = .hung v ↔ a = .silent ∧ v = s := by
  rcases Ended.armAfter_of a s n with ⟨rfl, h⟩ | ⟨rfl, -, h⟩ | ⟨rfl, -, h⟩ | ⟨rfl, h⟩ <;> simp [h, eq_comm]

/-- The phase SETDUTY enters with its output write (42_pwm.md R166). -/
def writtenPhase (d : Byte) : Phase := if d.toInt ≤ 0 ∨ 10 ≤ d.toInt then .off else .offPhase

/-- SETDUTY's body hangs exactly where it writes and the write is never answered, and then as at that write. -/
theorem State.setDutyBody_eq_hung_iff {s v : State} {d : Byte} : s.setDutyBody d = .hung v ↔
    dutyWrites d s ∧ nextWrite s = .silent ∧ v = s.dutyWrite d (writtenPhase d) := by
  rcases s.setDutyBody_cases d with ⟨hd, e⟩ | ⟨h0, h1, hp, e⟩ | ⟨h0, h1, hp, e⟩ <;> rw [e]
  · have hw : dutyWrites d s := by unfold dutyWrites; omega
    rw [Ended.of_eq_hung_iff, writtenPhase, if_pos hd]
    exact (and_iff_right hw).symm
  · have hw : dutyWrites d s := .inr (.inr hp)
    rw [Ended.armAfter_of_eq_hung_iff, writtenPhase, if_neg (by omega)]
    exact (and_iff_right hw).symm
  · have hw : ¬ dutyWrites d s := by unfold dutyWrites; simp only [hp, or_false]; omega
    simp [hw]

theorem dutyStep_eq_hung_iff {s v : State} {d : Byte} : s.dutyStep d = .hung v ↔ s.params.hasPwm = true ∧
    dutyWrites d s ∧ nextWrite s = .silent ∧ v = s.dutyWrite d (writtenPhase d) := by
  unfold State.dutyStep
  split <;> simp [*, State.setDutyBody_eq_hung_iff]

/-- What an output write that is never answered leaves, beside the PWM registers: `IMG[5]` at `v`, the requests of the
input so far, and the hang. -/
structure HangsOnWrite (s t : State) (v : Byte) (es : List Event) : Prop where
  hung  : t.hung = true
  img   : t.img = s.img.write 5 v
  rmode : t.rmode = s.rmode
  cfg   : t.cfg = s.cfg
  ports : KeepsPorts s t
  draws : DrawsOne s t
  trace : Outputs s t (es ++ [.busWrite s.params.devAddr (s.params.ctrlBase + 5) [v] .silent])

theorem HangsOnWrite.keepsImageBut {s t : State} {v : Byte} {es : List Event} (h : HangsOnWrite s t v es) :
    KeepsImageBut 5 s t :=
  fun _ hj => by rw [h.img, Memory.read_write_other _ _ hj]

theorem HangsOnWrite.indicator {s t : State} {v : Byte} {es : List Event} (h : HangsOnWrite s t v es) :
    t.img.read 5 = v := by
  rw [h.img, Memory.read_write_same]

theorem HangsOnWrite.dutyWrite {s : State} (h : nextWrite s = .silent) (d : Byte) (p : Phase) :
    HangsOnWrite s (s.dutyWrite d p) 0x00 (cancelEvents s) := by
  constructor <;> simp [State.dutyWrite, h, KeepsPorts, DrawsOne, Outputs, indAddr]

theorem HangsOnWrite.fireWrite {s : State} (h : nextWrite s = .silent) :
    HangsOnWrite s s.fireWrite s.pwm.phase.level [] := by
  constructor <;> simp [State.fireWrite, h, KeepsPorts, DrawsOne, Outputs, indAddr]

theorem exec_setDuty_hasPwm {s : State} (d : Byte) (hp : s.params.hasPwm = true) :
    exec (.setDuty d) s = .next ((s.setDutyBody d).finish .command) := by
  simp only [exec, execSetDuty, hp, if_true]

theorem exec_tfire_armed {s : State} (hp : s.params.hasPwm = true) (ha : s.pwm.armed = true) :
    exec (.tfire s.pwm.handle) s = .next (s.fireBody.finish .timer) := by
  simp [exec, execTfire, hp, ha]

/-- An accepted fire hangs on its output write, whether the stop flag is set or not. -/
theorem State.fireBody_unanswered {s : State} (h : nextWrite s = .silent) : s.fireBody = .hung s.fireWrite := by
  rw [State.fireBody_eq]
  split
  · exact Ended.of_eq_hung_iff.mpr ⟨h, rfl⟩
  · exact Ended.armAfter_of_eq_hung_iff.mpr ⟨h, rfl⟩

/-- Settles O41: both bodies hang as at their output write, so nothing is armed and nothing answered. -/
theorem unansweredOutputWriteHangs : Obligations.UnansweredOutputWriteHangs := by
  intro s hp h
  refine ⟨fun d h0 h1 hoff => ?_, fun ha => ?_⟩
  · have body : s.setDutyBody d = .hung (s.dutyWrite d (writtenPhase d)) :=
      State.setDutyBody_eq_hung_iff.mpr ⟨.inr (.inr hoff), h, rfl⟩
    have hphase : writtenPhase d = .offPhase := if_neg (by omega)
    have hang := HangsOnWrite.dutyWrite h d (writtenPhase d)
    refine ⟨s.dutyWrite d (writtenPhase d), ?_, hang.hung, ?_, hang.indicator, hang.keepsImageBut, hang.rmode,
      hang.cfg, hang.ports, hang.trace⟩
    · rw [exec_setDuty_hasPwm d hp, body, Ended.finish_hung]
    · rw [State.pwm_dutyWrite, clamp_run h0 h1, hphase]
  · have hang := HangsOnWrite.fireWrite h
    refine ⟨s.fireWrite, ?_, hang.hung, State.pwm_fireWrite s, hang.indicator, hang.keepsImageBut, hang.rmode,
      hang.cfg, hang.ports, hang.trace⟩
    rw [exec_tfire_armed hp ha, State.fireBody_unanswered h, Ended.finish_hung]

/-! ### R278: an unanswered write of CONFIGURE -/

theorem exec_configure_configured {a m r g u : Byte} (d : Byte) (s : State) (h : ConfigureValid a m r g u) :
    exec (.configure a m r g u d) s = .next ((s.configured a m r g u d).finish .command) :=
  exec_configure_valid d s h

/-- Where the duty step hangs, the block write is not issued. -/
theorem configureTail_of_dutyStep_hung {s v : State} {d : Byte} (c : ReadCfg) (h : s.dutyStep d = .hung v) :
    s.configureTail d c = .hung v := by
  simp [State.configureTail, h]

theorem configureTail_unanswered {s v : State} {d : Byte} (c : ReadCfg) (h : s.dutyStep d = .done v)
    (hn : nextWrite v = .silent) :
    s.configureTail d c = .hung (v.wrote v.params.ctrlBase v.img.payload .silent) := by
  simp [State.configureTail, h, State.writeControlBlock, State.busWrite_eq, hn, Ended.of]

/-- What CONFIGURE encoded stays where nothing but the indicator byte is written after it (43_driver.md R202). -/
theorem EncodesConfig.of_write5 {v w w' : Memory} {a m r g b : Byte} (h : EncodesConfig v w a m r g)
    (hw : w' = w.write 5 b ∨ w' = w) : EncodesConfig v w' a m r g := by
  have k : KeepsUnwritten .read w w' := .of_write5 hw
  obtain ⟨haxes, hlp, hrate, hrange, hhr, hlow, hhigh, hbytes⟩ := h
  refine ⟨?_, ?_, ?_, ?_, ?_, k.low.trans hlow, k.high.trans hhigh,
    fun j h0 h3 h5 => (k.bytes j h0 h3 h5).trans (hbytes j h0 h3 h5)⟩
  · exact (k.fields (0, 2, 0) (by decide) rfl).trans haxes
  · exact (k.fields (0, 3, 3) (by decide) rfl).trans hlp
  · exact (k.fields (0, 7, 4) (by decide) rfl).trans hrate
  · exact (k.fields (3, 5, 4) (by decide) rfl).trans hrange
  · exact (k.fields (3, 3, 3) (by decide) rfl).trans hhr

/-- What a duty step that ran through leaves of the commit (43_driver.md R200). -/
theorem dutyStep_done_frame {s v : State} {w : Memory} {m : Mode} {d : Byte}
    (h : (s.committed w m).dutyStep d = .done v) :
    (v.img = w.write 5 0x00 ∨ v.img = w) ∧ v.rmode = some m ∧ v.cfg = s.cfg ∧ KeepsPorts s v := by
  have himg := dutyStep_img (s.committed w m) d
  have hframe := dutyStep_frame (s.committed w m) d
  rw [h] at himg hframe
  exact ⟨himg, hframe⟩

theorem KeepsPorts.wrote {s t : State} (h : KeepsPorts s t) (reg : Byte) (bytes : List Byte) (a : WriteAnswer) :
    KeepsPorts s (t.wrote reg bytes a) := by
  simpa [KeepsPorts] using h

/-- Settles O47: a duty step that hangs does so as at its output write and ends CONFIGURE there; after one that ran
through, CONFIGURE ends at the block write. -/
theorem unansweredConfigureHangs : Obligations.UnansweredConfigureHangs := by
  intro a m r g u d s hv
  have henc : EncodesConfig s.img (validatedImage s.img a m r g) a m r g := by
    obtain ⟨ha, hm, hr, -, hg, -⟩ := hv
    exact validatedImage_encodes s.img ha hm hr hg
  refine ⟨validatedImage s.img a m r g, henc, validatedImage_read s.img (by decide) (by decide),
    fun hp hw hn => ⟨_, dutyStep_eq_hung_iff.mpr ⟨hp, hw, hn, rfl⟩⟩, fun v hduty => ?_, fun v hduty hn => ?_⟩
  · obtain ⟨-, -, hn, rfl⟩ := dutyStep_eq_hung_iff.mp hduty
    have hang := HangsOnWrite.dutyWrite hn d (writtenPhase d)
    refine ⟨?_, hang.hung, henc.of_write5 (.inl hang.img), hang.indicator, State.pwm_dutyWrite _ d _, hang.rmode,
      hang.cfg, hang.ports, ?_, hang.trace⟩
    · rw [exec_configure_configured d s hv, State.configured, configureTail_of_dutyStep_hung _ hduty,
        Ended.finish_hung]
    · simpa [DrawsOne] using hang.draws
  · obtain ⟨himg, hmode, hcfg, hports⟩ := dutyStep_done_frame hduty
    have hparams : v.params = s.params := hports.left
    refine ⟨v.wrote v.params.ctrlBase v.img.payload .silent, ?_, by simp, ?_, by simp, by simp, by simpa, by simpa,
      hports.wrote _ _ _, by simp [DrawsOne], ?_⟩
    · rw [exec_configure_configured d s hv, State.configured, configureTail_unanswered _ hduty hn, Ended.finish_hung]
    · rw [State.img_wrote]
      exact henc.of_write5 himg
    · rw [State.trace_wrote, hparams]

end Sys2Proof.Machine

/-! SUPPORT. The encoding (30_encoding.md): frames and instructions are in bijection, which frames are illegal, and what
a token outside its set does. -/

namespace Sys2Proof

/-! ### Decoding is the inverse of encoding -/

/-- R70, R72, R86: the operands are any bytes. -/
theorem decode_encode (i : Instr) : decode (encode i) = some i := by
  cases i <;> rfl

/-- The frames that decode are the encodings. -/
theorem decode_eq_some_iff {f : Frame} {i : Instr} : decode f = some i ↔ encode i = f :=
  ⟨encode_of_decode, fun h => h ▸ decode_encode i⟩

/-- R71: a port reads the encodings of its own instructions. -/
theorem decodeOn_eq_some_iff {p : Port} {f : Frame} {i : Instr} :
    decodeOn p f = some i ↔ encode i = f ∧ i.port = p := by
  refine ⟨fun h => (decodeOn_some h).imp_left encode_of_decode, fun ⟨hf, hp⟩ => ?_⟩
  simp only [decodeOn, decode_eq_some_iff.mpr hf, if_pos hp]

theorem decodeOn_encode (i : Instr) : decodeOn i.port (encode i) = some i :=
  decodeOn_eq_some_iff.mpr ⟨rfl, rfl⟩

/-- Settles O1: `decodeOn_encode` one way, `encode_of_decode` the other. -/
theorem decodeEncodeAgree : Obligations.DecodeEncodeAgree :=
  ⟨decodeOn_encode, fun _ _ => encode_of_decode⟩

/-! ### The frame length (R87) -/

/-- The shape of every instruction's frame. -/
theorem Laws.FrameShape.statement (i : Instr) : Statement i := by
  cases i with
  | setAxes a => exact setAxes a
  | setRes m => exact setRes m
  | setRate r => exact setRate r
  | setRange g => exact setRange g
  | setUnit u => exact setUnit u
  | setDuty d => exact setDuty d
  | configure a m r g u d => exact configure a m r g u d
  | read => exact read
  | identify => exact identify
  | decode g u b0 b1 b2 b3 b4 b5 => exact decode g u b0 b1 b2 b3 b4 b5
  | tfire h => exact tfire h

/-- R87's table. -/
theorem frameLength_eq (op : Byte) : frameLength op =
    if op = 0x08 ∨ op = 0x09 then 1
    else if (1 ≤ op.toNat ∧ op.toNat ≤ 6) ∨ op = 0x0B then 2
    else if op = 0x07 then 7 else if op = 0x0A then 9 else 1 := by
  split_ifs with h1 h2 h7 hA
  · rcases h1 with rfl | rfl <;> rfl
  · have : op = 1 ∨ op = 2 ∨ op = 3 ∨ op = 4 ∨ op = 5 ∨ op = 6 ∨ op = 0x0B := by bv_omega
    rcases this with rfl | rfl | rfl | rfl | rfl | rfl | rfl <;> rfl
  · rw [h7]; rfl
  · rw [hA]; rfl
  · unfold frameLength
    split
    -- no named opcode is left: only the row of every other opcode
    case h_10 => rfl
    all_goals bv_omega

/-- Settles O2: a frame that decodes is its instruction's encoding, whose shape is known. -/
theorem frameLengthByOpcode : Obligations.FrameLengthByOpcode := by
  refine ⟨frameLength_eq, fun f i h => ?_⟩
  obtain ⟨hlen, hhead, -⟩ := Laws.FrameShape.statement i
  rw [← encode_of_decode h]
  exact ⟨hlen, hhead⟩

/-! ### Legal frames (R88) -/

/-- Only the opcode of TFIRE belongs to the timer-event port (R71). -/
theorem port_eq (i : Instr) : i.port = if opcodeOf i = 0x0B then .timer else .command := by
  cases i <;> rfl

/-- An opcode with one operand byte and any such byte are an instruction's frame. -/
theorem exists_encode_of_one_operand {k : Byte → Instr} {op : Byte} {args : List Byte} (hk : ∀ x, encode (k x) = [op, x])
    (h : args.length + 1 = 2) : ∃ i, encode i = op :: args := by
  obtain ⟨x, rfl⟩ := List.length_eq_one_iff.mp (Nat.succ.inj h)
  exact ⟨k x, hk x⟩

/-- R86, R87: an opcode of the table followed by as many bytes as its length wants is an instruction's frame. -/
theorem exists_encode {op : Byte} {args : List Byte} (h0 : op ≠ 0x00) (h12 : op.toNat < 0x0C)
    (hlen : args.length + 1 = frameLength op) : ∃ i, encode i = op :: args := by
  have hop : op = 1 ∨ op = 2 ∨ op = 3 ∨ op = 4 ∨ op = 5 ∨ op = 6 ∨ op = 7 ∨ op = 8 ∨ op = 9 ∨ op = 0x0A ∨
    op = 0x0B := by bv_omega
  rcases hop with rfl | rfl | rfl | rfl | rfl | rfl | rfl | rfl | rfl | rfl | rfl
  · exact exists_encode_of_one_operand (k := .setAxes) (fun _ => rfl) hlen
  · exact exists_encode_of_one_operand (k := .setRes) (fun _ => rfl) hlen
  · exact exists_encode_of_one_operand (k := .setRate) (fun _ => rfl) hlen
  · exact exists_encode_of_one_operand (k := .setRange) (fun _ => rfl) hlen
  · exact exists_encode_of_one_operand (k := .setUnit) (fun _ => rfl) hlen
  · exact exists_encode_of_one_operand (k := .setDuty) (fun _ => rfl) hlen
  · match args, hlen with
    | [a, m, r, g, u, d], _ => exact ⟨.configure a m r g u d, rfl⟩
  · match args, hlen with
    | [], _ => exact ⟨.read, rfl⟩
  · match args, hlen with
    | [], _ => exact ⟨.identify, rfl⟩
  · match args, hlen with
    | [g, u, b0, b1, b2, b3, b4, b5], _ => exact ⟨.decode g u b0 b1 b2 b3 b4 b5, rfl⟩
  · exact exists_encode_of_one_operand (k := .tfire) (fun _ => rfl) hlen

end Sys2Proof

namespace Sys2Proof.Machine

/-- R88: a frame none of (a) to (c) refuses is an instruction of its port. -/
theorem exists_decodeOn_of_legal {p : Port} {f : Frame} (h : ¬ IllegalFrame p f true) : ∃ i, decodeOn p f = some i := by
  cases f with
  | nil => exact absurd trivial h
  | cons op args =>
    simp only [IllegalFrame, not_or] at h
    obtain ⟨h0, h12, hlen, hcommand, htimer, -⟩ := h
    obtain ⟨i, hi⟩ := exists_encode h0 (not_le.mp h12) (not_not.mp hlen)
    have hop : opcodeOf i = op := (List.cons.inj hi).1
    refine ⟨i, decodeOn_eq_some_iff.mpr ⟨hi, ?_⟩⟩
    rw [port_eq, hop]
    cases p with
    | command => exact if_neg fun h => hcommand ⟨h, rfl⟩
    | timer => exact if_pos (not_not.mp fun h => htimer ⟨h, rfl⟩)

/-- R88: a frame that (a) to (c) refuse is no instruction of its port. -/
theorem decodeOn_eq_none_of_illegal {p : Port} {f : Frame} (h : IllegalFrame p f true) : decodeOn p f = none := by
  cases hd : decodeOn p f with
  | none => rfl
  | some i =>
    obtain ⟨rfl, rfl⟩ := decodeOn_eq_some_iff.mp hd
    obtain ⟨habsent, -⟩ := needsPwm_of_illegalFrame h
    cases habsent

/-- Settles O3: an illegal frame is no encoding, and a legal one is. -/
theorem illegalFramesAreNotDecoded : Obligations.IllegalFramesAreNotDecoded := by
  refine fun p f => ⟨fun h => ?_, decodeOn_eq_none_of_illegal⟩
  by_contra hlegal
  obtain ⟨i, hi⟩ := exists_decodeOn_of_legal hlegal
  rw [h] at hi
  cases hi

/-- Settles O4: whichever check refuses the frame, the state left is `s.illegal p`. -/
theorem illegalFramesAnswered : Obligations.IllegalFramesAnswered := fun p _ s h =>
  ⟨s.illegal p, runFrame_illegalFrame h, ⟨rfl, rfl, rfl, rfl⟩, ⟨rfl, rfl, rfl, rfl, rfl, rfl, rfl⟩, rfl⟩

/-! ### Invalid tokens (R89) -/

/-- R200, R201: only tokens of their sets make a valid CONFIGURE. -/
theorem wellFormed_of_configureValid {a m r g u : Byte} (d : Byte) (h : ConfigureValid a m r g u) :
    WellFormed (.configure a m r g u d) = true := by
  obtain ⟨ha, hm, hr, -, hg, hu⟩ := h
  simp [WellFormed, axesOk, modeOk, rateOk, rangeOk, unitOk, ha, hm, hr, hg, hu]

/-- R201: the two statuses CONFIGURE's validation gives. -/
theorem ConfigureError.status {a m r g u : Byte} {e : Status} (h : ConfigureError a m r g u e) :
    e = .invalidParameter ∨ e = .incompatibleConfiguration := by
  unfold ConfigureError at h
  split_ifs at h <;> simp [h]

/-- R89: an invalid token makes the command raise its status and do nothing else. -/
theorem exec_of_not_wellFormed {i : Instr} (s : State) (h : WellFormed i = false) :
    ∃ st, exec i s = .next (s.raise .command st) ∧
      (st = .invalidParameter ∨ (st = .incompatibleConfiguration ∧ mayWriteCfg i = true)) := by
  cases i with
  | setAxes a =>
    exact ⟨_, exec_setAxes_invalid s (by simpa [WellFormed, axesOk] using h), .inl rfl⟩
  | setRes m =>
    exact ⟨_, exec_setRes_invalid s (by simpa [WellFormed, modeOk] using h), .inl rfl⟩
  | setRate r =>
    exact ⟨_, exec_setRate_invalid s (by simpa [WellFormed, rateOk] using h), .inl rfl⟩
  | setRange g =>
    exact ⟨_, exec_setRange_invalid s (by simpa [WellFormed, rangeOk] using h), .inl rfl⟩
  | setUnit u =>
    exact ⟨_, exec_setUnit_invalid s (by simpa [WellFormed, unitOk] using h), .inl rfl⟩
  | configure a m r g u d =>
    rcases configure_valid_or_error a m r g u with hv | ⟨e, he⟩
    · rw [wellFormed_of_configureValid d hv] at h
      cases h
    · exact ⟨e, exec_configure_error d s he, he.status.imp_right fun hst => ⟨hst, rfl⟩⟩
  | decode g u b0 b1 b2 b3 b4 b5 =>
    refine ⟨_, exec_decode_invalid b0 b1 b2 b3 b4 b5 s ?_, .inl rfl⟩
    simpa [WellFormed, rangeOk, unitOk, or_iff_not_imp_left] using h
  | setDuty | read | identify | tfire => cases h

/-- Settles O22: the frame decodes whatever its operands, and a raise adds one response. -/
theorem invalidTokensRejected : Obligations.InvalidTokensRejected := by
  intro i s h
  obtain ⟨st, hexec, hst⟩ := exec_of_not_wellFormed s h
  exact ⟨decodeOn_encode i, s.raise .command st, st, hexec, ⟨rfl, rfl, rfl, rfl⟩, ⟨rfl, rfl, rfl, rfl, rfl, rfl, rfl⟩,
    rfl, hst⟩

/-! ### Frames and lines written out -/

/-- Settles O5: each frame is its instruction's encoding, and each port the instruction's own. -/
theorem specFramesDecode : Obligations.SpecFramesDecode :=
  ⟨decodeOn_encode (.setAxes 5), decodeOn_encode (.setRate 10), decodeOn_encode (.setDuty 0xFD),
    decodeOn_encode (.configure 7 1 5 0 0 5), decodeOn_encode .read, decodeOn_encode (.decode 0 1 0 0x40 0 0 0 0),
    decodeOn_encode (.tfire 3)⟩

/-- Settles O6: each of the six lines is assembled to the command R93 gives. -/
theorem pseudoInstructionsExpand : Obligations.PseudoInstructionsExpand := by
  have bloff : assemble "BLOFF" = some (.setDuty 0) := by decide
  have duty : assemble "SETDUTY 0" = some (.setDuty 0) := by decide
  have axesAll : assemble "AXESALL" = some (.setAxes 7) := by decide
  have axesXyz : assemble "SETAXES XYZ" = some (.setAxes 7) := by decide
  have axesNone : assemble "AXESNONE" = some (.setAxes 0) := by decide
  have axesEmpty : assemble "SETAXES -" = some (.setAxes 0) := by decide
  exact ⟨bloff.trans duty.symm, duty, axesAll.trans axesXyz.symm, axesXyz, axesNone.trans axesEmpty.symm, axesEmpty⟩

end Sys2Proof.Machine

/-! SUPPORT. The encoder commands (40_encoder.md): what each writes and answers, how two of them combine, and what the
field decoders read back. -/

namespace Sys2Proof.Machine

/-! ### What an encoder command leaves alone -/

/-- A command that only answers changes no register and nothing outside. -/
theorem exec_answer_keeps {i : Instr} {s : State} {p : Port} {st : Status} {d : RespData}
    (h : exec i s = .next (s.respond p st d)) : ∃ t, exec i s = .next t ∧ KeepsRegisters s t ∧ KeepsOutside s t ∧
      Outputs s t [.respond p st d] :=
  ⟨_, h, ⟨rfl, rfl, rfl, rfl⟩, ⟨rfl, rfl, rfl, rfl, rfl, rfl, rfl⟩, rfl⟩

/-- A response after a write of the image and `RMODE` leaves everything outside the block as it was. -/
theorem KeepsOutside.committed_respond (s : State) (w : Memory) (m : Option Mode) (p : Port) (st : Status)
    (d : RespData) : KeepsOutside s ({ s with img := w, rmode := m }.respond p st d) :=
  ⟨rfl, rfl, rfl, rfl, rfl, rfl, rfl⟩

/-! ### R101, R104, R106, R108: SETAXES, SETRATE, SETRANGE and SETUNIT -/

/-- Settles O17: SETAXES is one write of the field `[2:0]` of byte 0. -/
theorem setAxesEffect : Obligations.SetAxesEffect := by
  refine fun a s => ⟨rfl, fun ha => ?_, fun ha => exec_answer_keeps (exec_setAxes_invalid s ha)⟩
  refine ⟨_, exec_setAxes_valid s ha, ?_, ?_, ?_, rfl, rfl, rfl, .committed_respond s _ _ _ _ _, rfl⟩
  · exact Memory.field_setField_same _ _ _ _ (by decide) (by decide) ha
  · exact Memory.field_setField_disjoint _ _ _ _ _ _ _ (by decide)
  · exact fun j hj => Memory.read_setField_other _ _ _ _ hj

/-- Settles O19: SETRATE is one write of the field `[7:4]` of byte 0, after the token and then the mode are checked. -/
theorem setRateEffect : Obligations.SetRateEffect := by
  refine fun r s => ⟨rfl, fun hr hl => ?_, fun hr hl => exec_answer_keeps (exec_setRate_illegal s hr hl),
    fun hr => exec_answer_keeps (exec_setRate_invalid s hr)⟩
  have hcode : (tokenCode r).toNat < 2 ^ (7 - 4 + 1) := by have := tokenCode_le hr; omega
  refine ⟨_, exec_setRate_valid s hr hl, ?_, ?_, ?_, rfl, rfl, rfl, .committed_respond s _ _ _ _ _, rfl⟩
  · exact Memory.field_setField_same _ _ _ _ (by decide) (by decide) hcode
  · exact Memory.field_setField_disjoint _ _ _ _ _ _ _ (by decide)
  · exact fun j hj => Memory.read_setField_other _ _ _ _ hj

/-- The divisors of R105 as SETRANGE answers them. -/
theorem divValue_tokenDivisor (g : Byte) : BitVec.ofNat 16 (divValue (tokenDivisor g)) =
    if g = 0 then 16384 else if g = 1 then 8192 else if g = 2 then 4096 else 1024 := by
  unfold tokenDivisor
  split_ifs <;> rfl

/-- Settles O20: SETRANGE is one write of the field `[5:4]` of byte 3. -/
theorem setRangeEffect : Obligations.SetRangeEffect := by
  refine fun g s => ⟨rfl, fun hg => ?_, fun hg => exec_answer_keeps (exec_setRange_invalid s hg)⟩
  refine ⟨_, exec_setRange_valid s hg, ?_, ?_, ?_, ?_, rfl, rfl, rfl, .committed_respond s _ _ _ _ _, ?_⟩
  · exact Memory.field_setField_same _ _ _ _ (by decide) (by decide) (Nat.lt_succ_of_le hg)
  · exact Memory.field_setField_disjoint _ _ _ _ _ _ _ (by decide)
  · exact Memory.field_setField_disjoint _ _ _ _ _ _ _ (by decide)
  · exact fun j hj => Memory.read_setField_other _ _ _ _ hj
  · rw [← divValue_tokenDivisor]
    rfl

/-- Settles O21: SETUNIT only answers, whether its token is valid or not. -/
theorem setUnitEffect : Obligations.SetUnitEffect := fun _ s =>
  ⟨rfl, fun hu => exec_answer_keeps (exec_setUnit_valid s hu), fun hu => exec_answer_keeps (exec_setUnit_invalid s hu)⟩

/-! ### R102: SETRES -/

/-- The two resolution bits leave the rest of byte 0 alone. -/
theorem field0_setResBits (w : Memory) (lp hr : Byte) {hi lo : Nat} (h : 3 < lo ∨ hi < 3) :
    ((w.setField 0 3 3 lp).setField 3 3 3 hr).field 0 hi lo = w.field 0 hi lo := by
  rw [Memory.field_setField_byte _ _ _ _ _ _ (by decide), Memory.field_setField_disjoint _ _ _ _ _ _ _ h]

/-- The two resolution bits leave the rest of byte 3 alone. -/
theorem field3_setResBits (w : Memory) (lp hr : Byte) {hi lo : Nat} (h : 3 < lo ∨ hi < 3) :
    ((w.setField 0 3 3 lp).setField 3 3 3 hr).field 3 hi lo = w.field 3 hi lo := by
  rw [Memory.field_setField_disjoint _ _ _ _ _ _ _ h, Memory.field_setField_byte _ _ _ _ _ _ (by decide)]

theorem lpen_setResBits (w : Memory) (m : Mode) (hr : Byte) :
    ((w.setField 0 3 3 (lpenBit m)).setField 3 3 3 hr).field 0 3 3 = lpenBit m := by
  rw [Memory.field_setField_byte _ _ _ _ _ _ (by decide),
    Memory.field_setField_same _ _ _ _ (by decide) (by decide) (lpenBit_lt m)]

/-- Settles O18: SETRES is one write of each resolution bit, and of `RMODE`. -/
theorem setResEffect : Obligations.SetResEffect := by
  refine fun m s => ⟨rfl, fun hm => ?_, fun hm => exec_answer_keeps (exec_setRes_invalid s hm)⟩
  refine ⟨_, exec_setRes_valid s hm, ?lpen, ?hr, rfl, ?_, ?_, ?_, ?_, ?bytes, rfl, rfl,
    .committed_respond s _ _ _ _ _, rfl⟩
  case lpen => exact (lpen_setResBits _ _ _).trans lpenBit_tokenMode
  case hr =>
    exact (Memory.field_setField_same _ _ _ _ (by decide) (by decide) (hrBit_lt _)).trans (hrBit_tokenMode hm)
  case bytes =>
    exact fun j h0 h3 => (Memory.read_setField_other _ _ _ _ h3).trans (Memory.read_setField_other _ _ _ _ h0)
  · exact field0_setResBits _ _ _ (by decide)
  · exact field0_setResBits _ _ _ (by decide)
  · exact field3_setResBits _ _ _ (by decide)
  · exact field3_setResBits _ _ _ (by decide)

/-! ### Writes of several encoder fields -/

/-- One write to the image: a field as (byte, high bit, low bit), and its value. -/
abbrev FieldWrite := (Nat × Nat × Nat) × Byte

/-- The writes made one after the other. -/
def Memory.setFields : Memory → List FieldWrite → Memory
  | w, [] => w
  | w, ((i, hi, lo), v) :: fs => Memory.setFields (w.setField i hi lo v) fs

/-- Every write is to an encoder field (30_encoding.md R80). -/
def OnEncoderFields (fs : List FieldWrite) : Prop := ∀ f ∈ fs, f.1 ∈ encoderFields

theorem encoderFields_lt_imgSize {x : Nat × Nat × Nat} (h : x ∈ encoderFields) : x.1 < imgSize := by
  rcases encoderFields_byte x h with h | h <;> rw [h] <;> decide

/-- Writes to two different encoder fields commute. -/
theorem Memory.setField_comm_of_ne {w : Memory} {x y : Nat × Nat × Nat} (hw : w.wf = true) (hx : x ∈ encoderFields)
    (hy : y ∈ encoderFields) (hne : x ≠ y) (u v : Byte) :
    (w.setField x.1 x.2.1 x.2.2 u).setField y.1 y.2.1 y.2.2 v =
      (w.setField y.1 y.2.1 y.2.2 v).setField x.1 x.2.1 x.2.2 u := by
  have hd := encoderFields_disjoint x hx y (List.mem_append_left _ hy) hne.symm
  exact Memory.setField_comm hw _ _ _ _ u v (encoderFields_lt_imgSize hx) (encoderFields_lt_imgSize hy) (by omega)

theorem Memory.setFields_setField {w : Memory} {f : FieldWrite} {fs : List FieldWrite} (hw : w.wf = true)
    (hf : f.1 ∈ encoderFields) (hfs : OnEncoderFields fs) (hne : ∀ g ∈ fs, f.1 ≠ g.1) :
    (w.setField f.1.1 f.1.2.1 f.1.2.2 f.2).setFields fs = (w.setFields fs).setField f.1.1 f.1.2.1 f.1.2.2 f.2 := by
  induction fs generalizing w with
  | nil => rfl
  | cons g fs ih =>
    obtain ⟨hg, hfs⟩ := List.forall_mem_cons.mp hfs
    obtain ⟨hfg, hne⟩ := List.forall_mem_cons.mp hne
    rw [Memory.setFields, Memory.setField_comm_of_ne hw hf hg hfg]
    exact ih (Memory.wf_setField _ _ _ hw (encoderFields_lt_imgSize hg)) hfs hne

/-- Two lists of writes that share no field commute. -/
theorem Memory.setFields_comm {w : Memory} {fs gs : List FieldWrite} (hw : w.wf = true) (hfs : OnEncoderFields fs)
    (hgs : OnEncoderFields gs) (hne : ∀ f ∈ fs, ∀ g ∈ gs, f.1 ≠ g.1) :
    (w.setFields fs).setFields gs = (w.setFields gs).setFields fs := by
  induction fs generalizing w with
  | nil => rfl
  | cons f fs ih =>
    obtain ⟨hf, hfs⟩ := List.forall_mem_cons.mp hfs
    obtain ⟨hfgs, hne⟩ := List.forall_mem_cons.mp hne
    rw [Memory.setFields, ih (Memory.wf_setField _ _ _ hw (encoderFields_lt_imgSize hf)) hfs hne,
      Memory.setFields_setField hw hf hgs hfgs, Memory.setFields]

/-- A list of writes to distinct fields is idempotent. -/
theorem Memory.setFields_idem {w : Memory} {fs : List FieldWrite} (hw : w.wf = true) (hfs : OnEncoderFields fs)
    (hd : fs.Pairwise (·.1 ≠ ·.1)) : (w.setFields fs).setFields fs = w.setFields fs := by
  induction fs generalizing w with
  | nil => rfl
  | cons f fs ih =>
    obtain ⟨hf, hfs⟩ := List.forall_mem_cons.mp hfs
    obtain ⟨hne, hd⟩ := List.pairwise_cons.mp hd
    have hlt := encoderFields_lt_imgSize hf
    have hwf := Memory.wf_setField f.1.2.1 f.1.2.2 f.2 hw hlt
    rw [Memory.setFields, Memory.setFields, ← Memory.setFields_setField hwf hf hfs hne,
      Memory.setField_idem hw _ _ _ hlt]
    exact ih hwf hfs hd

/-! ### What an accepted image encoder does -/

/-- The field writes of an image encoder (R101, R102, R104, R106). -/
def encoderWrites : Instr → List FieldWrite
  | .setAxes a => [((0, 2, 0), a)]
  | .setRes m => [((0, 3, 3), lpenBit (tokenMode m)), ((3, 3, 3), hrBit (tokenMode m))]
  | .setRate r => [((0, 7, 4), tokenCode r)]
  | .setRange g => [((3, 5, 4), g)]
  | _ => []

/-- `RMODE` after an image encoder that started from `o`. -/
def encodedMode : Instr → Option Mode → Option Mode
  | .setRes m, _ => some (tokenMode m)
  | _, o => o

/-- The tokens and modes an image encoder answers `OK` for. -/
def EncoderAccepts (o : Option Mode) : Instr → Prop
  | .setAxes a => a.toNat < 8
  | .setRes m => m.toNat ≤ 2
  | .setRate r => r.toNat ≤ 10 ∧ RateLegal r o
  | .setRange g => g.toNat ≤ 3
  | _ => False

/-- The encoder runs from `s` to `t`, answers `OK` and makes its writes. -/
structure EncodesOk (i : Instr) (s t : State) : Prop where
  run    : exec i s = .next t
  status : lastStatus t = some .ok
  img    : t.img = s.img.setFields (encoderWrites i)
  rmode  : t.rmode = encodedMode i s.rmode

theorem EncodesOk.of_accepts {i : Instr} {s : State} (h : EncoderAccepts s.rmode i) : ∃ t, EncodesOk i s t := by
  cases i with
  | setAxes a => exact ⟨_, exec_setAxes_valid s h, lastStatus_of_trace rfl, rfl, rfl⟩
  | setRes m => exact ⟨_, exec_setRes_valid s h, lastStatus_of_trace rfl, rfl, rfl⟩
  | setRate r => exact ⟨_, exec_setRate_valid s h.left h.right, lastStatus_of_trace rfl, rfl, rfl⟩
  | setRange g => exact ⟨_, exec_setRange_valid s h, lastStatus_of_trace rfl, rfl, rfl⟩
  | _ => exact h.elim

/-- An image encoder answers `OK` only where it accepts, and then makes its writes. -/
theorem EncodesOk.of_ok {i : Instr} {s t : State} (hi : isImageEncoder i = true) (hrun : exec i s = .next t)
    (hok : lastStatus t = some .ok) : EncoderAccepts s.rmode i ∧ EncodesOk i s t := by
  rcases imageEncoder_ok hi hrun hok with ⟨a, rfl, ha, himg, hmode⟩ | ⟨m, rfl, hm, himg, hmode⟩ |
    ⟨r, rfl, hr, hl, himg, hmode⟩ | ⟨g, rfl, hg, himg, hmode⟩
  · exact ⟨ha, hrun, hok, himg, hmode⟩
  · exact ⟨hm, hrun, hok, himg, hmode⟩
  · exact ⟨⟨hr, hl⟩, hrun, hok, himg, hmode⟩
  · exact ⟨hg, hrun, hok, himg, hmode⟩

/-! ### R109: two image encoders in a row -/

/-- The opcode of the encoder command that owns an encoder field (10_state.md R34). -/
def fieldOpcode (x : Nat × Nat × Nat) : Byte :=
  if x = (0, 2, 0) then 0x01 else if x = (0, 7, 4) then 0x03 else if x = (3, 5, 4) then 0x04 else 0x02

theorem onEncoderFields_encoderWrites (i : Instr) : OnEncoderFields (encoderWrites i) := by
  cases i <;> simp [OnEncoderFields, encoderWrites, encoderFields]

theorem encoderWrites_distinct (i : Instr) : (encoderWrites i).Pairwise (·.1 ≠ ·.1) := by
  cases i <;> simp [encoderWrites]

theorem fieldOpcode_of_mem {i : Instr} {f : FieldWrite} (h : f ∈ encoderWrites i) : fieldOpcode f.1 = opcodeOf i := by
  cases i with
  | setRes m => rcases List.mem_pair.mp h with rfl | rfl <;> rfl
  | setAxes | setRate | setRange => rw [List.mem_singleton.mp h]; rfl
  | _ => cases h

/-- Encoders of different opcodes write different fields. -/
theorem encoderWrites_disjoint {i j : Instr} (h : opcodeOf i ≠ opcodeOf j) :
    ∀ f ∈ encoderWrites i, ∀ g ∈ encoderWrites j, f.1 ≠ g.1 := by
  intro f hf g hg hfg
  rw [← fieldOpcode_of_mem hf, ← fieldOpcode_of_mem hg, hfg] at h
  exact h rfl

/-- Only SETRES sets `RMODE` among the image encoders. -/
theorem encodedMode_eq_or_setRes (i : Instr) : (∀ o, encodedMode i o = o) ∨ ∃ m, i = .setRes m := by
  cases i with
  | setRes m => exact .inr ⟨m, rfl⟩
  | _ => exact .inl fun _ => rfl

theorem encodedMode_comm {i j : Instr} (h : opcodeOf i ≠ opcodeOf j) (o : Option Mode) :
    encodedMode j (encodedMode i o) = encodedMode i (encodedMode j o) := by
  rcases encodedMode_eq_or_setRes i with hi | ⟨m, rfl⟩
  · rw [hi, hi]
  rcases encodedMode_eq_or_setRes j with hj | ⟨n, rfl⟩
  · rw [hj, hj]
  exact absurd rfl h

/-- Only SETRATE looks at `RMODE`, and only SETRES sets it. -/
theorem encoderAccepts_encodedMode {i j : Instr} (h : ¬ (isModeOrRate i = true ∧ isModeOrRate j = true))
    (o : Option Mode) : EncoderAccepts (encodedMode i o) j ↔ EncoderAccepts o j := by
  rcases encodedMode_eq_or_setRes i with hi | ⟨m, rfl⟩
  · rw [hi]
  cases j with
  | setRate r => exact absurd ⟨rfl, rfl⟩ h
  | _ => exact Iff.rfl

/-- SETRATE leaves the mode it was checked against, and no other encoder looks at it. -/
theorem encoderAccepts_again (i : Instr) (o : Option Mode) :
    EncoderAccepts (encodedMode i o) i ↔ EncoderAccepts o i := by cases i <;> exact Iff.rfl

theorem encodedMode_idem (i : Instr) (o : Option Mode) : encodedMode i (encodedMode i o) = encodedMode i o := by
  cases i <;> rfl

/-- Settles O23: the second encoder is accepted before the first as it is after it, and their writes are to different
fields. -/
theorem encodersCommute : Obligations.EncodersCommute := by
  intro i j s t1 t2 hi hj hop hpair hwf hrun1 hok1 hrun2 hok2
  obtain ⟨hacc1, ht1⟩ := EncodesOk.of_ok hi hrun1 hok1
  obtain ⟨hacc2, ht2⟩ := EncodesOk.of_ok hj hrun2 hok2
  rw [ht1.rmode, encoderAccepts_encodedMode hpair] at hacc2
  obtain ⟨u1, hu1⟩ := EncodesOk.of_accepts hacc2
  rw [← encoderAccepts_encodedMode (i := j) (fun h => hpair h.symm), ← hu1.rmode] at hacc1
  obtain ⟨u2, hu2⟩ := EncodesOk.of_accepts hacc1
  refine ⟨u1, u2, hu1.run, hu1.status, hu2.run, hu2.status, ?_, ?_⟩
  · rw [hu2.img, hu1.img, ht2.img, ht1.img, Memory.setFields_comm hwf (onEncoderFields_encoderWrites i)
      (onEncoderFields_encoderWrites j) (encoderWrites_disjoint hop)]
  · rw [hu2.rmode, hu1.rmode, ht2.rmode, ht1.rmode, encodedMode_comm hop]

/-- Settles O24: the encoder is accepted again, and writes what its distinct fields already hold. -/
theorem encodersIdempotent : Obligations.EncodersIdempotent := by
  intro i s t hi hwf hrun hok
  obtain ⟨hacc, ht⟩ := EncodesOk.of_ok hi hrun hok
  rw [← encoderAccepts_again, ← ht.rmode] at hacc
  obtain ⟨u, hu⟩ := EncodesOk.of_accepts hacc
  refine ⟨u, hu.run, hu.status, ?_, ?_⟩
  · rw [hu.img, ht.img, Memory.setFields_idem hwf (onEncoderFields_encoderWrites i) (encoderWrites_distinct i)]
  · rw [hu.rmode, ht.rmode, encodedMode_idem]

/-! ### R110 to R113: the field decoders -/

theorem mem_allRates (x : Rate) : x ∈ allRates := by cases x <;> decide

/-- Two rates share a code only where they are the two of code 1001 (30_encoding.md R82). -/
theorem odrCode_eq : ∀ x ∈ allRates, ∀ y ∈ allRates, odrCode x = odrCode y →
    x = y ∨ (x = .hz1344 ∧ y = .hz5376) ∨ (x = .hz5376 ∧ y = .hz1344) := by decide

/-- No mode admits both rates of code 1001 (40_encoder.md R103). -/
theorem compat_exclusive {o : Option Mode} (h : compat .hz1344 o = true) : ¬ compat .hz5376 o = true := by
  rcases o with _ | _ | _ | _ <;> revert h <;> decide

/-- A code and a mode name at most one rate. -/
theorem rate_eq_of_code {x y : Rate} {o : Option Mode} (hc : odrCode x = odrCode y) (hx : compat x o = true)
    (hy : compat y o = true) : x = y := by
  rcases odrCode_eq x (mem_allRates x) y (mem_allRates y) hc with h | ⟨rfl, rfl⟩ | ⟨rfl, rfl⟩
  · exact h
  · exact absurd hy (compat_exclusive hx)
  · exact absurd hx (compat_exclusive hy)

theorem decRate_eq_some_iff {w : Memory} {o : Option Mode} {x : Rate} :
    decRate w o = some x ↔ odrCode x = w.field 0 7 4 ∧ compat x o = true := by
  have found : ∀ {y}, decRate w o = some y → odrCode y = w.field 0 7 4 ∧ compat y o = true := fun h => by
    simpa using List.find?_some h
  refine ⟨found, fun ⟨hc, hm⟩ => ?_⟩
  have hsome : (decRate w o).isSome := List.find?_isSome.mpr ⟨x, mem_allRates x, by simp [hc, hm]⟩
  obtain ⟨y, hy⟩ := Option.isSome_iff_exists.mp hsome
  obtain ⟨hcy, hmy⟩ := found hy
  rw [hy, rate_eq_of_code (hcy.trans hc.symm) hmy hm]

/-- R111 in terms of a rate token. -/
theorem decRate_eq_rateOf_iff (w : Memory) (o : Option Mode) {r : Byte} (h : r.toNat ≤ 10) :
    decRate w o = rateOf r ↔ w.field 0 7 4 = tokenCode r ∧ RateLegal r o := by
  obtain ⟨x, hx, hc, hm⟩ := rateOf_valid h
  rw [hx, decRate_eq_some_iff, hc, hm, eq_comm]

/-- Every rate has a token (30_encoding.md R82). -/
theorem exists_rate_token (x : Rate) : ∃ r : Byte, r.toNat ≤ 10 ∧ rateOf r = some x := by
  cases x
  exacts [⟨0, by decide, rfl⟩, ⟨1, by decide, rfl⟩, ⟨2, by decide, rfl⟩, ⟨3, by decide, rfl⟩, ⟨4, by decide, rfl⟩,
    ⟨5, by decide, rfl⟩, ⟨6, by decide, rfl⟩, ⟨7, by decide, rfl⟩, ⟨8, by decide, rfl⟩, ⟨9, by decide, rfl⟩,
    ⟨10, by decide, rfl⟩]

theorem decRate_eq_none_iff (w : Memory) (o : Option Mode) :
    decRate w o = none ↔ ∀ r : Byte, r.toNat ≤ 10 → ¬ (w.field 0 7 4 = tokenCode r ∧ RateLegal r o) := by
  constructor
  · intro hnone r hr hcode
    obtain ⟨x, hx, -⟩ := rateOf_valid hr
    rw [← decRate_eq_rateOf_iff w o hr, hnone, hx] at hcode
    cases hcode
  · intro hno
    refine Option.eq_none_iff_forall_ne_some.mpr fun x hx => ?_
    obtain ⟨r, hr, hrx⟩ := exists_rate_token x
    exact hno r hr ((decRate_eq_rateOf_iff w o hr).mp (hx.trans hrx.symm))

/-- A range code is its token (30_encoding.md R77, R83). -/
theorem find_fsCode {c : Byte} (h : c.toNat ≤ 3) : allRanges.find? (fun g => fsCode g == c) = rangeOf c := by
  rcases (by omega : c.toNat = 0 ∨ c.toNat = 1 ∨ c.toNat = 2 ∨ c.toNat = 3) with h | h | h | h <;>
    rw [byte_of_toNat h] <;> rfl

/-- `FS` is two bits wide, so it always holds a range token. -/
theorem field_fs_le (w : Memory) : (w.field 3 5 4).toNat ≤ 3 := by
  have : (w.field 3 5 4).toNat < 2 ^ (5 + 1 - 4) := w.field_toNat_lt 3
  omega

theorem decRange_eq_rangeOf (w : Memory) : decRange w = rangeOf (w.field 3 5 4) := find_fsCode (field_fs_le w)

/-- Settles O25: a code and a mode name at most one rate, and every two-bit code is a range. -/
theorem fieldDecoderValues : Obligations.FieldDecoderValues := by
  intro w o
  refine ⟨rfl, fun r hr => decRate_eq_rateOf_iff w o hr, decRate_eq_none_iff w o,
    fun h0 h3 => decRes_of_bits (m := .lp) h0 h3, fun h0 h3 => decRes_of_bits (m := .normal) h0 h3,
    fun h0 h3 => decRes_of_bits (m := .hr) h0 h3, fun h0 h3 => ?_, decRange_eq_rangeOf w, ?_⟩
  · rw [decRes, h0, h3]
    rfl
  · obtain ⟨x, hx, -⟩ := rangeOf_valid (field_fs_le w)
    rw [decRange_eq_rangeOf, hx]
    rfl

/-! ### R114: the round trip -/

/-- Settles O26: the four functions in turn give the image CONFIGURE validates, whose fields hold the four tokens. -/
theorem fieldRoundTrip : Obligations.FieldRoundTrip := by
  intro w a m r g ha hm hr hg hl
  obtain ⟨haxes, hlp, hrate, hrange, hhr, hlow, hhigh, -⟩ := validatedImage_encodes w ha hm hr hg
  refine ⟨_, _, _, validatedImage w a m r g, encAxes_valid w ha, encRes_valid _ hm, encRate_valid _ hr hl,
    encRange_valid _ hg, haxes, ?_, (decRate_eq_rateOf_iff _ _ hr).mpr ⟨hrate, hl⟩, ?_, hlow, hhigh,
    fun j h0 h3 => validatedImage_read w h0 h3⟩
  · exact decRes_of_bits (hlp.trans lpenBit_tokenMode.symm) (hhr.trans (hrBit_tokenMode hm).symm)
  · rw [decRange_eq_rangeOf, hrange]

end Sys2Proof.Machine

/-! SUPPORT. The sample decoder (41_decoder.md): the exact number a lane is rounded from, its bounds, and what rounding
makes of it; then DECODE. -/

namespace Sys2Proof.Machine

/-! ### Numbers in the normal range of binary64 -/

/-- A number that is not zero and whose leading bit the normal range holds, well below the overflow bound. -/
structure Scaled.InNormalRange (x : Scaled) : Prop where
  mant_ne : x.mant ≠ 0
  low     : -1022 ≤ (x.mant.log2 : Int) + x.exp
  high    : (x.mant.log2 : Int) + x.exp ≤ 1000

theorem Scaled.toRat_eq_zero_of_mant {x : Scaled} (h : x.mant = 0) : x.toRat = 0 := by simp [Scaled.toRat, h]

theorem f64Value_zero : f64Value 0 = 0 := Scaled.toRat_eq_zero_of_mant (by decide)

/-- The bounds every decoded value that is not zero keeps to are far inside the normal range. -/
theorem Scaled.InNormalRange.of_bounds {x : Scaled} (hlo : (2 : ℚ) ^ (-14 : Int) ≤ |x.toRat|)
    (hhi : |x.toRat| < (2 : ℚ) ^ (10 : Int)) : x.InNormalRange := by
  have hne : x.mant ≠ 0 := fun h => by
    rw [Scaled.toRat_eq_zero_of_mant h] at hlo
    norm_num at hlo
  obtain ⟨hl, hh⟩ := log_of_bounds hne hlo hhi
  exact ⟨hne, by omega, by omega⟩

/-- The pattern of a number in the normal range is finite, not subnormal and not -0.0. -/
theorem Scaled.InNormalRange.roundF64_pattern {x : Scaled} (h : x.InNormalRange) : f64Finite (roundF64 x) = true ∧
    f64Subnormal (roundF64 x) = false ∧ roundF64 x ≠ 0x8000000000000000 := by
  obtain ⟨hr, hn, h1, -⟩ := roundF64_normal x h.mant_ne h.low h.high
  rw [hr]
  exact ⟨finite_of_pattern hn, not_subnormal_of_pattern hn h1⟩

/-- Rounding does not pass a bound that has patterns of its own in both signs. -/
theorem Scaled.InNormalRange.abs_roundF64_le {x : Scaled} (h : x.InNormalRange) {b c : F64} {v : ℚ}
    (hb : f64Value b = v) (hc : f64Value c = -v) (hx : |x.toRat| ≤ v) : |f64Value (roundF64 x)| ≤ v := by
  obtain ⟨hb', -⟩ := roundF64_nearest x h.mant_ne h.low h.high b
  obtain ⟨hc', -⟩ := roundF64_nearest x h.mant_ne h.low h.high c
  obtain ⟨hxlo, hxhi⟩ := abs_le.mp hx
  rw [hb, abs_of_nonneg (sub_nonneg.mpr hxhi)] at hb'
  rw [hc, abs_of_nonpos (sub_nonpos.mpr hxlo)] at hc'
  have hle := le_abs_self (f64Value (roundF64 x) - x.toRat)
  have hge := neg_abs_le (f64Value (roundF64 x) - x.toRat)
  exact abs_le.mpr ⟨by linarith, by linarith⟩

/-! ### The sample word and its quotient -/

/-- R52: the word of two bytes. -/
theorem leWord_toNat (lo hi : Byte) : (leWord lo hi).toNat = hi.toNat * 256 + lo.toNat := by
  rw [leWord, BitVec.toNat_ofNat, Nat.mod_eq_of_lt]
  omega

/-- R141: every divisor is the power of two of its exponent. -/
theorem divValue_eq_two_pow (d : Divisor) : divValue d = 2 ^ divExponent d := by cases d <;> rfl

/-- The quotient of R140 is the word divided by the divisor. -/
theorem quotient_toRat (w : BitVec 16) (d : Divisor) : (quotient w d).toRat = (w.toInt : ℚ) / (divValue d : ℚ) := by
  have hsign : (if w.msb then (-1 : ℚ) else 1) * (w.toInt.natAbs : ℚ) = w.toInt := by
    rw [Nat.cast_natAbs, Int.cast_abs, BitVec.msb_eq_toInt]
    by_cases hneg : w.toInt < 0
    · rw [abs_of_neg (Int.cast_lt_zero.mpr hneg)]
      simp [hneg]
    · rw [abs_of_nonneg (Int.cast_nonneg (not_lt.mp hneg))]
      simp [hneg]
  rw [Scaled.toRat, quotient, hsign, divValue_eq_two_pow, zpow_neg, zpow_natCast, Nat.cast_pow, div_eq_mul_inv]
  rfl

theorem natAbs_toInt_le (w : BitVec 16) : w.toInt.natAbs ≤ 2 ^ 15 := by
  have hlt := @BitVec.toInt_lt 16 w
  have hge := w.le_toInt
  omega

/-- R142: a word that is not zero has a quotient of magnitude 2^-14 to 32. -/
theorem abs_quotient_bounds {w : BitVec 16} (d : Divisor) (h : w ≠ 0) :
    (2 : ℚ) ^ (-14 : Int) ≤ |(w.toInt : ℚ) / (divValue d : ℚ)| ∧ |(w.toInt : ℚ) / (divValue d : ℚ)| ≤ 32 := by
  have hone : (1 : ℚ) ≤ |(w.toInt : ℚ)| := by
    exact_mod_cast Int.one_le_abs (BitVec.toInt_ne.mpr h)
  have hmax : |(w.toInt : ℚ)| ≤ 32768 := by
    rw [← Int.cast_abs, Int.abs_eq_natAbs]
    exact_mod_cast natAbs_toInt_le w
  have hd : (1024 : ℚ) ≤ divValue d ∧ (divValue d : ℚ) ≤ 16384 := by cases d <;> norm_num [divValue]
  have hpos : (0 : ℚ) < divValue d := by linarith
  rw [abs_div, abs_of_pos hpos, le_div_iff₀ hpos, div_le_iff₀ hpos]
  constructor
  · rw [show (2 : ℚ) ^ (-14 : Int) = 1 / 16384 by norm_num]
    linarith
  · linarith

/-- R141: the quotient is exact in binary64. -/
theorem f64Value_toF64_quotient (w : BitVec 16) (d : Divisor) :
    f64Value (toF64 (quotient w d)) = (w.toInt : ℚ) / (divValue d : ℚ) := by
  by_cases h : w = 0
  · subst h
    rw [show toF64 (quotient 0 d) = 0 by cases d <;> decide, f64Value_zero]
    simp
  · obtain ⟨hlo, hhi⟩ := abs_quotient_bounds d h
    rw [← quotient_toRat] at hlo hhi ⊢
    have hn := Scaled.InNormalRange.of_bounds hlo (hhi.trans_lt (by norm_num))
    have hlog : (quotient w d).mant.log2 < 53 :=
      (Nat.log2_lt hn.mant_ne).mpr ((natAbs_toInt_le w).trans_lt (by norm_num))
    exact roundF64_exact _ hn.mant_ne (Nat.le_of_lt_succ hlog) hn.low hn.high

/-! ### The exact number of a lane -/

/-- The exact number a lane with sample word `w` is rounded from, in either unit (R140). -/
def laneExact (w : BitVec 16) (d : Divisor) : OutUnit → Scaled
  | .native => quotient w d
  | .si => (unpackF64 (toF64 (quotient w d))).mul (unpackF64 gSi)

/-- What the unit multiplies the quotient by. -/
def unitFactor : OutUnit → ℚ
  | .native => 1
  | .si => f64Value gSi

theorem decodeLane_eq_roundF64 (lo hi : Byte) (d : Divisor) (u : OutUnit) :
    decodeLane lo hi d u = roundF64 (laneExact (leWord lo hi) d u) := by cases u <;> rfl

theorem laneExact_toRat (w : BitVec 16) (d : Divisor) (u : OutUnit) :
    (laneExact w d u).toRat = (w.toInt : ℚ) / (divValue d : ℚ) * unitFactor u := by
  cases u with
  | native => rw [laneExact, quotient_toRat, unitFactor, mul_one]
  | si => rw [laneExact, mul_toRat, unitFactor, ← f64Value_toF64_quotient]; rfl

theorem f64Value_gSi : f64Value gSi = 5522539043063071 * (2 : ℚ) ^ (-49 : Int) := by
  have hfields : unpackF64 gSi = ⟨false, 5522539043063071, -49⟩ := by decide
  rw [f64Value, hfields, Scaled.toRat]
  norm_num

theorem unitFactor_bounds (u : OutUnit) : 1 ≤ unitFactor u ∧ unitFactor u ≤ 9.8105 := by
  cases u with
  | native => norm_num [unitFactor]
  | si => rw [unitFactor, f64Value_gSi]; norm_num

/-- R142: |v| is at most 32 × 9.81, and not below 2^-14 for a word that is not zero. -/
theorem abs_laneExact_bounds {w : BitVec 16} (d : Divisor) (u : OutUnit) (h : w ≠ 0) :
    (2 : ℚ) ^ (-14 : Int) ≤ |(laneExact w d u).toRat| ∧ |(laneExact w d u).toRat| ≤ 313.9375 := by
  obtain ⟨hlo, hhi⟩ := abs_quotient_bounds d h
  obtain ⟨hone, hmax⟩ := unitFactor_bounds u
  have hpos : (0 : ℚ) < unitFactor u := by linarith
  rw [laneExact_toRat, abs_mul, abs_of_pos hpos]
  refine ⟨hlo.trans (le_mul_of_one_le_right (abs_nonneg _) hone), ?_⟩
  calc _ ≤ 32 * (9.8105 : ℚ) := by gcongr
    _ ≤ 313.9375 := by norm_num

theorem laneExact_inNormalRange {w : BitVec 16} (d : Divisor) (u : OutUnit) (h : w ≠ 0) :
    (laneExact w d u).InNormalRange := by
  obtain ⟨hlo, hhi⟩ := abs_laneExact_bounds d u h
  exact .of_bounds hlo (hhi.trans_lt (by norm_num))

/-! ### The decoded value -/

/-- R142: a zero word gives +0.0 in both units. -/
theorem decodeLane_zero {lo hi : Byte} (d : Divisor) (u : OutUnit) (h : leWord lo hi = 0) :
    decodeLane lo hi d u = 0 := by
  rw [decodeLane_eq_roundF64, h]
  cases u <;> cases d <;> decide

/-- R142: a decoded value is finite, not subnormal and not -0.0. -/
theorem decodeLane_pattern (lo hi : Byte) (d : Divisor) (u : OutUnit) : f64Finite (decodeLane lo hi d u) = true ∧
    f64Subnormal (decodeLane lo hi d u) = false ∧ decodeLane lo hi d u ≠ 0x8000000000000000 := by
  by_cases h : leWord lo hi = 0
  · rw [decodeLane_zero d u h]
    decide
  · rw [decodeLane_eq_roundF64]
    exact (laneExact_inNormalRange d u h).roundF64_pattern

/-- The patterns of ±313.9375, a bound between 32 × 9.81 and 314. -/
theorem f64Value_laneBound : f64Value 0x40739F0000000000 = 313.9375 ∧ f64Value 0xC0739F0000000000 = -313.9375 := by
  have hpos : unpackF64 0x40739F0000000000 = ⟨false, 0x139F0000000000, -44⟩ := by decide
  have hneg : unpackF64 0xC0739F0000000000 = ⟨true, 0x139F0000000000, -44⟩ := by decide
  constructor
  · rw [f64Value, hpos, Scaled.toRat]; norm_num
  · rw [f64Value, hneg, Scaled.toRat]; norm_num

/-- R142: the bound on the exact value survives the rounding. -/
theorem abs_f64Value_decodeLane_le (lo hi : Byte) (d : Divisor) (u : OutUnit) :
    |f64Value (decodeLane lo hi d u)| ≤ 313.9375 := by
  by_cases h : leWord lo hi = 0
  · rw [decodeLane_zero d u h, f64Value_zero]
    norm_num
  · rw [decodeLane_eq_roundF64]
    obtain ⟨hpos, hneg⟩ := f64Value_laneBound
    exact (laneExact_inNormalRange d u h).abs_roundF64_le hpos hneg (abs_laneExact_bounds d u h).right

/-- R142: a power of two only shifts the exponent of `G_SI`, so the SI product is exact. -/
theorem f64Value_decodeLane_si_of_two_pow {lo hi : Byte} (d : Divisor) {k : Nat}
    (hk : (leWord lo hi).toInt.natAbs = 2 ^ k) :
    f64Value (decodeLane lo hi d .si) = ((leWord lo hi).toInt : ℚ) / (divValue d : ℚ) * f64Value gSi := by
  have h : leWord lo hi ≠ 0 := fun h0 => by
    rw [h0] at hk
    exact (Nat.two_pow_pos k).ne hk
  obtain ⟨hne, hlow, hhigh⟩ := laneExact_inNormalRange d .si h
  have habs : |(laneExact (leWord lo hi) d .si).toRat| =
      (5522539043063071 : Nat) * (2 : ℚ) ^ ((k : Int) - divExponent d - 49) := by
    have hword : |((leWord lo hi).toInt : ℚ)| = 2 ^ k := by
      rw [← Int.cast_abs, Int.abs_eq_natAbs, hk]
      norm_cast
    have h2 : (2 : ℚ) ≠ 0 := two_ne_zero
    rw [laneExact_toRat, abs_mul, abs_div, hword, divValue_eq_two_pow, unitFactor, f64Value_gSi, zpow_sub₀ h2,
      zpow_sub₀ h2, zpow_natCast, zpow_natCast, Nat.cast_pow, abs_of_pos (by positivity), abs_of_pos (by positivity)]
    norm_num
    ring
  rw [decodeLane_eq_roundF64, roundF64_of_int _ hne hlow hhigh _ _ habs (by norm_num) (by norm_num), laneExact_toRat,
    unitFactor]

/-! ### R140 to R143: the decoder -/

/-- Settles O28: the word is below 2^16, and its quotient has at most 16 significant bits. -/
theorem nativeValueExact : Obligations.NativeValueExact := fun lo hi d =>
  ⟨leWord_toNat lo hi, (decodeLane_pattern lo hi d .native).left, f64Value_toF64_quotient _ d⟩

/-- Settles O29: a product in the normal range is rounded to a nearest pattern; a zero word gives zero, whose last bit
is 0. -/
theorem siValueCorrectlyRounded : Obligations.SiValueCorrectlyRounded := by
  intro lo hi d b _
  by_cases h : leWord lo hi = 0
  · rw [decodeLane_zero d .si h, h, f64Value_zero]
    simp
  · obtain ⟨hne, hlow, hhigh⟩ := laneExact_inNormalRange d .si h
    have hnear := roundF64_nearest _ hne hlow hhigh b
    rw [laneExact_toRat, unitFactor, ← decodeLane_eq_roundF64] at hnear
    exact hnear

/-- Settles O30, a part at a time: the pattern, zero, the bound, and the powers of two. -/
theorem decodedSpecialValues : Obligations.DecodedSpecialValues := by
  intro lo hi d u
  obtain ⟨hfinite, hnormal, hsign⟩ := decodeLane_pattern lo hi d u
  exact ⟨hfinite, hnormal, hsign, decodeLane_zero d u, (abs_f64Value_decodeLane_le lo hi d u).trans_lt (by norm_num),
    fun _ => f64Value_decodeLane_si_of_two_pow d⟩

/-- Settles O31: each lane is `decodeLane` of its own two bytes. -/
theorem lanesIndependent : Obligations.LanesIndependent := by
  intro b0 b1 b2 b3 b4 b5 c0 c1 c2 c3 c4 c5 d u
  have lane : ∀ {b b' c c' : Byte}, b = c → b' = c' → decodeLane b b' d u = decodeLane c c' d u :=
    fun h h' => by rw [h, h']
  exact ⟨_, _, _, _, _, _, rfl, rfl, lane, lane, lane⟩

/-! ### R145: DECODE -/

/-- Settles O32: DECODE only answers, whether its tokens are valid or not. -/
theorem decodeEffect : Obligations.DecodeEffect := fun _ _ b0 b1 b2 b3 b4 b5 s =>
  ⟨rfl, fun hg hu => exec_answer_keeps (exec_decode_valid b0 b1 b2 b3 b4 b5 s hg hu),
    fun h => exec_answer_keeps (exec_decode_invalid b0 b1 b2 b3 b4 b5 s h)⟩

end Sys2Proof.Machine

/-! SUPPORT. The soft-PWM controller (42_pwm.md): the clamp, the paths of SETDUTY and of TFIRE by what the output write
was answered, and what two of these commands in a row do. -/

namespace Sys2Proof.Machine

/-! ### R162: the clamp -/

/-- Settles O33: `clamp_stop` at the two bounds, `clamp_run` between them. -/
theorem clampValues : Obligations.ClampValues := by
  intro req
  refine ⟨fun h => ?_, fun h => ?_, fun h0 h1 => ?_⟩
  · rw [clamp_stop (.inl h), if_pos h]
  · rw [clamp_stop (.inr h), if_neg (by omega)]
  · rw [clamp_run h0 h1]
    exact ⟨Int.toNat_of_nonneg h0.le, rfl⟩

/-! ### The output write of SETDUTY and of a fire -/

@[simp] theorem State.params_dutyWrite (s : State) (d : Byte) (p : Phase) : (s.dutyWrite d p).params = s.params := by
  simp [State.dutyWrite]

@[simp] theorem State.hung_dutyWrite (s : State) (d : Byte) (p : Phase) :
    (s.dutyWrite d p).hung = (s.hung || nextWrite s == .silent) := by
  simp [State.dutyWrite]

@[simp] theorem State.trace_dutyWrite (s : State) (d : Byte) (p : Phase) : (s.dutyWrite d p).trace = s.trace ++
    (cancelEvents s ++ [.busWrite s.params.devAddr (s.params.ctrlBase + 5) [0x00] (nextWrite s)]) := by
  simp [State.dutyWrite, indAddr]

@[simp] theorem State.params_fireWrite (s : State) : s.fireWrite.params = s.params := by simp [State.fireWrite]

@[simp] theorem State.hung_fireWrite (s : State) : s.fireWrite.hung = (s.hung || nextWrite s == .silent) := by
  simp [State.fireWrite]

@[simp] theorem State.trace_fireWrite (s : State) : s.fireWrite.trace =
    s.trace ++ [.busWrite s.params.devAddr (s.params.ctrlBase + 5) [s.pwm.phase.level] (nextWrite s)] := by
  simp [State.fireWrite, indAddr]

/-- What an input that writes `v` to the indicator leaves, beside the PWM registers, the hang and the outputs, whatever
the write was answered (42_pwm.md R167). -/
structure WritesIndicator (s t : State) (v : Byte) : Prop where
  img   : t.img = s.img.write 5 v
  rmode : t.rmode = s.rmode
  cfg   : t.cfg = s.cfg
  ports : KeepsPorts s t
  draws : DrawsOne s t

theorem WritesIndicator.indicator {s t : State} {v : Byte} (h : WritesIndicator s t v) : t.img.read 5 = v := by
  rw [h.img, Memory.read_write_same]

theorem WritesIndicator.keepsImageBut {s t : State} {v : Byte} (h : WritesIndicator s t v) : KeepsImageBut 5 s t :=
  fun _ hj => by rw [h.img, Memory.read_write_other _ _ hj]

theorem WritesIndicator.dutyWrite (s : State) (d : Byte) (p : Phase) : WritesIndicator s (s.dutyWrite d p) 0x00 := by
  constructor <;> simp [State.dutyWrite, KeepsPorts, DrawsOne]

theorem WritesIndicator.fireWrite (s : State) : WritesIndicator s s.fireWrite s.pwm.phase.level := by
  constructor <;> simp [State.fireWrite, KeepsPorts, DrawsOne]

/-- Arming touches the PWM registers and the outputs only. -/
theorem WritesIndicator.armAfter {s u : State} {v : Byte} (h : WritesIndicator s u v) (a : WriteAnswer) (n : Nat) :
    WritesIndicator s ((Ended.of a u).armAfter n).state v :=
  Ended.armAfter_keeps (P := fun t => WritesIndicator s t v) h ⟨h.img, h.rmode, h.cfg, h.ports, h.draws⟩

/-- The response is an output. -/
theorem WritesIndicator.finish {s : State} {e : Ended} {v : Byte} (h : WritesIndicator s e.state v) (p : Port) :
    WritesIndicator s (e.finish p) v := by
  obtain ⟨himg, hrmode, hcfg, hports, hdraws⟩ := h
  cases e <;> exact ⟨himg, hrmode, hcfg, hports, hdraws⟩

/-! ### The three paths of SETDUTY -/

theorem State.setDutyBody_stop {s : State} {d : Byte} (h : d.toInt ≤ 0 ∨ 10 ≤ d.toInt) :
    s.setDutyBody d = Ended.of (nextWrite s) (s.dutyWrite d .off) := by
  rcases s.setDutyBody_cases d with ⟨-, e⟩ | ⟨h0, h1, -, -⟩ | ⟨h0, h1, -, -⟩
  · exact e
  · omega
  · omega

theorem State.setDutyBody_start {s : State} {d : Byte} (h0 : 0 < d.toInt) (h1 : d.toInt < 10)
    (hp : s.pwm.phase = .off) :
    s.setDutyBody d = (Ended.of (nextWrite s) (s.dutyWrite d .offPhase)).armAfter d.toInt.toNat := by
  rcases s.setDutyBody_cases d with ⟨h, -⟩ | ⟨-, -, -, e⟩ | ⟨-, -, hne, -⟩
  · omega
  · exact e
  · exact absurd hp hne

theorem State.setDutyBody_rearm {s : State} {d : Byte} (h0 : 0 < d.toInt) (h1 : d.toInt < 10)
    (hp : s.pwm.phase ≠ .off) : s.setDutyBody d = .done ((s.loadDuty d).armTimer
      (if s.pwm.phase = .onPhase then 10 - d.toInt.toNat else d.toInt.toNat)) := by
  rcases s.setDutyBody_cases d with ⟨h, -⟩ | ⟨-, -, hoff, -⟩ | ⟨-, -, -, e⟩
  · omega
  · exact absurd hoff hp
  · exact e

/-- On the stop and the start path SETDUTY writes 0x00. -/
theorem WritesIndicator.setDuty {s : State} {d : Byte} (h : dutyWrites d s) :
    WritesIndicator s ((s.setDutyBody d).finish .command) 0x00 := by
  refine WritesIndicator.finish ?_ .command
  rcases s.setDutyBody_cases d with ⟨-, e⟩ | ⟨-, -, -, e⟩ | ⟨h0, h1, hp, -⟩
  · rw [e, Ended.state_of]
    exact .dutyWrite s d .off
  · rw [e]
    exact (WritesIndicator.dutyWrite s d .offPhase).armAfter _ _
  · rcases h with h | h | h
    · omega
    · omega
    · exact absurd h hp

/-! ### Arming by the answer (R168) -/

theorem Ended.armAfter_ok (s : State) (n : Nat) : (Ended.of .ok s).armAfter n = .done (s.armTimer n) := rfl

theorem Ended.armAfter_fail_continue {s : State} (n : Nat) (h : s.params.failPolicy = .continueArming) :
    (Ended.of .fail s).armAfter n = .failed (s.armTimer n) := by
  simp [Ended.of, Ended.armAfter, h]

theorem Ended.armAfter_fail_halt {s : State} (n : Nat) (h : s.params.failPolicy = .halt) :
    (Ended.of .fail s).armAfter n = .failed s := by
  simp [Ended.of, Ended.armAfter, h]

/-- Arming hangs nothing. -/
theorem Ended.hung_armAfter_of (a : WriteAnswer) (s : State) (n : Nat) :
    ((Ended.of a s).armAfter n).state.hung = s.hung :=
  Ended.armAfter_keeps (P := fun t => t.hung = s.hung) rfl rfl

@[simp] theorem Ended.hung_finish (e : Ended) (p : Port) : (e.finish p).hung = e.state.hung := by cases e <;> rfl

/-! ### R166: SETDUTY -/

/-- Settles O34: the stop path is one output write with the timer cancelled, and its answer is the input's end. -/
theorem setDutyStops : Obligations.SetDutyStops := by
  intro d s hp hd
  have hw := WritesIndicator.setDuty (s := s) (d := d) (by unfold dutyWrites; omega)
  refine ⟨_, exec_setDuty_hasPwm d hp, ?_, hw.indicator, hw.keepsImageBut, hw.rmode, hw.cfg, hw.ports, hw.draws, ?_⟩
  · simp [State.setDutyBody_stop hd, clamp_stop hd]
  · rw [State.setDutyBody_stop hd]
    exact ⟨fun hok => by simp [hok, Ended.of, Outputs], fun hfail => by simp [hfail, Ended.of, Outputs, State.raise],
      fun hsilent => by simp [hsilent, Ended.of, Outputs]⟩

/-- Settles O35: the start path is the output write and, after `Ok`, the arm. -/
theorem setDutyStarts : Obligations.SetDutyStarts := by
  intro d s hp h0 h1 hoff hok
  have hw := WritesIndicator.setDuty (s := s) (d := d) (.inr (.inr hoff))
  have body : s.setDutyBody d = .done ((s.dutyWrite d .offPhase).armTimer d.toInt.toNat) := by
    rw [State.setDutyBody_start h0 h1 hoff, hok, Ended.armAfter_ok]
  refine ⟨_, exec_setDuty_hasPwm d hp, ?_, hw.indicator, hw.keepsImageBut, hw.rmode, hw.cfg, hw.ports, hw.draws, ?_⟩
  · simp [body, clamp_run h0 h1]
  · simp [body, hok, Outputs]

/-- Settles O36: the running path cancels and arms, and draws no answer. -/
theorem setDutyRearms : Obligations.SetDutyRearms := by
  intro d s hp h0 h1 hrun
  refine ⟨_, exec_setDuty_hasPwm d hp, ?_⟩
  simp [State.setDutyBody_rearm h0 h1 hrun, clamp_run h0 h1, KeepsOutside, Outputs]

/-! ### R171, R172: TFIRE -/

/-- A fire that is not of the armed handle is answered, and no more. -/
theorem exec_tfire_stale {h : Byte} {s : State} (hp : s.params.hasPwm = true)
    (hs : s.pwm.armed = false ∨ h ≠ s.pwm.handle) : exec (.tfire h) s = .next (s.respond .timer .ignored .none) := by
  have hno : (s.pwm.armed && h == s.pwm.handle) = false := by
    rcases hs with hs | hs <;> simp [hs]
  simp only [exec, execTfire, hp, hno, if_true, Bool.false_eq_true, if_false]

/-- Settles O38: the response is the whole of a stale fire. -/
theorem staleFireIgnored : Obligations.StaleFireIgnored := fun _ _ hp hs =>
  exec_answer_keeps (exec_tfire_stale hp hs)

theorem State.fireBody_stopped {s : State} (h : s.pwm.stop = true) :
    s.fireBody = Ended.of (nextWrite s) s.fireWrite := by
  rw [State.fireBody_eq, if_pos h]

theorem State.fireBody_running {s : State} (h : s.pwm.stop = false) : s.fireBody =
    (Ended.of (nextWrite s) s.fireWrite).armAfter
      (if s.pwm.phase = .onPhase then s.pwm.duty else 10 - s.pwm.duty) := by
  rw [State.fireBody_eq, h, if_neg Bool.false_ne_true]

/-- An accepted fire writes the level of the phase it enters, stopped or not. -/
theorem WritesIndicator.fire (s : State) : WritesIndicator s (s.fireBody.finish .timer) s.pwm.phase.level := by
  have hw := WritesIndicator.fireWrite s
  refine WritesIndicator.finish ?_ .timer
  cases h : s.pwm.stop
  · rw [State.fireBody_running h]
    exact hw.armAfter _ _
  · rwa [State.fireBody_stopped h, Ended.state_of]

/-- Settles O37: after `Ok` a running fire arms the period of the phase it enters. -/
theorem fireTogglesAndRearms : Obligations.FireTogglesAndRearms := by
  intro s hp ha hstop _ hok
  have hw := WritesIndicator.fire s
  have body := State.fireBody_running hstop
  rw [hok, Ended.armAfter_ok] at body
  refine ⟨_, exec_tfire_armed hp ha, ?_, hw.indicator, hw.keepsImageBut, hw.rmode, hw.cfg, hw.ports, hw.draws, ?_⟩
  · simp [body, ha, Phase.toggled]
  · simp [body, hok, Outputs, Phase.level]

/-- Settles O39: with the stop flag set a fire is its output write. -/
theorem stoppedFireDoesNotArm : Obligations.StoppedFireDoesNotArm := by
  intro s hp ha hstop hok
  have hw := WritesIndicator.fire s
  have body : s.fireBody = .done s.fireWrite := by rw [State.fireBody_stopped hstop, hok, Ended.of]
  refine ⟨_, exec_tfire_armed hp ha, ?_, hw.indicator, hw.keepsImageBut, hw.rmode, hw.cfg, hw.ports, hw.draws, ?_⟩
  · simp [body, Phase.toggled]
  · simp [body, hok, Outputs, Phase.level]

/-! ### R168: the fail policy -/

/-- Settles O40: both commands end as at their failed write, with the arm under `Continue` and without it under
`Halt`. -/
theorem failPolicyDecidesArming : Obligations.FailPolicyDecidesArming := by
  intro s hp hfail
  refine ⟨fun d h0 h1 hoff => ?_, fun ha hstop _ => ?_⟩
  · have hw := WritesIndicator.setDuty (s := s) (d := d) (.inr (.inr hoff))
    have body := State.setDutyBody_start h0 h1 hoff
    rw [hfail] at body
    refine ⟨_, exec_setDuty_hasPwm d hp, hw.indicator, hw.keepsImageBut, hw.rmode, hw.cfg, hw.ports, hw.draws, ?_,
      fun hc => ?_, fun hh => ?_⟩ <;> rw [body]
    · simp [Ended.hung_armAfter_of, hfail]
    · rw [Ended.armAfter_fail_continue _ (by simpa using hc)]
      simp [clamp_run h0 h1, hfail, Outputs, State.raise]
    · rw [Ended.armAfter_fail_halt _ (by simpa using hh)]
      simp [clamp_run h0 h1, hfail, Outputs, State.raise]
  · have hw := WritesIndicator.fire s
    have body := State.fireBody_running hstop
    rw [hfail] at body
    refine ⟨_, exec_tfire_armed hp ha, hw.indicator, hw.keepsImageBut, hw.rmode, hw.cfg, hw.ports, hw.draws, ?_,
      fun hc => ?_, fun hh => ?_⟩ <;> rw [body]
    · simp [Ended.hung_armAfter_of, hfail]
    · rw [Ended.armAfter_fail_continue _ (by simpa using hc)]
      simp [ha, hfail, Outputs, State.raise, Phase.toggled, Phase.level]
    · rw [Ended.armAfter_fail_halt _ (by simpa using hh)]
      simp [hfail, Outputs, State.raise, Phase.toggled, Phase.level]

/-! ### R169: the waveform -/

theorem execAll_pair {i j : Instr} {s t u : State} (hi : exec i s = .next t) (hj : exec j t = .next u) :
    execAll [i, j] s = .next u := by
  simp [execAll, hi, hj]

/-- The answer a write gets after one draw. -/
theorem DrawsOne.nextWrite {s t : State} (h : DrawsOne s t) : nextWrite t = nextWrite s.drawn :=
  nextWrite_congr h.left h.right

/-- Settles O42: the second fire finds the handle, the duty and the phase the first one left. -/
theorem waveformPeriods : Obligations.WaveformPeriods := by
  intro s hinv hp ha hoff hok hok'
  obtain ⟨hstop, hphase⟩ := hinv.armed_running ha
  have hduty := hinv.running_duty hstop
  obtain ⟨t, hst, hpwm, -, -, -, -, hports, hdraws, -, hout⟩ := fireTogglesAndRearms s hp ha hstop hphase hok
  obtain ⟨u, htu, hpwm', -, -, -, -, -, -, -, hout'⟩ := fireTogglesAndRearms t (by rw [hports.left, hp])
    (by simp [hpwm, ha]) (by simp [hpwm, hstop]) (by simp [hpwm, hoff]) (hdraws.nextWrite.trans hok')
  have hhandle : t.pwm.handle = s.pwm.next := by rw [hpwm]
  refine ⟨u, execAll_pair hst (hhandle ▸ htu), ?_, ?_, by omega, by omega, hduty.left, ?_⟩
  · simp [hpwm', hpwm, hoff]
  · simp [hpwm', hpwm]
  · unfold Outputs at hout hout' ⊢
    rw [hout', hout]
    simp [hpwm, hoff, hports.left]

/-! ### R173: SETDUTY twice -/

theorem TimerInv.exec_setDuty {s t : State} {d : Byte} (h : TimerInv s) (e : exec (.setDuty d) s = .next t) :
    TimerInv t :=
  TimerInv.pwmPathInvariant.exec e h nofun

theorem TimerInv.outstanding_of_disarmed {s : State} (h : TimerInv s) (ha : s.pwm.armed = false) :
    outstanding s.trace = [] := by
  simpa [TimerInv, ha] using h

/-- From any phase a request of 1 to 9 whose write, if any, is answered `Ok` leaves the controller running. -/
theorem exec_setDuty_runs {s : State} {d : Byte} (hp : s.params.hasPwm = true) (h0 : 0 < d.toInt) (h1 : d.toInt < 10)
    (hok : nextWrite s = .ok) : ∃ t, exec (.setDuty d) s = .next t ∧ t.params = s.params ∧ t.pwm.phase ≠ .off := by
  by_cases hoff : s.pwm.phase = .off
  · obtain ⟨t, hst, hpwm, -, -, -, -, hports, -⟩ := setDutyStarts d s hp h0 h1 hoff hok
    exact ⟨t, hst, hports.left, by simp [hpwm]⟩
  · obtain ⟨t, hst, hpwm, -, -, -, hkeeps, -⟩ := setDutyRearms d s hp h0 h1 hoff
    exact ⟨t, hst, hkeeps.left, by simp [hpwm, hoff]⟩

/-- Settles O43: SETDUTY keeps `TimerInv`, so nothing is outstanding where it stopped the controller, and the armed
handle where it runs. -/
theorem dutyTwiceArmsOneTimer : Obligations.DutyTwiceArmsOneTimer := by
  intro s hp hinv hok hok'
  refine ⟨?_, ?_, ?_⟩
  · obtain ⟨t, hst, hpwm, -, -, -, -, hports, hdraws, -⟩ := setDutyStops 0 s hp (by decide)
    have harmed : t.pwm.armed = false := by rw [hpwm]
    have hokt : nextWrite t = .ok := hdraws.nextWrite.trans hok'
    obtain ⟨u, htu, hpwm', -, -, -, -, -, -, hend, -⟩ := setDutyStops 0 t (by rw [hports.left, hp]) (by decide)
    refine ⟨t, u, hst, by rw [hpwm], harmed, (hinv.exec_setDuty hst).outstanding_of_disarmed harmed, htu, ?_, ?_⟩
    · simp [hpwm', hpwm]
    · simpa [cancelEvents, harmed, hports.left] using (hend hokt).right
  · obtain ⟨t, hst, hpwm, -⟩ := setDutyStops 10 s hp (by decide)
    have harmed : t.pwm.armed = false := by rw [hpwm]
    exact ⟨t, hst, by rw [hpwm], harmed, by simp [hpwm],
      (hinv.exec_setDuty hst).outstanding_of_disarmed harmed⟩
  · obtain ⟨t, hst, hparams, hrun⟩ := exec_setDuty_runs (d := 5) hp (by decide) (by decide) hok
    obtain ⟨u, htu, hpwm, -, -, -, -, hout⟩ := setDutyRearms 5 t (by rw [hparams, hp]) (by decide) (by decide) hrun
    have harmed : u.pwm.armed = true := by rw [hpwm]
    have hinvu : TimerInv u := (hinv.exec_setDuty hst).exec_setDuty htu
    refine ⟨u, execAll_pair hst htu, ?_, by simpa [TimerInv, harmed] using hinvu⟩
    exact lastStatus_of_trace (hout.trans (by rw [← List.append_assoc, List.append_cons]))

end Sys2Proof.Machine

/-! SUPPORT. The driver (43_driver.md): READ and IDENTIFY by what the read was answered, and CONFIGURE by its first
failing check, by what its writes were answered, and twice in a row. -/

namespace Sys2Proof.Machine

/-! ### R204 to R208: READ and IDENTIFY -/

/-- Where the bytes of an `Ok` answer only make a response, a read leaves every register and draws one answer. -/
theorem busRead_keeps {k : List Byte → State → State} (s : State) (reg : Byte) (n : Nat)
    (hk : ∀ bytes t, ∃ st d, k bytes t = t.respond .command st d) :
    KeepsRegisters s (s.busRead reg n k) ∧ KeepsPorts s (s.busRead reg n k) ∧ DrawsOne s (s.busRead reg n k) := by
  rcases s.busRead_cases reg n k with ⟨bytes, -, e⟩ | ⟨-, e⟩ | ⟨-, e⟩ <;> rw [e]
  · obtain ⟨st, d, hr⟩ := hk bytes (s.drawn.emit (.busRead s.params.devAddr reg n (.ok bytes)))
    rw [hr]
    simp [KeepsRegisters, KeepsPorts, DrawsOne]
  · simp [KeepsRegisters, KeepsPorts, DrawsOne]
  · simp [KeepsRegisters, KeepsPorts, DrawsOne]

/-- A read answered `Ok` ends with the response its bytes make. -/
theorem busRead_ok {k : List Byte → State → State} {s : State} {bytes : List Byte} {st : Status} {d : RespData}
    (reg : Byte) (n : Nat) (h : s.nextAnswer = .ok bytes) (hk : ∀ t, k bytes t = t.respond .command st d) :
    (s.busRead reg n k).hung = s.hung ∧ Outputs s (s.busRead reg n k)
      [.busRead s.params.devAddr reg n s.nextAnswer, .respond .command st d] := by
  simp [State.busRead, h, hk, Outputs]

/-- A read answered `Fail` ends with `TransportFailure`, whatever the command meant to do with the bytes. -/
theorem busRead_fail {s : State} (reg : Byte) (n : Nat) (k : List Byte → State → State) (h : s.nextAnswer = .fail) :
    (s.busRead reg n k).hung = s.hung ∧ Outputs s (s.busRead reg n k)
      [.busRead s.params.devAddr reg n s.nextAnswer, .respond .command .transportFailure .none] := by
  simp [State.busRead, h, Outputs]

/-- R146: only six bytes are samples. -/
theorem decodeSamples_of_length_ne {bytes : List Byte} (d : Divisor) (u : OutUnit) (h : bytes.length ≠ 6) :
    decodeSamples bytes d u = .error .invalidInput := by
  unfold decodeSamples
  split
  · exact absurd rfl h
  · rfl

theorem State.respondSamples_eq_respond (s : State) (r : Except Status (F64 × F64 × F64)) :
    ∃ st d, s.respondSamples r = s.respond .command st d := by
  rcases r with e | ⟨x, y, z⟩
  · exact ⟨e, .none, rfl⟩
  · exact ⟨.ok, .samples x y z, rfl⟩

/-- R206: only one byte is an identity. -/
theorem State.respondId_of_length_ne {bytes : List Byte} (s : State) (h : bytes.length ≠ 1) :
    s.respondId bytes = s.respond .command .invalidInput .none := by
  unfold State.respondId
  split
  · exact absurd rfl h
  · rfl

theorem State.respondId_eq_respond (s : State) (bytes : List Byte) :
    ∃ st d, s.respondId bytes = s.respond .command st d := by
  by_cases h : bytes.length = 1
  · obtain ⟨b, rfl⟩ := List.length_eq_one_iff.mp h
    exact ⟨.ok, .id b, rfl⟩
  · exact ⟨_, _, s.respondId_of_length_ne h⟩

/-- READ before the first successful CONFIGURE (43_driver.md R204). -/
theorem exec_read_notConfigured {s : State} (h : s.cfg = none) :
    exec .read s = .next (s.respond .command .notConfigured .none) := by
  simp only [exec, execRead, h, State.raise]

/-- Settles O50: without `CFG` READ only answers; with it READ is one read whose bytes make the response. -/
theorem readEffect : Obligations.ReadEffect := by
  refine fun s => ⟨rfl, fun hc => exec_answer_keeps (exec_read_notConfigured hc), fun c hc => ?_⟩
  obtain ⟨hregs, hports, hdraws⟩ := busRead_keeps s s.params.dataAddr 6
    (k := fun bytes t => t.respondSamples (decodeSamples bytes c.div c.unit))
    fun bytes t => t.respondSamples_eq_respond _
  refine ⟨_, exec_read_configured hc, hregs, hports, hdraws, fun b0 b1 b2 b3 b4 b5 h => ?_, fun bytes h hlen => ?_,
    fun h => busRead_fail _ _ _ h⟩
  · exact busRead_ok _ _ h fun t => rfl
  · exact busRead_ok _ _ h fun t => by rw [decodeSamples_of_length_ne _ _ hlen]; rfl

/-- Settles O51: IDENTIFY is one read, and any one byte is its answer. -/
theorem identifyEffect : Obligations.IdentifyEffect := by
  intro s
  obtain ⟨hregs, hports, hdraws⟩ := busRead_keeps s s.params.idAddr 1 (k := fun bytes t => t.respondId bytes)
    fun bytes t => t.respondId_eq_respond bytes
  exact ⟨rfl, _, rfl, hregs, hports, hdraws, fun b h => busRead_ok _ _ h fun t => rfl,
    fun bytes h hlen => busRead_ok _ _ h fun t => t.respondId_of_length_ne hlen, fun h => busRead_fail _ _ _ h⟩

/-! ### R201: a rejected CONFIGURE -/

/-- Settles O45: the first failing check gives the status of the response, which is all CONFIGURE does. -/
theorem configureRejects : Obligations.ConfigureRejects :=
  fun _ _ _ _ _ d s _ h => exec_answer_keeps (exec_configure_error d s h)

/-! ### R200: the ends of a valid CONFIGURE -/

theorem validatedImage_encodes_of_valid {a m r g u : Byte} (w : Memory) (h : ConfigureValid a m r g u) :
    EncodesConfig w (validatedImage w a m r g) a m r g := by
  obtain ⟨ha, hm, hr, -, hg, -⟩ := h
  exact validatedImage_encodes w ha hm hr hg

/-- What CONFIGURE keeps of its commit of `w` and `m` in every state it passes, as long as it does not hang: only the
indicator byte, the PWM registers, `CFG`, the draws and the outputs may change. -/
structure KeepsCommit (w : Memory) (m : Mode) (s t : State) : Prop where
  img   : t.img = w.write 5 0x00 ∨ t.img = w
  rmode : t.rmode = some m
  ports : KeepsPorts s t
  hung  : t.hung = s.hung

/-- The duty step keeps the commit and `CFG`, whether its write succeeded or failed. -/
theorem KeepsCommit.dutyStep {w : Memory} {m : Mode} {s v : State} {d : Byte}
    (h : (s.committed w m).dutyStep d = .done v ∨ (s.committed w m).dutyStep d = .failed v) :
    KeepsCommit w m s v ∧ v.cfg = s.cfg := by
  have himg := dutyStep_img (s.committed w m) d
  have hframe := dutyStep_frame (s.committed w m) d
  have hreq := RequestsOnly.dutyStep (s.committed w m) d
  rcases h with h | h <;> rw [h] at himg hframe hreq <;> obtain ⟨hmode, hcfg, hports⟩ := hframe
  · obtain ⟨_, -, -, hhung⟩ := hreq
    exact ⟨⟨himg, hmode, hports, hhung⟩, hcfg⟩
  · obtain ⟨_, -, -, hhung, -⟩ := hreq
    exact ⟨⟨himg, hmode, hports, hhung⟩, hcfg⟩

/-- A write that is answered keeps the commit. -/
theorem KeepsCommit.wrote {w : Memory} {m : Mode} {s v : State} (h : KeepsCommit w m s v) (reg : Byte)
    (bytes : List Byte) {x : WriteAnswer} (hx : x ≠ .silent) : KeepsCommit w m s (v.wrote reg bytes x) where
  img := by simpa using h.img
  rmode := by simpa using h.rmode
  ports := h.ports.wrote reg bytes x
  hung := by rw [State.hung_wrote, h.hung, beq_false_of_ne hx, Bool.or_false]

/-- Neither `CFG` nor the outputs are part of the commit. -/
theorem KeepsCommit.recorded {w : Memory} {m : Mode} {s v : State} (h : KeepsCommit w m s v) (c : Option ReadCfg)
    (es : List Event) : KeepsCommit w m s { v with cfg := c, trace := es } :=
  ⟨h.img, h.rmode, h.ports, h.hung⟩

theorem KeepsCommit.encodes {w : Memory} {x : Mode} {s t : State} {v : Memory} {a m r g : Byte}
    (h : KeepsCommit w x s t) (hw : EncodesConfig v w a m r g) : EncodesConfig v t.img a m r g :=
  hw.of_write5 h.img

/-- `v` after CONFIGURE's block write was answered `Ok`: `CFG` is recorded and the input answered (43_driver.md R200). -/
def State.configureOk (v : State) (c : ReadCfg) : State :=
  { v.wrote v.params.ctrlBase v.img.payload .ok with cfg := some c }.respond .command .ok .none

@[simp] theorem State.img_configureOk (v : State) (c : ReadCfg) : (v.configureOk c).img = v.img := by
  simp [State.configureOk]
@[simp] theorem State.rmode_configureOk (v : State) (c : ReadCfg) : (v.configureOk c).rmode = v.rmode := by
  simp [State.configureOk]
@[simp] theorem State.pwm_configureOk (v : State) (c : ReadCfg) : (v.configureOk c).pwm = v.pwm := by
  simp [State.configureOk]
@[simp] theorem State.params_configureOk (v : State) (c : ReadCfg) : (v.configureOk c).params = v.params := by
  simp [State.configureOk]
@[simp] theorem State.trace_configureOk (v : State) (c : ReadCfg) : (v.configureOk c).trace = v.trace ++
    [.busWrite v.params.devAddr v.params.ctrlBase v.img.payload .ok, .respond .command .ok .none] := by
  simp [State.configureOk]

/-- `v` after CONFIGURE's block write failed (43_driver.md R200, 60_exceptions.md R232). -/
def State.configureFail (v : State) : State :=
  (v.wrote v.params.ctrlBase v.img.payload .fail).raise .command .transportFailure

section
variable {a m r g u d : Byte} {s v : State} (hv : ConfigureValid a m r g u)
include hv

theorem exec_configure_ok
    (h : (s.committed (validatedImage s.img a m r g) (tokenMode m)).dutyStep d = .done v) (hn : nextWrite v = .ok) :
    exec (.configure a m r g u d) s = .next (v.configureOk ⟨tokenDivisor g, tokenUnit u⟩) := by
  rw [exec_configure_valid d s hv, h, Ended.andThen_done, State.writeControlBlock, State.busWrite_eq, hn]
  rfl

theorem exec_configure_blockFail
    (h : (s.committed (validatedImage s.img a m r g) (tokenMode m)).dutyStep d = .done v) (hn : nextWrite v = .fail) :
    exec (.configure a m r g u d) s = .next v.configureFail := by
  rw [exec_configure_valid d s hv, h, Ended.andThen_done, State.writeControlBlock, State.busWrite_eq, hn]
  rfl

/-- Where the duty step fails, the block write is not issued. -/
theorem exec_configure_dutyFail
    (h : (s.committed (validatedImage s.img a m r g) (tokenMode m)).dutyStep d = .failed v) :
    exec (.configure a m r g u d) s = .next (v.raise .command .transportFailure) := by
  rw [exec_configure_valid d s hv, h]
  rfl

end

/-- A CONFIGURE answered `OK` was valid, its duty step ran through, and its block write was answered `Ok`. -/
theorem configureOk_of_lastStatus {a m r g u d : Byte} {s t : State} (h : exec (.configure a m r g u d) s = .next t)
    (hl : lastStatus t = some .ok) : ConfigureValid a m r g u ∧
      ∃ v, (s.committed (validatedImage s.img a m r g) (tokenMode m)).dutyStep d = .done v ∧ nextWrite v = .ok ∧
        t = v.configureOk ⟨tokenDivisor g, tokenUnit u⟩ := by
  rcases configure_valid_or_error a m r g u with hv | ⟨e, he⟩
  · refine ⟨hv, ?_⟩
    rw [exec_configure_configured d s hv] at h
    cases h
    have hreq := RequestsOnly.configureTail (s.committed (validatedImage s.img a m r g) (tokenMode m)) d
      ⟨tokenDivisor g, tokenUnit u⟩
    obtain ⟨-, x, hx⟩ | ⟨hst, -⟩ := hreq.lastStatus_finish .command hl
    · rcases configureTail_cases (s.committed (validatedImage s.img a m r g) (tokenMode m)) d
        ⟨tokenDivisor g, tokenUnit u⟩ with ⟨e, hne⟩ | ⟨v, hduty, ⟨hn, e⟩ | ⟨-, e⟩ | ⟨-, e⟩⟩
      · exact absurd (e.symm.trans hx) (hne x)
      · exact ⟨v, hduty, hn, by rw [State.configured, e]; rfl⟩
      · cases e.symm.trans hx
      · cases e.symm.trans hx
    · cases hst
  · rw [exec_configure_error d s he] at h
    cases h
    have hst : e = .ok := by simpa [lastStatus] using hl
    rcases he.status with rfl | rfl <;> cases hst

/-! ### The duty step -/

theorem dutyStep_hasPwm {s : State} (d : Byte) (h : s.params.hasPwm = true) : s.dutyStep d = s.setDutyBody d := if_pos h

theorem dutyStep_noPwm {s : State} (d : Byte) (h : s.params.hasPwm = false) : s.dutyStep d = .done s :=
  if_neg (by simp [h])

theorem Ended.of_eq_done_iff {a : WriteAnswer} {s v : State} : Ended.of a s = .done v ↔ a = .ok ∧ v = s := by
  cases a <;> simp [Ended.of, eq_comm]

theorem Ended.armAfter_of_eq_done_iff {a : WriteAnswer} {s v : State} {n : Nat} :
    (Ended.of a s).armAfter n = .done v ↔ a = .ok ∧ v = s.armTimer n := by
  rcases Ended.armAfter_of a s n with ⟨rfl, h⟩ | ⟨rfl, -, h⟩ | ⟨rfl, -, h⟩ | ⟨rfl, h⟩ <;> simp [h, eq_comm]

/-- Where its writes succeed, CONFIGURE's duty step runs through and the block write succeeds after it. -/
theorem ConfigureWritesOk.dutyStep_done {d : Byte} {s : State} (h : ConfigureWritesOk d s) :
    ∃ v, s.dutyStep d = .done v ∧ nextWrite v = .ok := by
  obtain ⟨hok, hok'⟩ := h
  cases hp : s.params.hasPwm with
  | false => exact ⟨s, dutyStep_noPwm d hp, hok⟩
  | true =>
    have hnext (p : Phase) (hw : dutyWrites d s) : nextWrite (s.dutyWrite d p) = .ok :=
      (WritesIndicator.dutyWrite s d p).draws.nextWrite.trans (hok' hp hw)
    rw [dutyStep_hasPwm d hp]
    rcases s.setDutyBody_cases d with ⟨hd, e⟩ | ⟨-, -, hoff, e⟩ | ⟨-, -, -, e⟩ <;> rw [e]
    · exact ⟨_, Ended.of_eq_done_iff.mpr ⟨hok, rfl⟩, hnext .off (by unfold dutyWrites; omega)⟩
    · exact ⟨_, Ended.armAfter_of_eq_done_iff.mpr ⟨hok, rfl⟩, hnext .offPhase (.inr (.inr hoff))⟩
    · exact ⟨_, rfl, (nextWrite_loadDuty s d).trans hok⟩

/-- Settles O44: after the duty step the block write leaves the commit, and `CFG` is recorded. -/
theorem configureSucceeds : Obligations.ConfigureSucceeds := by
  intro a m r g u d s hv
  have henc := validatedImage_encodes_of_valid s.img hv
  refine ⟨rfl, validatedImage s.img a m r g, henc, validatedImage_read s.img (by decide) (by decide),
    fun hp => ⟨dutyStep_hasPwm d hp, exec_setDuty_hasPwm d hp⟩, fun hp => dutyStep_noPwm d hp, fun hok => ?_,
    fun v hduty hn => ?_⟩
  · exact ConfigureWritesOk.dutyStep_done (by simpa [ConfigureWritesOk, dutyWrites] using hok)
  · obtain ⟨hcommit, -⟩ := KeepsCommit.dutyStep (.inl hduty)
    have hend : KeepsCommit _ _ s (v.configureOk ⟨tokenDivisor g, tokenUnit u⟩) :=
      (hcommit.wrote v.params.ctrlBase v.img.payload (by decide)).recorded _ _
    refine ⟨_, exec_configure_ok hv hduty hn, hend.encodes henc, by simp, by simp, hend.rmode, rfl, hend.ports, ?_,
      hend.hung, ?_⟩
    · simp [State.configureOk, DrawsOne]
    · simp [Memory.payload, hcommit.ports.left]

/-- Settles O46: the commit and `CFG` stay as at the write that failed. -/
theorem configureTransportFailure : Obligations.ConfigureTransportFailure := by
  intro a m r g u d s hv
  have henc := validatedImage_encodes_of_valid s.img hv
  refine ⟨validatedImage s.img a m r g, henc, validatedImage_read s.img (by decide) (by decide), fun v hduty => ?_,
    fun v hduty hn => ?_⟩
  · obtain ⟨hcommit, hcfg⟩ := KeepsCommit.dutyStep (.inr hduty)
    exact ⟨_, exec_configure_dutyFail hv hduty, hcommit.encodes henc, rfl, rfl, hcommit.rmode, hcfg, hcommit.ports,
      ⟨rfl, rfl⟩, hcommit.hung, rfl⟩
  · obtain ⟨hcommit, hcfg⟩ := KeepsCommit.dutyStep (.inl hduty)
    have hend : KeepsCommit _ _ s v.configureFail :=
      (hcommit.wrote v.params.ctrlBase v.img.payload (by decide)).recorded _ _
    refine ⟨_, exec_configure_blockFail hv hduty hn, hend.encodes henc, ?_, ?_, hend.rmode, ?_, hend.ports, ?_,
      hend.hung, ?_⟩
    · simp [State.configureFail]
    · simp [State.configureFail]
    · simpa [State.configureFail] using hcfg
    · simp [State.configureFail, DrawsOne]
    · simp [State.configureFail, hcommit.ports.left]

/-! ### R203: CONFIGURE twice -/

/-- The phase a duty step that ran through leaves (42_pwm.md R166). -/
def dutyPhase (d : Byte) (p : Phase) : Phase :=
  if d.toInt ≤ 0 ∨ 10 ≤ d.toInt then .off else if p = .off then .offPhase else p

theorem dutyPhase_idem (d : Byte) (p : Phase) : dutyPhase d (dutyPhase d p) = dutyPhase d p := by
  unfold dutyPhase
  split_ifs <;> simp_all

/-- What a duty step that ran through leaves of the phase, the duty and the image. -/
structure DutyStepDone (d : Byte) (s v : State) : Prop where
  phase   : v.pwm.phase = if s.params.hasPwm then dutyPhase d s.pwm.phase else s.pwm.phase
  duty    : v.pwm.duty = if s.params.hasPwm then (clamp d.toInt).1 else s.pwm.duty
  written : s.params.hasPwm = true → dutyWrites d s → v.img = s.img.write 5 0x00
  kept    : ¬ (s.params.hasPwm = true ∧ dutyWrites d s) → v.img = s.img

theorem DutyStepDone.of_dutyStep {d : Byte} {s v : State} (h : s.dutyStep d = .done v) : DutyStepDone d s v := by
  cases hp : s.params.hasPwm with
  | false =>
    rw [dutyStep_noPwm d hp] at h
    cases h
    constructor <;> simp [hp]
  | true =>
    rw [dutyStep_hasPwm d hp] at h
    rcases s.setDutyBody_cases d with ⟨hd, e⟩ | ⟨h0, h1, hoff, e⟩ | ⟨h0, h1, hrun, e⟩ <;> rw [e] at h
    · obtain ⟨-, rfl⟩ := Ended.of_eq_done_iff.mp h
      have hw : dutyWrites d s := by unfold dutyWrites; omega
      exact ⟨by simp [hp, dutyPhase, hd], by simp [hp], by simp, fun hn => absurd ⟨hp, hw⟩ hn⟩
    · obtain ⟨-, rfl⟩ := Ended.armAfter_of_eq_done_iff.mp h
      have hd : ¬ (d.toInt ≤ 0 ∨ 10 ≤ d.toInt) := by omega
      exact ⟨by simp [hp, dutyPhase, hd, hoff], by simp [hp], by simp, fun hn => absurd ⟨hp, .inr (.inr hoff)⟩ hn⟩
    · cases h
      have hd : ¬ (d.toInt ≤ 0 ∨ 10 ≤ d.toInt) := by omega
      have hw : ¬ dutyWrites d s := by unfold dutyWrites; simp only [hrun, or_false]; omega
      exact ⟨by simp [hp, dutyPhase, hd, hrun], by simp [hp], fun _ h => absurd h hw, by simp⟩

/-- A duty step that writes after another of the same operand had that one write too. -/
theorem dutyWrites_of_dutyPhase {d : Byte} {s t : State} (ht : t.pwm.phase = dutyPhase d s.pwm.phase)
    (h : dutyWrites d t) : dutyWrites d s := by
  unfold dutyWrites at h ⊢
  by_cases hd : d.toInt ≤ 0 ∨ 10 ≤ d.toInt
  · exact hd.elim .inl fun hd => .inr (.inl hd)
  · rw [ht, dutyPhase, if_neg hd] at h
    split at h <;> simp_all

theorem Memory.write_of_read {w : Memory} {i : Nat} {b : Byte} (hw : w.wf = true) (hi : i < imgSize)
    (h : w.read i = b) : w.write i b = w := by
  refine Memory.eq_of_read (Memory.wf_write b hw hi) hw fun j => ?_
  rw [Memory.read_write]
  split
  · simp [*]
  · rfl

/-- An image that holds the operands is encoded to itself. -/
theorem validatedImage_of_encodes {a m r g u : Byte} {v w : Memory} (hw : w.wf = true)
    (hv : ConfigureValid a m r g u) (h : EncodesConfig v w a m r g) : validatedImage w a m r g = w := by
  obtain ⟨haxes, hlp, hrate, hrange, hhr, -⟩ := h
  obtain ⟨haxes', hlp', hrate', hrange', hhr', hlow, hhigh, -⟩ := validatedImage_encodes_of_valid w hv
  refine Memory.eq_of_read (wf_validatedImage a m r g hw) hw fun j => ?_
  by_cases h0 : j = 0
  · subst h0
    exact byte_eq_of_fields0 (haxes'.trans haxes.symm) (hlp'.trans hlp.symm) (hrate'.trans hrate.symm)
  by_cases h3 : j = 3
  · subst h3
    exact byte_eq_of_fields3 hlow (hhr'.trans hhr.symm) (hrange'.trans hrange.symm) hhigh
  exact validatedImage_read w h0 h3

/-- A duty step that runs through after another of the same operand changes neither the image nor the phase nor the
duty. -/
theorem DutyStepDone.again {d : Byte} {s v t v' : State} (h : DutyStepDone d s v) (h' : DutyStepDone d t v')
    (hparams : t.params = s.params) (hpwm : t.pwm = v.pwm) (himg : t.img = v.img) (hwf : v.img.wf = true) :
    v'.img = v.img ∧ v'.pwm.phase = v.pwm.phase ∧ v'.pwm.duty = v.pwm.duty := by
  refine ⟨?_, ?_, ?_⟩
  · by_cases hw : t.params.hasPwm = true ∧ dutyWrites d t
    · obtain ⟨hp, hw⟩ := hw
      have hp' : s.params.hasPwm = true := hparams ▸ hp
      have hphase : t.pwm.phase = dutyPhase d s.pwm.phase := by rw [hpwm, h.phase, if_pos hp']
      have hlow : v.img.read 5 = 0x00 := by
        rw [h.written hp' (dutyWrites_of_dutyPhase hphase hw), Memory.read_write_same]
      rw [h'.written hp hw, himg, Memory.write_of_read hwf (by decide) hlow]
    · rw [h'.kept hw, himg]
  · rw [h'.phase, hparams, hpwm, h.phase]
    split
    · exact dutyPhase_idem d _
    · rfl
  · rw [h'.duty, hparams, hpwm, h.duty]
    split <;> rfl

/-- Settles O48: the second CONFIGURE encodes the image to itself, and its duty step writes only what the first one's
wrote. -/
theorem configureIdempotent : Obligations.ConfigureIdempotent := by
  intro a m r g u d s t t' hwf ht hokt ht' hokt'
  obtain ⟨hv, v, hduty, -, rfl⟩ := configureOk_of_lastStatus ht hokt
  obtain ⟨-, v', hduty', -, rfl⟩ := configureOk_of_lastStatus ht' hokt'
  obtain ⟨hcommit, -⟩ := KeepsCommit.dutyStep (.inl hduty)
  obtain ⟨hcommit', -⟩ := KeepsCommit.dutyStep (.inl hduty')
  have hwfv : v.img.wf = true := Memory.wf_of_write5 hcommit.img (wf_validatedImage a m r g hwf)
  have hfix : validatedImage v.img a m r g = v.img :=
    validatedImage_of_encodes hwfv hv (hcommit.encodes (validatedImage_encodes_of_valid s.img hv))
  have hparams : v.params = s.params := hcommit.ports.left
  have hparams' : v'.params = s.params := by simp [hcommit'.ports.left, hparams]
  obtain ⟨himg, hphase, hreg⟩ := (DutyStepDone.of_dutyStep hduty).again (DutyStepDone.of_dutyStep hduty')
    (by simpa using hparams) (by simp) (by simpa using hfix) hwfv
  refine ⟨by simpa, by simp [hcommit.rmode, hcommit'.rmode], rfl, by simpa, by simpa, v.trace, v'.trace, ?_, ?_⟩
  · simp [hparams]
  · simp [hparams', himg]

end Sys2Proof.Machine

/-! SUPPORT. Exceptions (60_exceptions.md): what a status tells of the instruction that ended with it, the two orders at
a tie, and that every step ends. -/

namespace Sys2Proof.Machine

/-! ### R232: what stays after an error -/

/-- A response is the last output, so it gives the status. -/
@[simp] theorem lastStatus_respond (s : State) (p : Port) (st : Status) (d : RespData) :
    lastStatus (s.respond p st d) = some st := lastStatus_of_trace rfl

/-- What an instruction run from `s` can have done when the status it ended with is `st`. -/
inductive StatusCase (i : Instr) (s t : State) : Status → Prop where
  /-- It succeeded. -/
  | ok : StatusCase i s t .ok
  /-- A request failed; the effects made so far stay. -/
  | transportFailure : StatusCase i s t .transportFailure
  /-- It only answered. -/
  | answered {st : Status} (hst : plainStatus st = true) (ht : t = s.respond i.port st .none) : StatusCase i s t st
  /-- Its one request was a read, whose bytes had the wrong length. -/
  | invalidInput (reg : Byte) (n : Nat) (b : List Byte)
      (ht : t = (s.drawn.emit (.busRead s.params.devAddr reg n (.ok b))).respond i.port .invalidInput .none) :
      StatusCase i s t .invalidInput

/-- A body of requests ends with `OK` or `TransportFailure`, or without a status. -/
theorem RequestsOnly.statusCase {i : Instr} {s u : State} {e : Ended} {st : Status} (h : RequestsOnly u e) (p : Port)
    (hl : lastStatus (e.finish p) = some st) : StatusCase i s (e.finish p) st := by
  obtain ⟨rfl, -⟩ | ⟨rfl, -⟩ := h.lastStatus_finish p hl
  · exact .ok
  · exact .transportFailure

/-- R232: the status tells which of the cases an instruction was. -/
theorem ExecCase.statusCase {i : Instr} {s t : State} {st : Status} (h : ExecCase s i t)
    (hl : lastStatus t = some st) : StatusCase i s t st := by
  cases h with
  | answer i st' d hst hd =>
    obtain rfl : st' = st := by simpa using hl
    by_cases hok : st' = .ok
    · subst hok
      exact .ok
    · exact .answered hst (by rw [hd hok])
  | axes | res | rate | range =>
    obtain rfl : Status.ok = st := by simpa using hl
    exact .ok
  | readOk i hi reg n hr b st' d hst hd =>
    obtain rfl : st' = st := by simpa using hl
    rcases hst with rfl | rfl
    · exact .ok
    · exact .invalidInput reg n b (by rw [port_of_read_or_identify hi, hd (by decide)])
  | readFail =>
    obtain rfl : Status.transportFailure = st := by simpa [State.raise] using hl
    exact .transportFailure
  | readSilent => simp [lastStatus] at hl
  | duty d => exact (RequestsOnly.setDuty s d).statusCase .command hl
  | fire => exact (RequestsOnly.fire s).statusCase .timer hl
  | configure a m r g u d =>
    exact (RequestsOnly.configureTail (s.committed (validatedImage s.img a m r g) (tokenMode m)) d
      ⟨tokenDivisor g, tokenUnit u⟩).statusCase .command hl

/-- Settles O13: by its status the instruction only answered, or its one request was a read. -/
theorem errorsLeaveNothing : Obligations.ErrorsLeaveNothing := by
  intro i s t h st hl
  cases (exec_case h).statusCase hl with
  | ok | transportFailure => simp
  | answered hst ht =>
    subst ht
    refine ⟨fun _ => ⟨⟨rfl, rfl, rfl, rfl⟩, ⟨rfl, rfl, rfl, rfl, rfl, rfl, rfl⟩, rfl⟩, ?_⟩
    rintro rfl
    cases hst
  | invalidInput reg n b ht =>
    subst ht
    refine ⟨by simp, fun _ => ⟨?_, ?_, ?_, s.params.devAddr, reg, n, .ok b, ?_⟩⟩
    · simp [KeepsRegisters]
    · simp [KeepsPorts]
    · simp [DrawsOne]
    · simp [Outputs]

/-! ### R234: the two orders at a tie -/

/-- Settles O9: the head the tie goes to is taken, and the head of `order` decides the tie. -/
theorem tieAdmitsBothOrders : Obligations.TieAdmitsBothOrders := by
  intro s c e cs es hh hc he
  have hcmd : s.cmdPort ≠ [] := by simp [hc]
  have htimer : s.timerPort ≠ [] := by simp [he]
  refine ⟨?_, ?_, ?_⟩
  · cases hp : s.tiePort with
    | command => exact .inl (step_taken hh (takeInput_command_tie hc htimer hp))
    | timer => exact .inr (step_taken hh (takeInput_timer_tie he hcmd hp))
  · exact step_taken hh (takeInput_command_tie (s := { s with order := .command :: s.order }) hc htimer rfl)
  · exact step_taken hh (takeInput_timer_tie (s := { s with order := .timer :: s.order }) he hcmd rfl)

/-! ### R235: no trap -/

/-- R278: a hung block takes no input. -/
theorem step_of_hung {s : State} (h : s.hung = true) : step s = .next s := if_pos h

/-- R261: a block without an input waits. -/
theorem step_of_takeInput_none {s : State} (h : s.takeInput = none) : step s = .next s := by
  simp only [step, stepOnce, h, ite_self]

/-- Every frame that is run, legal or not, leaves a next state. -/
theorem exists_runFrame_next (p : Port) (f : Frame) (s : State) : ∃ t, runFrame p f s = .next t := by
  cases hd : decodeOn p f with
  | none => exact ⟨s.illegal p, runFrame_of_none s hd⟩
  | some i =>
    obtain ⟨t, ht, -⟩ := exec_cases i s
    exact ⟨t, (runFrame_of_some s hd).trans ht⟩

/-- Settles O11: the block is hung, waits, or runs the frame it takes. -/
theorem stepNeverStops : Obligations.StepNeverStops := by
  intro s
  cases hh : s.hung with
  | true => exact ⟨s, step_of_hung hh⟩
  | false =>
    cases hu : s.takeInput with
    | none => exact ⟨s, step_of_takeInput_none hu⟩
    | some taken =>
      obtain ⟨p, f, u⟩ := taken
      rw [step_taken hh hu]
      exact exists_runFrame_next p f (u.emit (.take p f))

end Sys2Proof.Machine


/-! SUPPORT. Reset and hazards (70_reset_and_hazards.md): a block that waits or hangs, a fire from before a reset, and a
mode change after a rate. -/

namespace Sys2Proof.Machine

/-! ### R272: a mode change after a rate -/

/-- The second SETRES leaves the code of the rate that was legal under the first mode, whatever the rate is under the
second. -/
theorem execAll_setRes_setRate_setRes {m r n : Byte} (s : State) (hm : m.toNat ≤ 2) (hr : r.toNat ≤ 10)
    (hl : RateLegal r (some (tokenMode m))) (hn : n.toNat ≤ 2) :
    ∃ t, execAll [.setRes m, .setRate r, .setRes n] s = .next t ∧ lastStatus t = some .ok ∧
      t.img.field 0 7 4 = tokenCode r ∧ t.rmode = some (tokenMode n) := by
  obtain ⟨u, hu⟩ := EncodesOk.of_accepts (i := .setRes m) (s := s) hm
  have hlegal : RateLegal r u.rmode := by rwa [hu.rmode]
  obtain ⟨v, hv⟩ := EncodesOk.of_accepts (i := .setRate r) ⟨hr, hlegal⟩
  obtain ⟨t, ht⟩ := EncodesOk.of_accepts (i := .setRes n) (s := v) hn
  have hcode : (tokenCode r).toNat < 2 ^ (7 - 4 + 1) := by have := tokenCode_le hr; omega
  refine ⟨t, ?run, ht.status, ?code, ht.rmode⟩
  case run => rw [execAll, hu.run]; exact execAll_pair hv.run ht.run
  case code =>
    calc t.img.field 0 7 4
        = v.img.field 0 7 4 := by rw [ht.img]; exact field0_setResBits _ _ _ (by decide)
      _ = tokenCode r := by rw [hv.img]; exact Memory.field_setField_same _ _ _ _ (by decide) (by decide) hcode

/-- Code 1000 is a rate under `LP` only (30_encoding.md R82, 40_encoder.md R103). -/
theorem decRate_code8 {w : Memory} {m : Mode} (h : w.field 0 7 4 = 8) (hm : m ≠ .lp) : decRate w (some m) = none := by
  rw [decRate, h]
  cases m with
  | lp => exact absurd rfl hm
  | normal | hr => rfl

/-- Settles O27: the code of the rate stays, and the second mode reads it as 1344 Hz or as no rate. -/
theorem modeChangeAfterRate : Obligations.ModeChangeAfterRate := by
  intro s
  constructor
  · obtain ⟨t, hrun, hok, hcode, hmode⟩ := execAll_setRes_setRate_setRes (m := 0) (r := 10) (n := 1) s
      (by decide) (by decide) (by decide) (by decide)
    refine ⟨t, hrun, hok, hcode, hmode, ?_⟩
    rw [hmode]
    exact decRate_eq_some_iff.mpr ⟨hcode.symm, rfl⟩
  · obtain ⟨t, hrun, hok, hcode, hmode⟩ := execAll_setRes_setRate_setRes (m := 0) (r := 8) (n := 2) s
      (by decide) (by decide) (by decide) (by decide)
    refine ⟨t, hrun, hok, hcode, hmode, ?_⟩
    rw [hmode]
    exact decRate_code8 hcode (by decide)

/-! ### R261, R278: waiting and hanging -/

theorem takeInput_none {s : State} (hc : s.cmdPort = []) (ht : s.timerPort = []) : s.takeInput = none := by
  simp only [State.takeInput, hc, ht]

/-- A state a step stays in is a state any number of steps stays in. -/
theorem run_of_step_self {M : Host.Core} {s : M.State} (h : M.step s = .next s) (k : Nat) : M.run k s = .next s := by
  induction k with
  | zero => rfl
  | succ k ih => rw [Host.Core.run, h]; exact ih

/-- Settles O10: a step without an input and a step of a hung block stay put. -/
theorem waitsWithoutInputAndHangsForEver : Obligations.WaitsWithoutInputAndHangsForEver :=
  ⟨fun _ hc ht => step_of_takeInput_none (takeInput_none hc ht), fun k _ hh => run_of_step_self (M := core) (step_of_hung hh) k⟩

/-! ### R262: a fire from before a reset -/

/-- Settles O16: a reset disarms the timer, so the fire is stale whatever its handle. -/
theorem preResetFireIgnored : Obligations.PreResetFireIgnored := fun s _ hp =>
  exec_answer_keeps (exec_tfire_stale (s := s.resetBlock) hp (.inl rfl))

end Sys2Proof.Machine
